-- ==== Sys2Proof/Word.lean ====
section
/-! DEFINITION. The widths of the block's values (00_scope.md R6): bytes, 32-bit command words, 64-bit words, u256. -/

namespace Sys2Proof

/-- `u8` (R6). -/
abbrev Byte := BitVec 8

/-- `u32` (R6): a command word, the status word. -/
abbrev Word32 := BitVec 32

/-- `u64` (R6): the data operand, a cipher block. -/
abbrev Word64 := BitVec 64

/-- `u256` (R6): H, SIGMA, L, DIGEST, a block, a key. -/
abbrev Word256 := BitVec 256

end Sys2Proof
end

