-- ==== Sys2Proof/Syntax.lean ====
section
/-! DEFINITION. The four commands of the block (30_encoding.md R83), one constructor per row of spec/opcode_table.json. -/

namespace Sys2Proof

/-- A command with its operands (R80 to R83). -/
inductive Instr where
  /-- CONSTRUCT: `sel` is SEL, `cmd_word[11:8]` (R86). -/
  | construct (sel : BitVec 4)
  /-- WRITE: `n` is N, `cmd_word[7:4]` (R85), and `data` is `cmd_data` (R82). -/
  | write (n : BitVec 4) (data : Word64)
  /-- SUM: no operand. -/
  | sum
  /-- RESET: no operand. -/
  | reset
deriving DecidableEq, Repr

end Sys2Proof
end

