-- ==== Sys2Proof/WellFormed.lean ====
section
/-! DEFINITION. The one condition a command's operands must meet beyond their widths: N of a WRITE is at most 8
(30_encoding.md R84 "N ≤ 8", R85). -/

namespace Sys2Proof

/-- `write` carries at most 8 bytes; every SEL is a legal encoding (R84, R86). -/
def Instr.wellFormed : Instr → Bool
  | .construct _ => true
  | .write n _ => n.toNat ≤ 8
  | .sum => true
  | .reset => true

end Sys2Proof
end

