-- ==== Sys2Proof/Decode.lean ====
section
/-! DEFINITION. Decoding a command word with its data operand, total and rejecting by name (30_encoding.md R80 to R89),
the match and mask table of R84 beside it, and the encoder. -/

namespace Sys2Proof

/-- Why a command word is illegal (R87). -/
inductive DecodeError where
  /-- OP is 0 or 5 to 15. -/
  | unassignedOpcode
  /-- a field the opcode does not use is not zero. -/
  | unusedFieldNotZero
  /-- a WRITE with N = 9 to 15. -/
  | byteCountTooLarge
deriving DecidableEq, Repr

/-- OP = `cmd_word[3:0]` (R81). -/
def fieldOp (w : Word32) : BitVec 4 := w.extractLsb' 0 4

/-- N = `cmd_word[7:4]` (R81, R85). -/
def fieldN (w : Word32) : BitVec 4 := w.extractLsb' 4 4

/-- SEL = `cmd_word[11:8]` (R81, R86). -/
def fieldSel (w : Word32) : BitVec 4 := w.extractLsb' 8 4

/-- RSVD = `cmd_word[31:12]` (R81). -/
def fieldRsvd (w : Word32) : BitVec 20 := w.extractLsb' 12 20

/-- The decoder: OP selects the command (R83), every field the opcode does not use must be zero, and N of a WRITE is at
most 8 (R84, R87). `d` is only carried along (R82). -/
def decode (w : Word32) (d : Word64) : Except DecodeError Instr :=
  if fieldOp w = 1 then
    if fieldN w = 0 ∧ fieldRsvd w = 0 then .ok (.construct (fieldSel w)) else .error .unusedFieldNotZero
  else if fieldOp w = 2 then
    if fieldSel w = 0 ∧ fieldRsvd w = 0 then
      if (fieldN w).toNat ≤ 8 then .ok (.write (fieldN w) d) else .error .byteCountTooLarge
    else .error .unusedFieldNotZero
  else if fieldOp w = 3 then
    if fieldN w = 0 ∧ fieldSel w = 0 ∧ fieldRsvd w = 0 then .ok .sum else .error .unusedFieldNotZero
  else if fieldOp w = 4 then
    if fieldN w = 0 ∧ fieldSel w = 0 ∧ fieldRsvd w = 0 then .ok .reset else .error .unusedFieldNotZero
  else .error .unassignedOpcode

/-- One row of R84's table: the word belongs to the row when `w & mask = pattern` and N is at most `maxN`. -/
structure OpcodeRow where
  mnemonic : String
  pattern  : Word32
  mask     : Word32
  maxN     : Nat
deriving DecidableEq, Repr

/-- R84's table of match and mask; a row without a further condition has `maxN = 15`. -/
def opcodeRows : List OpcodeRow :=
  [⟨"CONSTRUCT", 0x00000001#32, 0xFFFFF0FF#32, 15⟩,
   ⟨"WRITE", 0x00000002#32, 0xFFFFFF0F#32, 8⟩,
   ⟨"SUM", 0x00000003#32, 0xFFFFFFFF#32, 15⟩,
   ⟨"RESET", 0x00000004#32, 0xFFFFFFFF#32, 15⟩]

/-- The word matches the row and meets its further condition (R84). -/
def OpcodeRow.accepts (r : OpcodeRow) (w : Word32) : Bool :=
  (w &&& r.mask == r.pattern) && decide ((fieldN w).toNat ≤ r.maxN)

/-- "A word is legal when, for exactly one row, `(cmd_word & mask) = match` and the further condition holds" (R84). -/
def legalWord (w : Word32) : Bool := (opcodeRows.filter (·.accepts w)).length == 1

/-- The command word laid out as in R80: RSVD, SEL, N, OP from bit 31 down. -/
def packWord (sel n op : BitVec 4) : Word32 := 0#20 ++ sel ++ n ++ op

/-- The encoder: the command word and the data operand of a command (R80, R83); an unused operand is sent as 0. -/
def encode : Instr → Word32 × Word64
  | .construct sel => (packWord sel 0 1, 0)
  | .write n data => (packWord 0 n 2, data)
  | .sum => (packWord 0 0 3, 0)
  | .reset => (packWord 0 0 4, 0)

/-- The command word inside a number that holds the word in bits 31:0 and the data operand in bits 95:32 (R89). -/
def tableWord (nbits w : Nat) : Word32 := BitVec.ofNat 32 (w % 2 ^ nbits)

/-- The data operand inside such a number. -/
def tableData (nbits w : Nat) : Word64 := BitVec.ofNat 64 (w % 2 ^ nbits / 2 ^ 32)

/-- The command the decoder reads from a command given as such a number; none where the word is illegal. -/
def decodeTableWord (nbits w : Nat) : Option Instr :=
  match decode (tableWord nbits w) (tableData nbits w) with
  | .ok i => some i
  | .error _ => none

end Sys2Proof
end

