-- ==== Sys2Proof/Config.lean ====
section
/-! DEFINITION. What is fixed for one block, and the FREE VALUES the spec leaves open: `opaque` constants without a
body, of which nothing can be proved but that they are functions of their arguments. -/

namespace Sys2Proof

/-- CIPHER_E (40_block_cipher_port.md R110 to R112): the external cipher as a function of the parameter set, the key
and the block. FREE: only R111's determinism is assumed (log 6). -/
opaque Config.cipher : BitVec 4 → Word256 → Word64 → Word64

/-- FREE: the entry for `nibble` in row `row` of a substitution table of SEL 2 to 15 (40_block_cipher_port.md R121 to R123
give SEL 0 and 1 only; log 7). The machine does not use it. -/
opaque Config.sboxOther (sel : BitVec 4) (row nibble : Nat) : BitVec 4

/-- NUM_SBOX_SETS (00_scope.md R5, 93_implementation_defined.md U7): 2 in this revision. -/
def Config.numSboxSets : Nat := 2

/-- FREE: byte `PB[k]`, k at or above PB_COUNT, after the WRITE with draw index `draw` (10_state.md R26; log 5). -/
opaque Config.stalePb (draw k : Nat) : Byte

/-- FREE: the bits MODE, ERR, PB_COUNT, DIGEST_VALID and SBOX_SEL of `status` while BUSY = 1
(70_reset_and_hazards.md R296; log 13). -/
opaque Config.busyStatus (draw : Nat) : BitVec 15

/-- FREE: H after a power-on reset (10_state.md R37; log 4). -/
opaque Config.powerOnH (draw : Nat) : Word256

/-- FREE: SIGMA after a power-on reset (10_state.md R37; log 4). -/
opaque Config.powerOnSigma (draw : Nat) : Word256

/-- FREE: L after a power-on reset (10_state.md R37; log 4). -/
opaque Config.powerOnL (draw : Nat) : Word256

/-- FREE: DIGEST after a power-on reset (10_state.md R37; log 4). -/
opaque Config.powerOnDigest (draw : Nat) : Word256

/-- FREE: byte `PB[k]` after a power-on reset (10_state.md R37; log 4). -/
opaque Config.powerOnPb (draw k : Nat) : Byte

end Sys2Proof
end

