-- ==== Sys2Proof/Machine/State.lean ====
section
/-! DEFINITION. The state of one engine: the architectural tuple of 10_state.md R20, the hidden state of R33, the
channel's held offer (20_memory.md R60), and the host's coming actions. Plain data. -/

namespace Sys2Proof.Machine

/-- MODE (R21). Value 3 is never held (93_implementation_defined.md U12; log 21). -/
inductive Mode where
  | unconfigured | empty | accumulating
deriving DecidableEq, Repr

/-- ERR (R29, 60_exceptions.md R260). Codes 5 to 7 are never written (U12; log 21). -/
inductive Err where
  | ok | configError | notConfigured | alreadyConfigured | illegalCmd
deriving DecidableEq, Repr

/-- Which Step of a command is running (43_step_function.md R170): the block of a WRITE, or SUM's tail block, length
or checksum. -/
inductive Job where
  | block | tail | length | checksum
deriving DecidableEq, Repr

/-- The three runs of ψ inside one Step (R173): ψ^12 on S, one ψ after M, ψ^61 after H. -/
inductive MixStage where
  | first | second | third
deriving DecidableEq, Repr

/-- The phase of a command in progress (R33, R175; log 10). -/
inductive Phase where
  /-- accepted, not yet decoded. -/
  | start
  /-- key generation: key number `j` is the next to be made. -/
  | keys (j : Fin 4)
  /-- cipher request `i` is offered on the port: `cip_req_valid = 1` (R114). -/
  | offer (i : Fin 4)
  /-- cipher request `i` has been taken and its response is awaited (R115). -/
  | await (i : Fin 4)
  /-- mixing: `left` applications of ψ remain in this run. -/
  | mix (stage : MixStage) (left : Nat)
  /-- all work is done; what is left is to commit the writes and complete. -/
  | done
deriving DecidableEq, Repr

/-- The hidden state of R33, meaningful only while BUSY = 1. -/
structure Flight where
  /-- latched command word (R60). -/
  word  : Word32
  /-- latched data operand (R60). -/
  data  : Word64
  phase : Phase
  job   : Job
  /-- HS: the chaining value that enters the Step in progress; SUM's snapshot of H (45_digest_engine.md R224). -/
  hs    : Word256
  /-- SS: SUM's snapshot of SIGMA. -/
  ss    : Word256
  /-- LS: SUM's snapshot of L. -/
  ls    : Word256
  /-- M: the block that the Step in progress folds (R170). -/
  m     : Word256
  /-- U of the key unit (41_key_derivation.md R134). -/
  u     : Word256
  /-- V of the key unit (R134). -/
  v     : Word256
  /-- K1..K4 (R134). -/
  k     : Vector Word256 4
  /-- the cipher results s1..s4 (R172). -/
  s     : Vector Word64 4
  /-- the ψ working value (42_psi_shuffle.md R151). -/
  y     : Word256
  /-- the model's own: edges the outstanding request has waited for its response (log 19). -/
  waited : Nat
  /-- the model's own: the edges since the accepting edge, 0 in the first cycle of the command (log 19). -/
  age    : Nat
  /-- the model's own: the `age` at which each response so far came, the newest first (log 19). -/
  times  : List Nat
  /-- the model's own: the free-value index of this command (log 19). -/
  draw  : Nat
deriving DecidableEq, Repr

/-- The hidden state when no command is in progress: discarded (R33, R37). -/
def Flight.none : Flight :=
  { word := 0, data := 0, phase := .start, job := .block, hs := 0, ss := 0, ls := 0, m := 0, u := 0, v := 0,
    k := Vector.replicate 4 0, s := Vector.replicate 4 0, y := 0, waited := 0, age := 0, times := [],
    draw := 0 }

/-- One action of the host or of the platform on an engine, as the transaction view sees it (log 2). -/
inductive HostAction where
  /-- a command is offered, held until accepted, and completes (20_memory.md R60 to R62). -/
  | command (word : Word32) (data : Word64)
  /-- a command is accepted, and `rst_n` falls before it completes (70_reset_and_hazards.md R292). -/
  | commandAbandoned (word : Word32) (data : Word64)
  /-- at least one edge with `rst_n = 0` while no command is in progress (R290). -/
  | powerOnReset
  /-- the host samples `status` (R58). -/
  | readStatus
  /-- the host reads `digest` and relies on it (R297). -/
  | readDigest
  /-- the host changes the word or the data of an offer that is not yet accepted (R60, R265). -/
  | changeHeldCommand
deriving DecidableEq, Repr

/-- The architectural state, the tuple of 10_state.md R20, field by field. -/
structure Arch where
  /-- MODE, R21. -/
  mode        : Mode
  /-- SBOX_SEL, R22. -/
  sboxSel     : BitVec 4
  /-- H, the hash_state_register, R23. -/
  h           : Word256
  /-- SIGMA, the checksum_accumulator, R24. -/
  sigma       : Word256
  /-- L, the bitlength_counter, R25. -/
  l           : Word256
  /-- PB[0..31], R26. -/
  pb          : Vector Byte 32
  /-- PB_COUNT, R26. -/
  pbCount     : BitVec 5
  /-- DIGEST, R27. -/
  digest      : Word256
  /-- DIGEST_VALID, R28. -/
  digestValid : Bool
  /-- ERR, R29. -/
  err         : Err
  /-- BUSY, R30. -/
  busy        : Bool
deriving DecidableEq, Repr

/-- The whole state: the architectural tuple, the hidden state, the held offer, the host's coming actions, and the
index of the next free value. -/
structure State extends Arch where
  /-- R33; read only while BUSY = 1. -/
  flight : Flight
  /-- the offer that was valid and not ready at the last edge (R60). -/
  held   : Option (Word32 × Word64)
  /-- the host's coming actions, next first (log 2). -/
  host   : List HostAction
  /-- the model's own: counts the draws of free values (log 19). -/
  draws  : Nat
deriving DecidableEq, Repr

/-- Why the machine stops. -/
inductive Fault where
  /-- Raised by `step` and by `edge` when the host changes `cmd_word` or `cmd_data` while `cmd_valid = 1` and
  `cmd_ready = 0` (60_exceptions.md R265, U9). Safe: the block goes on, the model stops, as R265 says. -/
  | heldCommandChanged
  /-- Raised by `step` and by `edge` when the host reads `digest` while DIGEST_VALID = 0 or BUSY = 1 (R265, R297, U3).
  Safe: the port has some value there, which no claim may use. -/
  | digestReadNotValid
deriving DecidableEq, Repr

/-- Why the machine has no meaning for a command. -/
inductive Refusal where
  /-- Reserved for an arm of `exec` without a meaning; no arm is without one, so nothing raises it. Safe. -/
  | notModelled (mnemonic : String)
deriving DecidableEq, Repr

/-- The machine right after reset (R37, R290). H, SIGMA, L, PB and DIGEST are unspecified there: their zeros are the
model's DESIGN CHOICE (log 3), which no claim may use. -/
def State.reset : State :=
  { mode := .unconfigured, sboxSel := 0, h := 0, sigma := 0, l := 0, pb := Vector.replicate 32 0, pbCount := 0,
    digest := 0, digestValid := false, err := .ok, busy := false, flight := Flight.none, held := Option.none,
    host := [], draws := 0 }

end Sys2Proof.Machine
end

