-- ==== Sys2Proof/Machine/Flags.lean ====
section
/-! DEFINITION. The codes of MODE and ERR, the `status` word, what the host reads on the two ports, and which error a
command raises (10_state.md R21, R29, R31; 60_exceptions.md R260, R262). -/

namespace Sys2Proof.Machine

/-- The value of MODE (R21). -/
def Mode.code : Mode → BitVec 2
  | .unconfigured => 0
  | .empty => 1
  | .accumulating => 2

/-- The value of ERR (R260). -/
def Err.code : Err → BitVec 3
  | .ok => 0
  | .configError => 1
  | .notConfigured => 2
  | .alreadyConfigured => 3
  | .illegalCmd => 4

/-- Bits 15:1 of `status` while BUSY = 0 (R31): SBOX_SEL, DIGEST_VALID, PB_COUNT, ERR, MODE from bit 15 down. -/
def statusFields (s : State) : BitVec 15 :=
  s.sboxSel ++ BitVec.ofBool s.digestValid ++ s.pbCount ++ s.err.code ++ s.mode.code

/-- The 32-bit `status` port (R31): bits 31:16 read 0 and bit 0 is BUSY. While BUSY = 1 the fields are free values
(70_reset_and_hazards.md R296; log 13). -/
def statusPort (s : State) : Word32 :=
  0#16 ++ (if s.busy then Config.busyStatus s.draws else statusFields s) ++ BitVec.ofBool s.busy

/-- The host may rely on `digest` only while BUSY = 0 and DIGEST_VALID = 1 (R297). -/
def State.digestReadable (s : State) : Bool := !s.busy && s.digestValid

/-- A read of the `digest` port (R27, R265): the u256 DIGEST, or the fault of a read that R297 forbids. -/
def digestRead (s : State) : Except Fault Word256 :=
  if s.digestReadable then .ok s.digest else .error .digestReadNotValid

/-- What a run observes after a command (45_digest_engine.md R235): the status word, and the digest where a host may
read it. -/
def observe (s : State) : Word32 × Option Word256 :=
  (statusPort s, if s.digestReadable then some s.digest else none)

/-- The error a command raises in `s`, if any: the checks of 45_digest_engine.md R221 in their order, which is the
priority of 60_exceptions.md R262. -/
def commandError (i : Instr) (s : State) : Option Err :=
  if i.wellFormed = false then some .illegalCmd
  else
    match i with
    | .construct sel =>
      if s.mode ≠ .unconfigured then some .alreadyConfigured
      else if Config.numSboxSets ≤ sel.toNat then some .configError
      else none
    | .write _ _ => if s.mode = .unconfigured then some .notConfigured else none
    | .sum => if s.mode = .unconfigured then some .notConfigured else none
    | .reset => if s.mode = .unconfigured then some .notConfigured else none

end Sys2Proof.Machine
end

