-- ==== Sys2Proof/Machine/Operands.lean ====
section
/-! DEFINITION. The views of a u256 (00_scope.md R7), the conversions between byte sequences and integers (R8), and the
bytes a WRITE carries (20_memory.md R52). -/

namespace Sys2Proof.Machine

/-- `byte_j(v) = v[8j+7:8j]` (R7). -/
def byteOf (v : Word256) (j : Nat) : Byte := v.extractLsb' (8 * j) 8

/-- `word_i(v) = v[64i+63:64i]` (R7). -/
def wordOf (v : Word256) (i : Nat) : Word64 := v.extractLsb' (64 * i) 64

/-- `lane_i(v) = v[16i+15:16i]` (R7). -/
def laneOf (v : Word256) (i : Nat) : BitVec 16 := v.extractLsb' (16 * i) 16

/-- `word_3 ‖ word_2 ‖ word_1 ‖ word_0` (R7). -/
def joinWords (w3 w2 w1 w0 : Word64) : Word256 := w3 ++ w2 ++ w1 ++ w0

/-- `Σ_{j<n} b[j]·2^{8j}` (R8). -/
def leNat : List Byte → Nat
  | [] => 0
  | b :: bs => b.toNat + 256 * leNat bs

/-- `LEint` of at most 32 bytes as a u256 (R8, R53). -/
def leInt (bs : List Byte) : Word256 := BitVec.ofNat 256 (leNat bs)

/-- `LEbytes_32(v)` (R8). -/
def leBytes32 (v : Word256) : List Byte := (List.range 32).map (byteOf v)

/-- `BEbytes_32(v)`: `D[j] = v[255−8j:248−8j]` (R8); the digest string of R54. -/
def beBytes32 (v : Word256) : List Byte := (List.range 32).map fun j => v.extractLsb' (248 - 8 * j) 8

/-- `zeros(n)` (R8). -/
def zeros (n : Nat) : List Byte := List.replicate n 0

/-- The bytes a WRITE carries: `d[k] = cmd_data[8k+7:8k]`, k = 0..N−1, `d[0]` first (R52). -/
def dataBytes (n : BitVec 4) (data : Word64) : List Byte :=
  (List.range n.toNat).map fun k => data.extractLsb' (8 * k) 8

end Sys2Proof.Machine
end

