-- ==== Sys2Proof/Machine/KeyDerivation.lean ====
section
/-! DEFINITION. The key_derivation_unit (41_key_derivation.md): A, P, the round constants, and the key schedule. -/

namespace Sys2Proof.Machine

/-- The linear word transform A (R131): `(w0 ⊕ w1) ‖ w3 ‖ w2 ‖ w1`. -/
def linA (x : Word256) : Word256 :=
  joinWords (wordOf x 0 ^^^ wordOf x 1) (wordOf x 3) (wordOf x 2) (wordOf x 1)

/-- `φ(t) = 8·(t mod 4) + ⌊t/4⌋` (R132). -/
def phi (t : Nat) : Nat := 8 * (t % 4) + t / 4

/-- The byte permutation P (R132): byte t of the result is byte φ(t) of x. -/
def permP (x : Word256) : Word256 := leInt ((List.range 32).map fun t => byteOf x (phi t))

/-- C3 (R133). -/
def roundC3 : Word256 := 0xff00ffff000000ffff0000ff00ffff0000ff00ff00ff00ffff00ff00ff00ff00#256

/-- C_j (R133): C1 = C2 = C4 = 0. -/
def roundC (j : Nat) : Word256 := if j = 3 then roundC3 else 0

/-- One turn of the schedule's loop on U: `U := A(U) ⊕ C_j` (R134). -/
def nextU (j : Nat) (u : Word256) : Word256 := linA u ^^^ roundC j

/-- One turn of the schedule's loop on V: `V := A(A(V))` (R134). -/
def nextV (v : Word256) : Word256 := linA (linA v)

/-- KeyDerive (R134): `K_j = P(U ⊕ V)` after j − 1 turns; entry `j − 1` of the vector is K_j. -/
def keyDerive (h m : Word256) : Vector Word256 4 :=
  let u2 := nextU 2 h
  let v2 := nextV m
  let u3 := nextU 3 u2
  let v3 := nextV v2
  let u4 := nextU 4 u3
  let v4 := nextV v3
  #v[permP (h ^^^ m), permP (u2 ^^^ v2), permP (u3 ^^^ v3), permP (u4 ^^^ v4)]

end Sys2Proof.Machine
end

