-- ==== Sys2Proof/Machine/Psi.lean ====
section
/-! DEFINITION. The psi_shuffle_transform (42_psi_shuffle.md): ψ, ψ^n and the inverse of ψ. -/

namespace Sys2Proof.Machine

/-- The feedback lane `F = y_0 ⊕ y_1 ⊕ y_2 ⊕ y_3 ⊕ y_12 ⊕ y_15` (R150). -/
def psiFeedback (y : Word256) : BitVec 16 :=
  laneOf y 0 ^^^ laneOf y 1 ^^^ laneOf y 2 ^^^ laneOf y 3 ^^^ laneOf y 12 ^^^ laneOf y 15

/-- ψ (R150): every lane moves one place down and F enters lane 15. -/
def psi (y : Word256) : Word256 := psiFeedback y ++ y.extractLsb' 16 240

/-- ψ^n (R151). -/
def psiIter : Nat → Word256 → Word256
  | 0, y => y
  | n + 1, y => psi (psiIter n y)

/-- ψ⁻¹ (R153): the lanes move up and `z_15 ⊕ z_0 ⊕ z_1 ⊕ z_2 ⊕ z_11 ⊕ z_14` enters lane 0. -/
def psiInv (z : Word256) : Word256 :=
  z.extractLsb' 0 240 ++ (laneOf z 15 ^^^ laneOf z 0 ^^^ laneOf z 1 ^^^ laneOf z 2 ^^^ laneOf z 11 ^^^ laneOf z 14)

end Sys2Proof.Machine
end

