-- ==== Sys2Proof/Machine/StepFunction.lean ====
section
/-! DEFINITION. The step_function_pipeline's value (43_step_function.md R170 to R174), for any cipher and for the
block's own. -/

namespace Sys2Proof.Machine

/-- Stage 3, mixing (R173): `ψ^61( H ⊕ ψ( M ⊕ ψ^12(S) ) )`. -/
def mixing (h m s : Word256) : Word256 := psiIter 61 (h ^^^ psi (m ^^^ psiIter 12 s))

/-- Stage 2, encryption (R172): `s_i = Enc(K_i, word_{i−1}(H))` and `S = s_4 ‖ s_3 ‖ s_2 ‖ s_1`. -/
def encryption (enc : Word256 → Word64 → Word64) (k : Vector Word256 4) (h : Word256) : Word256 :=
  joinWords (enc k[3] (wordOf h 3)) (enc k[2] (wordOf h 2)) (enc k[1] (wordOf h 1)) (enc k[0] (wordOf h 0))

/-- The whole Step (R174) over a cipher `enc` of key and block. -/
def stepWith (enc : Word256 → Word64 → Word64) (h m : Word256) : Word256 :=
  mixing h m (encryption enc (keyDerive h m) h)

/-- `Step(sel, H, M)` (R170): the Step over CIPHER_E under parameter set `sel`. -/
def stepFunction (sel : BitVec 4) (h m : Word256) : Word256 := stepWith (Config.cipher sel) h m

end Sys2Proof.Machine
end

