-- ==== Sys2Proof/Machine/Ops.lean ====
section
/-! DEFINITION. The operations the commands are made of: recording an error, the accumulators, the PendingBuffer,
absorbing a block, Init, SUM's digest on a snapshot, and power-on reset (44_accumulators.md, 45_digest_engine.md R224,
60_exceptions.md R261, 70_reset_and_hazards.md R290). The block has no trap: its one exceptional outcome is `raise`. -/

namespace Sys2Proof.Machine

/-- `raise Error(code)` (R261): ERR takes the code and nothing else is written. -/
def State.raise (e : Err) (s : State) : State := { s with err := e }

/-- ChecksumAdd (R190): addition modulo 2^256. -/
def checksumAdd (sigma b : Word256) : Word256 := sigma + b

/-- The bit length after an absorbed full block (R191). -/
def lengthAddBlock (l : Word256) : Word256 := l + 256

/-- The snapshot bit length after a tail of `c` bytes (R192). -/
def lengthAddTail (l : Word256) (c : Nat) : Word256 := l + BitVec.ofNat 256 (8 * c)

/-- `PB[0..PB_COUNT−1]`, oldest first (R26). -/
def State.pending (s : State) : List Byte := s.pb.toList.take s.pbCount.toNat

/-- The PendingBuffer holding `bytes` in its low places; the places above are unspecified (R26): free values (log 5). -/
@[irreducible] def packPb (draw : Nat) (bytes : List Byte) : Vector Byte 32 :=
  Vector.ofFn fun k => bytes.getD k.val (Config.stalePb draw k.val)

/-- PB and PB_COUNT hold `bytes`. -/
def State.setPending (draw : Nat) (bytes : List Byte) (s : State) : State :=
  { s with pb := packPb draw bytes, pbCount := BitVec.ofNat 5 bytes.length }

/-- The tail block of the pending bytes, zero bytes filling the high end (R195). -/
def tailBlock (bytes : List Byte) : Word256 := leInt (bytes ++ zeros (32 - bytes.length))

/-- Absorb (R196) with the Step's result `h'` already at hand. -/
def State.absorbWith (h' b : Word256) (s : State) : State :=
  { s with sigma := checksumAdd s.sigma b, l := lengthAddBlock s.l, h := h' }

/-- Absorb (R196). -/
def State.absorb (b : Word256) (s : State) : State := s.absorbWith (stepFunction s.sboxSel s.h b) b

/-- The oldest 32 bytes of a working buffer as a block (R194, R53). -/
def firstBlock (buf : List Byte) : Word256 := leInt (buf.take 32)

/-- Append (R193): the working buffer of up to 39 bytes. -/
def State.append (d : List Byte) (s : State) : List Byte := s.pending ++ d

/-- Drain (R194) of a working buffer: at 32 bytes or more the oldest 32 are absorbed, `h'` being the Step's result, and
the surplus moves to the front. The loop runs at most once, since the buffer holds at most 39 bytes. -/
def State.drainWith (h' : Word256) (draw : Nat) (buf : List Byte) (s : State) : State :=
  if 32 ≤ buf.length then (s.absorbWith h' (firstBlock buf)).setPending draw (buf.drop 32)
  else s.setPending draw buf

/-- Drain (R194). -/
def State.drain (buf : List Byte) (s : State) : State :=
  s.drainWith (stepFunction s.sboxSel s.h (firstBlock buf)) s.draws buf

/-- Init (R197); the PB bytes keep stale values. -/
def State.init (s : State) : State := { s with h := 0, sigma := 0, l := 0, pbCount := 0 }

/-- The digest SUM computes on the snapshot HS, SS, LS of the registers (R224). -/
def State.sumDigest (s : State) : Word256 :=
  if 0 < s.pbCount.toNat then
    let b := tailBlock s.pending
    let hs := stepFunction s.sboxSel s.h b
    let hs := stepFunction s.sboxSel hs (lengthAddTail s.l s.pbCount.toNat)
    stepFunction s.sboxSel hs (checksumAdd s.sigma b)
  else
    let hs := stepFunction s.sboxSel s.h s.l
    stepFunction s.sboxSel hs s.sigma

/-- SUM's writes (R224): the digest is latched. -/
def State.latchDigest (d : Word256) (s : State) : State := { s with digest := d, digestValid := true, err := .ok }

/-- Power-on reset (R37, R290): the registers with a power-on value take it, the hidden state is discarded, and H,
SIGMA, L, PB and DIGEST are unspecified: free values (log 4). `draws` does not move, so a longer reset changes nothing
further. -/
def State.powerOn (s : State) : State :=
  { s with
    mode := .unconfigured, sboxSel := 0, pbCount := 0, digestValid := false, err := .ok, busy := false
    h := Config.powerOnH s.draws, sigma := Config.powerOnSigma s.draws, l := Config.powerOnL s.draws
    digest := Config.powerOnDigest s.draws, pb := Vector.ofFn fun k => Config.powerOnPb s.draws k.val
    flight := Flight.none }

/-- The number of Steps a command that raises no error runs (R176). -/
def stepCount (i : Instr) (s : State) : Nat :=
  match i with
  | .construct _ => 0
  | .write n data => if 32 ≤ (s.append (dataBytes n data)).length then 1 else 0
  | .sum => if 0 < s.pbCount.toNat then 3 else 2
  | .reset => 0

end Sys2Proof.Machine
end

