-- ==== Sys2Proof/Machine/Commands.lean ====
section
/-! DEFINITION. The meanings of the four commands (45_digest_engine.md R221 to R225). Each first takes the checks of
R221 in their order; a command that fails one records the error and writes nothing else. -/

namespace Sys2Proof.Machine

/-- `Construct(sel)` (R222). -/
def constructBody (sel : BitVec 4) (s : State) : State :=
  { s.init with sboxSel := sel, mode := .empty, digestValid := false, err := .ok }

/-- CONSTRUCT (R222). -/
def execConstruct (sel : BitVec 4) (s : State) : Host.Outcome State Fault Refusal :=
  match commandError (.construct sel) s with
  | some e => .next (s.raise e)
  | none => .next (constructBody sel s)

/-- What `Write` leaves in MODE, DIGEST_VALID and ERR (R223). -/
def State.markWritten (s : State) : State := { s with mode := .accumulating, digestValid := false, err := .ok }

/-- `Write(n, cd)` (R223): Append, Drain, and the status. -/
def writeBody (n : BitVec 4) (data : Word64) (s : State) : State :=
  (s.drain (s.append (dataBytes n data))).markWritten

/-- WRITE (R223). -/
def execWrite (n : BitVec 4) (data : Word64) (s : State) : Host.Outcome State Fault Refusal :=
  match commandError (.write n data) s with
  | some e => .next (s.raise e)
  | none => .next (writeBody n data s)

/-- `Sum()` (R224). -/
def sumBody (s : State) : State := s.latchDigest s.sumDigest

/-- SUM (R224). -/
def execSum (s : State) : Host.Outcome State Fault Refusal :=
  match commandError .sum s with
  | some e => .next (s.raise e)
  | none => .next (sumBody s)

/-- `Reset()` (R225). -/
def resetBody (s : State) : State := { s.init with mode := .empty, digestValid := false, err := .ok }

/-- RESET (R225). -/
def execReset (s : State) : Host.Outcome State Fault Refusal :=
  match commandError .reset s with
  | some e => .next (s.raise e)
  | none => .next (resetBody s)

end Sys2Proof.Machine
end

