-- ==== Sys2Proof/Machine/Dispatch.lean ====
section
/-! DEFINITION. One arm per command (45_digest_engine.md R221). -/

namespace Sys2Proof.Machine

def exec (i : Instr) (s : State) : Host.Outcome State Fault Refusal :=
  match i with
  | .construct sel => Sys2Proof.Machine.execConstruct sel s
  | .write n data => Sys2Proof.Machine.execWrite n data s
  | .sum => Sys2Proof.Machine.execSum s
  | .reset => Sys2Proof.Machine.execReset s

end Sys2Proof.Machine
end

