-- ==== Sys2Proof/Machine/Execute.lean ====
section
/-! DEFINITION. `Execute(cw, cd)` (45_digest_engine.md R221): a latched command word and data operand, legal or not,
and the acceptance of a command in the transaction view. -/

namespace Sys2Proof.Machine

/-- `Execute(cw, cd)` (R221): a legal word runs its command; an illegal word records ILLEGAL_CMD and changes nothing
else (30_encoding.md R87). -/
def execute (w : Word32) (d : Word64) (s : State) : Host.Outcome State Fault Refusal :=
  match decode w d with
  | .ok i => exec i s
  | .error _ => .next (s.raise .illegalCmd)

/-- Acceptance of the host's next command (20_memory.md R60): the host's list moves on to `rest`, and the command gets
a free-value index of its own (log 19). -/
def State.accept (rest : List HostAction) (s : State) : State := { s with host := rest, draws := s.draws + 1 }

/-- The state in which the command in progress is executed: BUSY falls, the hidden state is discarded (R33, R61), and
the command's own free-value index is current. -/
def State.land (s : State) : State := { s with busy := false, flight := Flight.none, draws := s.flight.draw }

/-- The command in progress runs to its completion (20_memory.md R61, R62), the cipher answering (40_block_cipher_port.md
R117): what a step does when BUSY = 1 (log 9). -/
def completeInFlight (s : State) : Host.Outcome State Fault Refusal := execute s.flight.word s.flight.data s.land

end Sys2Proof.Machine
end

