-- ==== Sys2Proof/Machine/Step.lean ====
section
/-! DEFINITION. One step of the transaction view (92_eei_decisions.md D2): the host's next action, a command being one
atomic transition (20_memory.md R62). -/

namespace Sys2Proof.Machine

/-- One step. With a command in progress, it completes. Otherwise the host's next action is taken; with none left the
block is idle and holds its state (60_exceptions.md R271). -/
def step (s : State) : Host.Outcome State Fault Refusal :=
  if s.busy then completeInFlight s
  else
    match s.host with
    | [] => .next s
    | .command w d :: rest => execute w d (s.accept rest)
    | .commandAbandoned _ _ :: rest => .next (s.accept rest).powerOn
    | .powerOnReset :: rest => .next ({ s with host := rest } : State).powerOn
    | .readStatus :: rest => .next { s with host := rest }
    | .readDigest :: rest =>
      match digestRead s with
      | .ok _ => .next { s with host := rest }
      | .error f => .fault f
    | .changeHeldCommand :: _ => .fault .heldCommandChanged

/-- `s` with no command in progress and the given command next on the channel: bits 31:0 of `w` are the command word,
bits 95:32 the data operand (30_encoding.md R89; log 2). -/
def State.withFetchWord (s : State) (nbits w : Nat) : State :=
  { s with busy := false, flight := Flight.none, host := .command (tableWord nbits w) (tableData nbits w) :: s.host }

end Sys2Proof.Machine
end

