-- ==== Sys2Proof/Machine/Assembler.lean ====
section
/-! DEFINITION. The assembler of 30_encoding.md R90 and R91: a line of text, what it says, and the command pairs it
expands to (log 20). A host's tool: no rule of the block depends on it. -/

namespace Sys2Proof.Machine

/-- What one line says (R90, R91). -/
inductive AsmLine where
  /-- an empty line or a comment alone. -/
  | blank
  /-- `construct <sel>`: default = 0, cryptopro = 1, or a number. -/
  | construct (sel : BitVec 4)
  /-- `write <n>, <data>`: `cmd_data = <data>`, its bits above byte N−1 included (log 20). -/
  | write (n : BitVec 4) (data : Word64)
  /-- `sum`. -/
  | sum
  /-- `reset`. -/
  | reset
  /-- `.word <cmd>, <data>`: the raw pair, legal or not. -/
  | word (cmd : Word32) (data : Word64)
  /-- `write.bytes <b0>, <b1>, …` and `write.str "<text>"`, whose text is its ASCII bytes. -/
  | writeBytes (bytes : List Byte)
  /-- `digest.str "<text>"`. -/
  | digestStr (bytes : List Byte)
  /-- `wait`: a host-side loop, not a command. -/
  | wait
deriving DecidableEq, Repr

/-- The operand of a chunk of at most 8 bytes, `LEint` of the chunk (R91). -/
def chunkOperand (bytes : List Byte) : Word64 := BitVec.ofNat 64 (leNat bytes)

/-- A WRITE of a chunk of at most 8 bytes. -/
def chunkWrite (bytes : List Byte) : Instr := .write (BitVec.ofNat 4 bytes.length) (chunkOperand bytes)

/-- `write.bytes` (R91): full `write 8` commands and, when |text| mod 8 is not 0, a last shorter one. -/
def writeAll (bytes : List Byte) : List Instr :=
  ((List.range (bytes.length / 8)).map fun k => chunkWrite ((bytes.drop (8 * k)).take 8)) ++
    (if bytes.length % 8 = 0 then [] else [chunkWrite (bytes.drop (8 * (bytes.length / 8)))])

/-- The commands a line expands to (R90, R91); `.word` stands outside, being no command of the four. -/
def AsmLine.commands : AsmLine → List Instr
  | .blank => []
  | .construct sel => [.construct sel]
  | .write n data => [.write n data]
  | .sum => [.sum]
  | .reset => [.reset]
  | .word _ _ => []
  | .writeBytes bytes => writeAll bytes
  | .digestStr bytes => .reset :: writeAll bytes ++ [.sum]
  | .wait => []

/-- The command words and data operands a line sends (R90, R91). -/
def AsmLine.expand (l : AsmLine) : List (Word32 × Word64) :=
  match l with
  | .word cmd data => [(cmd, data)]
  | .blank | .construct _ | .write _ _ | .sum | .reset | .writeBytes _ | .digestStr _ | .wait => l.commands.map encode

/-- The characters before a `;` that stands outside double quotes (R90). -/
def beforeComment : Bool → List Char → List Char
  | _, [] => []
  | quoted, c :: cs =>
    if c = ';' ∧ quoted = false then []
    else c :: beforeComment (if c = '"' then !quoted else quoted) cs

/-- Without the spaces at both ends. -/
def trimmed (cs : List Char) : List Char :=
  ((cs.dropWhile Char.isWhitespace).reverse.dropWhile Char.isWhitespace).reverse

/-- The parts between commas. -/
def commaParts : List Char → List (List Char)
  | [] => [[]]
  | c :: cs =>
    match commaParts cs with
    | [] => [[]]
    | p :: ps => if c = ',' then [] :: p :: ps else (c :: p) :: ps

/-- The value of a digit in base 10 or 16. -/
def digitValue (base : Nat) (c : Char) : Option Nat :=
  let n := c.toNat
  let v :=
    if 48 ≤ n ∧ n ≤ 57 then n - 48
    else if 97 ≤ n ∧ n ≤ 102 then n - 87
    else if 65 ≤ n ∧ n ≤ 70 then n - 55
    else base
  if v < base then some v else none

/-- Digits, most significant first. -/
def digitsValue (base : Nat) : Nat → List Char → Option Nat
  | acc, [] => some acc
  | acc, c :: cs =>
    match digitValue base c with
    | some v => digitsValue base (base * acc + v) cs
    | none => none

/-- A number below `bound`, decimal or with `0x` in hex. -/
def numberBelow (bound : Nat) (cs : List Char) : Option Nat :=
  let value :=
    match trimmed cs with
    | [] => none
    | '0' :: 'x' :: d :: ds => digitsValue 16 0 (d :: ds)
    | d :: ds => digitsValue 10 0 (d :: ds)
  match value with
  | some v => if v < bound then some v else none
  | none => none

/-- The ASCII bytes of a text in double quotes. -/
def quotedBytes (cs : List Char) : Option (List Byte) :=
  match cs with
  | '"' :: rest =>
    match rest.reverse with
    | '"' :: back =>
      if back.all fun c => c != '"' && c.toNat < 128 then some (back.reverse.map fun c => BitVec.ofNat 8 c.toNat)
      else none
    | _ => none
  | _ => none

/-- All the parts as byte values. -/
def byteList : List (List Char) → Option (List Byte)
  | [] => some []
  | p :: ps =>
    match numberBelow 256 p, byteList ps with
    | some b, some bs => some (BitVec.ofNat 8 b :: bs)
    | _, _ => none

/-- One line of assembler text (R90, R91): a lower-case mnemonic, then operands with commas between them. -/
def parseLine (line : List Char) : Option AsmLine :=
  let text := trimmed (beforeComment false line)
  let name := text.takeWhile fun c => !c.isWhitespace
  let rest := trimmed (text.drop name.length)
  if name = [] then some .blank
  else if name = "construct".toList then
    if rest = "default".toList then some (.construct 0)
    else if rest = "cryptopro".toList then some (.construct 1)
    else (numberBelow 16 rest).map fun n => .construct (BitVec.ofNat 4 n)
  else if name = "write".toList then
    match commaParts rest with
    | [n, d] =>
      match numberBelow 9 n, numberBelow (2 ^ 64) d with
      | some n, some d => some (.write (BitVec.ofNat 4 n) (BitVec.ofNat 64 d))
      | _, _ => none
    | _ => none
  else if name = "sum".toList ∧ rest = [] then some .sum
  else if name = "reset".toList ∧ rest = [] then some .reset
  else if name = "wait".toList ∧ rest = [] then some .wait
  else if name = ".word".toList then
    match commaParts rest with
    | [w, d] =>
      match numberBelow (2 ^ 32) w, numberBelow (2 ^ 64) d with
      | some w, some d => some (.word (BitVec.ofNat 32 w) (BitVec.ofNat 64 d))
      | _, _ => none
    | _ => none
  else if name = "write.bytes".toList then (byteList (commaParts rest)).map .writeBytes
  else if name = "write.str".toList then (quotedBytes rest).map .writeBytes
  else if name = "digest.str".toList then (quotedBytes rest).map .digestStr
  else none

/-- The pairs a line of text sends; none where the line is not of the assembler's form. -/
def assemble (line : String) : Option (List (Word32 × Word64)) := (parseLine line.toList).map AsmLine.expand

end Sys2Proof.Machine
end

