-- ==== Sys2Proof/Machine/ReferenceCipher.lean ====
section
/-! DEFINITION. The reference cipher of 40_block_cipher_port.md R120 to R123, which the spec gives from general
knowledge (log 7). The machine does not use it: it evaluates the spec's known-answer vectors. -/

namespace Sys2Proof.Machine

/-- Substitution rows, row m = 0 first (R121). -/
abbrev SboxTable := List (List (BitVec 4))

/-- `SBOX_TABLE[0]` (R122). -/
def sboxDefault : SboxTable :=
  [[4, 10, 9, 2, 13, 8, 0, 14, 6, 11, 1, 12, 7, 15, 5, 3],
   [14, 11, 4, 12, 6, 13, 15, 10, 2, 3, 8, 1, 0, 7, 5, 9],
   [5, 8, 1, 13, 10, 3, 4, 2, 14, 15, 12, 7, 6, 0, 9, 11],
   [7, 13, 10, 1, 0, 8, 9, 15, 14, 4, 6, 12, 11, 2, 5, 3],
   [6, 12, 7, 1, 5, 15, 13, 8, 4, 10, 9, 14, 0, 3, 11, 2],
   [4, 11, 10, 0, 7, 2, 1, 13, 3, 6, 8, 5, 9, 12, 15, 14],
   [13, 11, 4, 1, 3, 15, 5, 9, 0, 10, 14, 7, 6, 8, 2, 12],
   [1, 15, 13, 0, 5, 7, 10, 4, 9, 2, 3, 14, 6, 11, 8, 12]]

/-- `SBOX_TABLE[1]` (R123). -/
def sboxCryptoPro : SboxTable :=
  [[10, 4, 5, 6, 8, 1, 3, 7, 13, 12, 14, 0, 9, 2, 11, 15],
   [5, 15, 4, 0, 2, 13, 11, 9, 1, 7, 6, 3, 12, 14, 10, 8],
   [7, 15, 12, 14, 9, 4, 1, 0, 3, 11, 5, 2, 6, 10, 8, 13],
   [4, 10, 7, 12, 0, 15, 2, 8, 14, 1, 6, 5, 13, 11, 9, 3],
   [7, 6, 4, 11, 9, 12, 2, 10, 1, 8, 0, 14, 15, 13, 3, 5],
   [7, 6, 2, 4, 13, 9, 15, 0, 10, 1, 5, 11, 8, 14, 12, 3],
   [13, 14, 4, 1, 7, 0, 5, 10, 3, 12, 8, 15, 6, 2, 9, 11],
   [1, 3, 10, 9, 5, 11, 4, 15, 8, 6, 7, 14, 13, 0, 2, 12]]

/-- Nibble m of a u32, `T[4m+3:4m]` (R121). -/
def nibble (t : Word32) (m : Nat) : BitVec 4 := t.extractLsb' (4 * m) 4

/-- One nibble replaced by its entry in row m (R121). -/
def substNibble (table : SboxTable) (t : Word32) (m : Nat) : BitVec 4 :=
  (table.getD m []).getD (nibble t m).toNat 0

/-- `Subst` (R121) over a table. -/
def subst (table : SboxTable) (t : Word32) : Word32 :=
  substNibble table t 7 ++ substNibble table t 6 ++ substNibble table t 5 ++ substNibble table t 4 ++
    substNibble table t 3 ++ substNibble table t 2 ++ substNibble table t 1 ++ substNibble table t 0

/-- The key word of round r: words 0 to 7 three times, then 7 to 0 (R120). -/
def keyWord (key : Word256) (r : Nat) : Word32 :=
  key.extractLsb' (32 * (if r < 24 then r % 8 else 7 - r % 8)) 32

/-- One round (R120): `(N1, N2) := (N2 ⊕ rotl32(Subst(N1 + X), 11), N1)`. -/
def cipherRound (table : SboxTable) (x : Word32) (n : Word32 × Word32) : Word32 × Word32 :=
  (n.2 ^^^ (subst table (n.1 + x)).rotateLeft 11, n.1)

/-- Rounds 0 to n − 1 (R120). -/
def cipherRounds (table : SboxTable) (key : Word256) : Nat → Word32 × Word32 → Word32 × Word32
  | 0, n => n
  | r + 1, n => cipherRound table (keyWord key r) (cipherRounds table key r n)

/-- The reference encryption over a table (R120): N1 := h[31:0], N2 := h[63:32], 32 rounds, result `N1 ‖ N2`. -/
def encryptTable (table : SboxTable) (key : Word256) (h : Word64) : Word64 :=
  let n := cipherRounds table key 32 (h.extractLsb' 0 32, h.extractLsb' 32 32)
  n.1 ++ n.2

/-- `SBOX_TABLE[sel]` (R122, R123). The spec gives the tables 0 and 1 only; a table above 1 is a free value (DESIGN CHOICE,
log 7). -/
def sboxTable (sel : BitVec 4) : SboxTable :=
  if sel = 0 then sboxDefault
  else if sel = 1 then sboxCryptoPro
  else (List.range 8).map fun m => (List.range 16).map (Config.sboxOther sel m)

/-- `Enc_ref(sel, K, h)` (R112, R120); for SEL 2 to 15, which have no table in the spec, over a free one (log 7). -/
def encryptReference (sel : BitVec 4) : Word256 → Word64 → Word64 := encryptTable (sboxTable sel)

end Sys2Proof.Machine
end

