-- ==== Sys2Proof/Machine/Digest.lean ====
section
/-! DEFINITION. The digest as a function of the message (45_digest_engine.md R226), the message a sequence of commands
has written (20_memory.md R51), and the register invariants that tie a state to its message (44_accumulators.md R198).
The machine does not use this file; statements about it do. -/

namespace Sys2Proof.Machine

/-- The values H, Σ and L that R226 carries from block to block. -/
structure Chain where
  h     : Word256
  sigma : Word256
  l     : Word256
deriving DecidableEq, Repr

/-- H, Σ and L before the first block (R226, R197). -/
def Chain.start : Chain := { h := 0, sigma := 0, l := 0 }

/-- One block of `bits` message bits folded in (R226): 256 for a full block, 8c for a tail of c bytes. -/
def Chain.fold (enc : Word256 → Word64 → Word64) (bits : Nat) (c : Chain) (b : Word256) : Chain :=
  { h := stepWith enc c.h b, sigma := c.sigma + b, l := c.l + BitVec.ofNat 256 bits }

/-- Block k of a message, `LEint(m[32k .. 32k+31])` (R226). -/
def messageBlock (m : List Byte) (k : Nat) : Word256 := leInt ((m.drop (32 * k)).take 32)

/-- The n = |m| div 32 full blocks of a message, in order (R226). -/
def fullBlocks (m : List Byte) : List Word256 := (List.range (m.length / 32)).map (messageBlock m)

/-- The c = |m| mod 32 bytes behind the full blocks (R226). -/
def messageTail (m : List Byte) : List Byte := m.drop (32 * (m.length / 32))

/-- H, Σ and L after the full blocks of a message (R226, R198). -/
def chainOf (enc : Word256 → Word64 → Word64) (m : List Byte) : Chain :=
  (fullBlocks m).foldl (Chain.fold enc 256) Chain.start

/-- `Digest(sel, m)` over a cipher `enc` of key and block (R226). -/
def digestWith (enc : Word256 → Word64 → Word64) (m : List Byte) : Word256 :=
  let c := m.length % 32
  let full := chainOf enc m
  let all := if 0 < c then full.fold enc (8 * c) (leInt (messageTail m ++ zeros (32 - c))) else full
  stepWith enc (stepWith enc all.h all.l) all.sigma

/-- `Digest(sel, m)` (R226). -/
def digestOf (sel : BitVec 4) (m : List Byte) : Word256 := digestWith (Config.cipher sel) m

/-- The message written since the last CONSTRUCT or RESET, after one more command (R51): a successful WRITE appends its
bytes, a successful CONSTRUCT or RESET starts anew, and SUM and failing commands carry no bytes. -/
def messageAfter (i : Instr) (s : State) (m : List Byte) : List Byte :=
  match commandError i s with
  | some _ => m
  | none =>
    match i with
    | .construct _ => []
    | .write n data => m ++ dataBytes n data
    | .sum => m
    | .reset => []

/-- The registers hold what R198 says of the message `m`. -/
structure Tracks (m : List Byte) (s : State) : Prop where
  count   : s.pbCount.toNat = m.length % 32
  pending : s.pending = messageTail m
  length  : s.l = BitVec.ofNat 256 (256 * (m.length / 32))
  sum     : s.sigma = (chainOf (Config.cipher s.sboxSel) m).sigma
  chain   : s.h = (chainOf (Config.cipher s.sboxSel) m).h

/-- A sequence of legal commands, run one after the other (20_memory.md R63). -/
def runAll : List Instr → State → Host.Outcome State Fault Refusal
  | [], s => .next s
  | i :: is, s =>
    match exec i s with
    | .next t => runAll is t
    | .fault f => .fault f
    | .refused r => .refused r

/-- The WRITE commands with these byte counts and operands. -/
def writes (ws : List (BitVec 4 × Word64)) : List Instr := ws.map fun w => .write w.1 w.2

/-- The message that these WRITE operands carry (R51, R52). -/
def carried (ws : List (BitVec 4 × Word64)) : List Byte := ws.flatMap fun w => dataBytes w.1 w.2

end Sys2Proof.Machine
end

