-- ==== Sys2Proof/Machine/Pipeline.lean ====
section
/-! DEFINITION. The work of a command between the edge that accepts it and the edge that completes it
(43_step_function.md R175, 10_state.md R33): key generation, the four cipher requests one after the other, the mixing,
SUM's chain of Steps, and the commit of all writes at completion (20_memory.md R62). How much moves in one cycle is the
implementation's choice (92_eei_decisions.md D40; log 10); when the block may go on is the argument `Timing` (log 18). -/

namespace Sys2Proof.Machine

/-- The command that latched word and data decode to, with the error it raises; none for an illegal word. -/
def latched (s : State) : Except DecodeError Instr := decode s.flight.word s.flight.data

/-- The writes of the command in progress, all at once (R62), `h'` being the result of its last Step. -/
def commitBody (h' : Word256) (i : Instr) (s : State) : State :=
  match i with
  | .construct sel => constructBody sel s
  | .write n data => (s.drainWith h' s.flight.draw (s.append (dataBytes n data))).markWritten
  | .sum => s.latchDigest h'
  | .reset => resetBody s

/-- The command in progress writes its outcome (R221, R261, R62). -/
def State.commitWrites (h' : Word256) (s : State) : State :=
  match latched s with
  | .error _ => s.raise .illegalCmd
  | .ok i =>
    match commandError i s with
    | some e => s.raise e
    | none => commitBody h' i s

/-- The completion edge: the writes become visible, BUSY falls, the hidden state is lost (R33, R61, R62). -/
def State.complete (s : State) : State := { s.commitWrites s.flight.hs with busy := false, flight := Flight.none }

/-- The hidden state moves to `f`. -/
def State.setFlight (f : Flight) (s : State) : State := { s with flight := f }

/-- The Step for `job` over block `m` begins: the key unit is loaded with U := H and V := M (41_key_derivation.md R134),
HS being the Step's H. -/
def Flight.startStep (job : Job) (m : Word256) (f : Flight) : Flight :=
  { f with job := job, m := m, u := f.hs, v := m, phase := .keys 0 }

/-- What a command that raises no error has to compute (R222 to R225). CONSTRUCT, RESET and a WRITE that completes no
block run no Step (R176); SUM takes its snapshot (R224). -/
def beginBody (i : Instr) (s : State) : Flight :=
  match i with
  | .construct _ => { s.flight with phase := .done }
  | .reset => { s.flight with phase := .done }
  | .write n data =>
    if 32 ≤ (s.append (dataBytes n data)).length then
      ({ s.flight with hs := s.h } : Flight).startStep .block (firstBlock (s.append (dataBytes n data)))
    else { s.flight with phase := .done }
  | .sum =>
    if 0 < s.pbCount.toNat then
      ({ s.flight with
          hs := s.h
          ss := checksumAdd s.sigma (tailBlock s.pending)
          ls := lengthAddTail s.l s.pbCount.toNat } : Flight).startStep .tail (tailBlock s.pending)
    else ({ s.flight with hs := s.h, ss := s.sigma, ls := s.l } : Flight).startStep .length s.l

/-- The first move of a command: the checks of R221; a command that fails them runs no Step (R176). -/
def beginWork (s : State) : Flight :=
  match latched s with
  | .error _ => { s.flight with phase := .done }
  | .ok i =>
    match commandError i s with
    | some _ => { s.flight with phase := .done }
    | none => beginBody i s

/-- Key generation makes one key: K1 from U and V as loaded, K_j after one turn of the loop (R134). -/
def Flight.makeKey (j : Fin 4) (f : Flight) : Flight :=
  let u := if j = 0 then f.u else nextU (j.val + 1) f.u
  let v := if j = 0 then f.v else nextV f.v
  { f with u := u, v := v, k := f.k.set j (permP (u ^^^ v))
           phase := if h : j.val + 1 < 4 then .keys ⟨j.val + 1, h⟩ else .offer 0 }

/-- The response to request `i` is `block`: the next request is offered, or the mixing starts with S once all four
results are in (R172, R175). -/
def Flight.takeResponse (i : Fin 4) (block : Word64) (f : Flight) : Flight :=
  let r := f.s.set i block
  if h : i.val + 1 < 4 then
    { f with s := r, waited := 0, times := f.age :: f.times, phase := .offer ⟨i.val + 1, h⟩ }
  else
    { f with
      s := r, waited := 0, times := f.age :: f.times
      y := joinWords r[3] r[2] r[1] r[0], phase := .mix .first 12 }

/-- A Step has ended with chaining value `h'`: SUM goes on with the length and then the checksum, every other command
has finished its work (R224). -/
def Flight.endStep (h' : Word256) (f : Flight) : Flight :=
  match f.job with
  | .block => { f with hs := h', phase := .done }
  | .tail => ({ f with hs := h' } : Flight).startStep .length f.ls
  | .length => ({ f with hs := h' } : Flight).startStep .checksum f.ss
  | .checksum => { f with hs := h', phase := .done }

/-- One move of the mixing: an application of ψ, or the XOR that opens the next run of ψ, or the end of the Step
(R173). -/
def Flight.mixMove (stage : MixStage) (left : Nat) (f : Flight) : Flight :=
  match left with
  | left + 1 => { f with y := psi f.y, phase := .mix stage left }
  | 0 =>
    match stage with
    | .first => { f with y := f.m ^^^ f.y, phase := .mix .second 1 }
    | .second => { f with y := f.hs ^^^ f.y, phase := .mix .third 61 }
    | .third => f.endStep f.y

/-- The hidden state after one of the block's own moves: the decoding of the command, one key, or one move of the mixing.
A request on the port and a command whose work is done have no such move. -/
def ownFlight (s : State) : Flight :=
  match s.flight.phase with
  | .start => beginWork s
  | .keys j => s.flight.makeKey j
  | .offer _ => s.flight
  | .await _ => s.flight
  | .mix stage left => s.flight.mixMove stage left
  | .done => s.flight

/-- `n` of the block's own moves. -/
def ownMoves : Nat → State → State
  | 0, s => s
  | n + 1, s => ownMoves n (s.setFlight (ownFlight s))

/-- A bound on the own moves until the next request can be offered or the work is done. -/
def ownLeft (f : Flight) : Nat :=
  match f.phase with
  | .start => 5
  | .keys j => 4 - j.val
  | .offer _ => 0
  | .await _ => 0
  | .mix .first left => left + 69
  | .mix .second left => left + 67
  | .mix .third left => left + 5
  | .done => 0

/-- What the time of a command may depend on beside the cipher (70_reset_and_hazards.md R301). -/
structure Shape where
  /-- its opcode. -/
  op      : BitVec 4
  /-- its legality and its outcome. -/
  outcome : Err
  /-- for a WRITE, N; else 0. -/
  n       : BitVec 4
  /-- the Steps it runs (R176): for a WRITE, whether it completes a block; for SUM, whether PB_COUNT > 0. -/
  steps   : Nat
deriving DecidableEq, Repr

/-- The shape that a command word and operand have in `s` (R301). -/
def shapeOf (w : Word32) (d : Word64) (s : State) : Shape :=
  { op := fieldOp w
    n := if fieldOp w = 2 then fieldN w else 0
    outcome :=
      match decode w d with
      | .error _ => .illegalCmd
      | .ok i => (commandError i s).getD .ok
    steps :=
      match decode w d with
      | .error _ => 0
      | .ok i => if commandError i s = none then stepCount i s else 0 }

/-- The shape of the command in progress. -/
def shape (s : State) : Shape := shapeOf s.flight.word s.flight.data s

/-- The timing of an implementation, an ARGUMENT of the port view (70_reset_and_hazards.md R299: LAT_CMD is OPEN and the
model takes it as an argument; log 18). `T sh times` is how many whole cycles the block rests after its last event (the
acceptance, or the newest response) before it offers the next request or completes. It sees only what R301 lists: the
shape of the command, and the cipher's response times so far, the newest first. A rest is finite. -/
abbrev Timing := Shape → List Nat → Nat

/-- The rest after the last event is over. -/
def rested (T : Timing) (s : State) : Bool :=
  decide (s.flight.times.headD 0 + T (shape s) s.flight.times ≤ s.flight.age)

/-- A cipher request on the port (40_block_cipher_port.md R113). -/
structure CipherRequest where
  sel   : BitVec 4
  key   : Word256
  block : Word64
deriving DecidableEq, Repr

/-- Request `i` of the Step in progress: `(SBOX_SEL, K_i, word_{i−1}(Hin))` (R113, R116); `i` counts from 0. -/
def request (s : State) (i : Fin 4) : CipherRequest :=
  { sel := s.sboxSel, key := s.flight.k[i], block := wordOf s.flight.hs i.val }

/-- The request that has been taken and not yet answered: at most one (R116). -/
def cipherOutstanding (s : State) : Option CipherRequest :=
  if s.busy then
    match s.flight.phase with
    | .await i => some (request s i)
    | _ => none
  else none

/-- What the cipher returns for a request (R110, R115). -/
def CipherRequest.answer (r : CipherRequest) : Word64 := Config.cipher r.sel r.key r.block

end Sys2Proof.Machine
end

