-- ==== Sys2Proof/Machine/Port.lean ====
section
/-! DEFINITION. The port view: one rising edge of `clk` with the values of the input ports (10_state.md R32,
20_memory.md R60 to R62, 40_block_cipher_port.md R113 to R118, 70_reset_and_hazards.md R290 to R297), and the spec's
premises on the cipher as predicates on runs of edges. LAT_CMD and LAT_CIPHER are arguments: the timing `T` of the block,
and the edges at which the cipher answers (R299; log 18). -/

namespace Sys2Proof.Machine

/-- The input ports at one rising edge (R32), and whether the host relies on the `digest` port there. -/
structure EdgeIn where
  rstN        : Bool
  cmdValid    : Bool
  cmdWord     : Word32
  cmdData     : Word64
  cipReqReady : Bool
  cipRspValid : Bool
  cipRspBlock : Word64
  /-- no port: the host reads `digest` here (R265). -/
  readsDigest : Bool
deriving DecidableEq, Repr

/-- `cmd_ready = rst_n ∧ ¬BUSY` (R30). -/
def cmdReady (e : EdgeIn) (s : State) : Bool := e.rstN && !s.busy

/-- The offer that stays on the channel after this edge: valid and not ready (R60). -/
def heldAfter (e : EdgeIn) (s : State) : Option (Word32 × Word64) :=
  if e.cmdValid && !cmdReady e s then some (e.cmdWord, e.cmdData) else none

/-- The host changed an offer it had to hold (R60, R265). -/
def breaksHold (e : EdgeIn) (s : State) : Bool :=
  match s.held with
  | some o => e.cmdValid && o != (e.cmdWord, e.cmdData)
  | none => false

/-- The accepting edge (R60, R61): the word and the data are latched and BUSY rises. -/
def acceptEdge (e : EdgeIn) (s : State) : State :=
  { s with busy := true, draws := s.draws + 1
           flight := { Flight.none with word := e.cmdWord, data := e.cmdData, draw := s.draws + 1 } }

/-- The hidden state once the cipher port has been read: a response is taken only while a request is outstanding (R115,
R118), and one that has not come is waited for. -/
def receiveFlight (e : EdgeIn) (s : State) : Flight :=
  match s.flight.phase with
  | .start => s.flight
  | .keys _ => s.flight
  | .offer _ => s.flight
  | .await i =>
    if e.cipRspValid then s.flight.takeResponse i e.cipRspBlock
    else { s.flight with waited := s.flight.waited + 1 }
  | .mix _ _ => s.flight
  | .done => s.flight

/-- The command in progress late in the cycle that ends with this edge: the response is in, and the block's own moves
have followed it, one of them while the block rests, all of them once the rest is over (logs 10 and 18). -/
def cycle (T : Timing) (e : EdgeIn) (s : State) : State :=
  let r := s.setFlight (receiveFlight e s)
  ownMoves (if rested T r then ownLeft r.flight else 1) r

/-- The request that `c`, late in its cycle, has on the port: the rest is over and a request comes next. -/
def offering (T : Timing) (c : State) : Option (Fin 4) :=
  match c.flight.phase with
  | .start => none
  | .keys _ => none
  | .offer i => if rested T c then some i else none
  | .await _ => none
  | .mix _ _ => none
  | .done => none

/-- `c`, late in its cycle, completes at the edge that ends it: the rest is over and no work is left. -/
def finishing (T : Timing) (c : State) : Bool := c.flight.phase == .done && rested T c

/-- The request on the port in the cycle that ends with this edge, `cip_req_valid` with its three fields; none while
`cip_req_valid = 0` (R114). It may be on the port in the very cycle of the response before it (R114 to R116; log 18). -/
def cipherOffer (T : Timing) (e : EdgeIn) (s : State) : Option CipherRequest :=
  if e.rstN && s.busy then (offering T (cycle T e s)).map (request (cycle T e s)) else none

/-- The hidden state of `c` after the edge that ends its cycle, the command not completing there: the request on the port
is taken if `cip_req_ready = 1` and stays as it is otherwise (R114). -/
def transferFlight (T : Timing) (e : EdgeIn) (c : State) : Flight :=
  match offering T c with
  | some i =>
    if e.cipReqReady then { c.flight with phase := .await i, waited := 0, age := c.flight.age + 1 }
    else { c.flight with age := c.flight.age + 1 }
  | none => { c.flight with age := c.flight.age + 1 }

/-- One edge's work on the command in progress (R60 to R62, R114, R115). The first cycle of a command is the one after its
accepting edge: before it no Step is in progress (R30, R116) and nothing is latched (R60). So the completing edge is at
least one edge later, and with s Steps at least 4·s·LAT_CIPHER + 1 (DEDUCED, log 18; R299). -/
def workEdge (T : Timing) (e : EdgeIn) (s : State) : State :=
  let c := cycle T e s
  if finishing T c then c.complete else c.setFlight (transferFlight T e c)

/-- What the edge does to the registers, the protocol being kept. -/
def edgeMove (T : Timing) (e : EdgeIn) (s : State) : State :=
  if e.rstN = false then s.powerOn
  else if s.busy then { workEdge T e s with draws := s.draws + 1 }
  else if e.cmdValid then acceptEdge e s
  else { s with draws := s.draws + 1 }

/-- One rising edge of `clk` in a block with the timing `T`. A changed offer is the first of two faults (log 12). -/
def edge (T : Timing) (e : EdgeIn) (s : State) : Host.Outcome State Fault Refusal :=
  if breaksHold e s then .fault .heldCommandChanged
  else if e.readsDigest && !s.digestReadable then .fault .digestReadNotValid
  else .next { edgeMove T e s with held := heldAfter e s }

/-- The cipher keeps its contract at this edge (R111, R115): a response to the outstanding request is the value of
CIPHER_E for it. -/
def CipherAnswers (e : EdgeIn) (s : State) : Prop :=
  ∀ r, cipherOutstanding s = some r → e.cipRspValid = true → e.cipRspBlock = r.answer

/-- The edges `es` take a command in progress in `s` to its completion in `t`, with `rst_n = 1`, no protocol broken and
the cipher's contract kept: LAT_CMD is `es.length` (R299). -/
def CommandRun (T : Timing) : List EdgeIn → State → State → Prop
  | [], s, t => s.busy = false ∧ t = s
  | e :: es, s, t =>
    s.busy = true ∧ e.rstN = true ∧ CipherAnswers e s ∧ ∃ s', edge T e s = .next s' ∧ CommandRun T es s' t

/-- The delay LAT_CIPHER of every response in the run `es` from `s`, counted from the edge that took its request to the
edge that samples it, meets `ok` (R115, R299). -/
def ResponseDelays (ok : Nat → Prop) (T : Timing) : List EdgeIn → State → Prop
  | [], _ => True
  | e :: es, s =>
    (cipherOutstanding s ≠ none → e.cipRspValid = true → ok (s.flight.waited + 1)) ∧
      ∀ s', edge T e s = .next s' → ResponseDelays ok T es s'

/-- The edge takes a request, brings the response to one, or completes the command (R117, R299). -/
def Productive (T : Timing) (e : EdgeIn) (s : State) : Bool :=
  ((cipherOffer T e s).isSome && e.cipReqReady) || ((cipherOutstanding s).isSome && e.cipRspValid) ||
    finishing T (cycle T e s)

/-- The requests of the Steps that follow the one in progress: SUM's length and checksum after its tail
(45_digest_engine.md R224). -/
def requestsAfter : Job → Nat
  | .block => 0
  | .tail => 8
  | .length => 4
  | .checksum => 0

/-- The requests that the command in progress has still to send, `n` being those of the whole command. -/
def Flight.requestsLeft (f : Flight) (n : Nat) : Nat :=
  match f.phase with
  | .start => n
  | .keys _ => 4 + requestsAfter f.job
  | .offer i => (4 - i.val) + requestsAfter f.job
  | .await i => (3 - i.val) + requestsAfter f.job
  | .mix _ _ => requestsAfter f.job
  | .done => 0

/-- The productive edges that the command in progress still needs if each does one thing: two for each request to come,
one for the response awaited, and the completion. -/
def workLeft (s : State) : Nat :=
  2 * s.flight.requestsLeft (4 * (shape s).steps) + (if (cipherOutstanding s).isSome then 1 else 0) + 1

/-- The number of productive edges among `es` from `s` on, up to the completion. -/
def productiveCount (T : Timing) : List EdgeIn → State → Nat
  | [], _ => 0
  | e :: es, s =>
    if s.busy then
      (if Productive T e s then 1 else 0) +
        match edge T e s with
        | .next s' => productiveCount T es s'
        | .fault _ => 0
        | .refused _ => 0
    else 0

/-- The number of requests that the edges `es` transfer from `s` on (R114). -/
def transfers (T : Timing) : List EdgeIn → State → Nat
  | [], _ => 0
  | e :: es, s =>
    (if (cipherOffer T e s).isSome && e.cipReqReady then 1 else 0) +
      match edge T e s with
      | .next s' => transfers T es s'
      | .fault _ => 0
      | .refused _ => 0

/-- The control state of a command in progress: everything its time may depend on (R301), and nothing of the message
bytes, H, SIGMA, L, SBOX_SEL, the keys or the digest. -/
structure Control where
  shape : Shape
  phase : Phase
  job   : Job
  age   : Nat
  times : List Nat
deriving DecidableEq, Repr

/-- The control state while BUSY = 1; none while BUSY = 0. -/
def State.control (s : State) : Option Control :=
  if s.busy then
    some { shape := shape s, phase := s.flight.phase, job := s.flight.job, age := s.flight.age, times := s.flight.times }
  else none

/-- The handshake part of the inputs that a command in progress sees: what is left when the data values are taken out. -/
def EdgeIn.sameHandshake (a b : EdgeIn) : Bool :=
  a.rstN == b.rstN && a.cipReqReady == b.cipReqReady && a.cipRspValid == b.cipRspValid

end Sys2Proof.Machine
end

