-- ==== Sys2Proof/Safety.lean ====
section
/-! DEFINITION. What counts as a safe run: the invariant that every step keeps, when two states cannot be told apart by
any later command, and the invariants of a command in progress. -/

namespace Sys2Proof.Machine

/-- The invariant of the registers between commands. -/
structure State.Inv (s : State) : Prop where
  /-- unbound and empty until CONSTRUCT succeeds (10_state.md R22, R37; 45_digest_engine.md R221). -/
  unbound : s.mode = .unconfigured → s.sboxSel = 0 ∧ s.pbCount = 0 ∧ s.digestValid = false
  /-- the bound parameter set exists (10_state.md R22). -/
  bound : s.mode ≠ .unconfigured → s.sboxSel.toNat < Config.numSboxSets
  /-- nothing has been written since CONSTRUCT or RESET (10_state.md R21). -/
  cleared : s.mode = .empty → s.h = 0 ∧ s.sigma = 0 ∧ s.l = 0 ∧ s.pbCount = 0
  /-- L counts whole blocks only (10_state.md R25, 44_accumulators.md R191). -/
  wholeBlocks : s.mode ≠ .unconfigured → s.l.toNat % 256 = 0
  /-- a valid DIGEST is the digest SUM would compute now (10_state.md R28). -/
  digestCurrent : s.digestValid = true → s.digest = s.sumDigest

/-- Two states that agree on everything a later command or a legal read can see: not on the PB bytes above PB_COUNT
(10_state.md R26), nor on a DIGEST that is not valid (R28), nor on the hidden state. -/
structure Indistinguishable (s t : State) : Prop where
  mode        : s.mode = t.mode
  sboxSel     : s.sboxSel = t.sboxSel
  h           : s.h = t.h
  sigma       : s.sigma = t.sigma
  l           : s.l = t.l
  pbCount     : s.pbCount = t.pbCount
  pending     : s.pending = t.pending
  digestValid : s.digestValid = t.digestValid
  err         : s.err = t.err
  busy        : s.busy = t.busy
  digest      : s.digestValid = true → s.digest = t.digest

/-- A command in progress that runs Steps belongs to a configured engine (40_block_cipher_port.md R116). -/
def StepsOnlyConfigured (s : State) : Prop :=
  s.busy = true → s.mode = .unconfigured → s.flight.phase = .start ∨ s.flight.phase = .done

/-- The key unit holds what R134 says: U and V after the turns made so far, and the keys made so far. -/
def KeysRight (s : State) : Prop :=
  match s.flight.phase with
  | .keys j =>
    (j.val ≤ 1 → s.flight.u = s.flight.hs ∧ s.flight.v = s.flight.m) ∧
    (j.val = 2 → s.flight.u = nextU 2 s.flight.hs ∧ s.flight.v = nextV s.flight.m) ∧
    (j.val = 3 → s.flight.u = nextU 3 (nextU 2 s.flight.hs) ∧ s.flight.v = nextV (nextV s.flight.m)) ∧
    ∀ i : Fin 4, i < j → s.flight.k[i] = (keyDerive s.flight.hs s.flight.m)[i]
  | .offer _ => s.flight.k = keyDerive s.flight.hs s.flight.m
  | .await _ => s.flight.k = keyDerive s.flight.hs s.flight.m
  | .start => True
  | .mix _ _ => True
  | .done => True

end Sys2Proof.Machine
end

