-- ==== Sys2Proof/Certificates/Slice0/Obligations.lean ====
section
/-! DEFINITION. The statements for the provers, from the numbered rules of spec/. -/

open Sys2Proof Sys2Proof.Machine

/-! ## Encoding and decoding -/

/-- Words written out from the spec's encodings (30_encoding.md R84 to R87, 95_test_vectors.md §3.9) decode as it says. -/
def Obligations.DecodeOfWorkedWords : Prop :=
  ∀ d : Word64,
    decode 0b00000000000000000000_0000_0000_0001#32 d = .ok (.construct 0) ∧
    decode 0b00000000000000000000_0001_0000_0001#32 d = .ok (.construct 1) ∧
    decode 0b00000000000000000000_0101_0000_0001#32 d = .ok (.construct 5) ∧
    decode 0b00000000000000000000_0000_0000_0010#32 d = .ok (.write 0 d) ∧
    decode 0b00000000000000000000_0000_1000_0010#32 d = .ok (.write 8 d) ∧
    decode 0b00000000000000000000_0000_0000_0011#32 d = .ok .sum ∧
    decode 0b00000000000000000000_0000_0000_0100#32 d = .ok .reset ∧
    decode 0x00000092#32 d = .error .byteCountTooLarge ∧
    decode 0x00000013#32 d = .error .unusedFieldNotZero ∧
    decode 0x00001003#32 d = .error .unusedFieldNotZero ∧
    decode 0x00000000#32 d = .error .unassignedOpcode ∧
    decode 0x00000005#32 d = .error .unassignedOpcode

/-- Decoding an encoded well-formed command gives it back. -/
def Obligations.DecodeOfEncode : Prop :=
  ∀ i : Instr, i.wellFormed = true → decode (encode i).1 (encode i).2 = .ok i

/-- A command that the decoder reads is well-formed and encodes to the very word it was read from; a WRITE also to its
data operand (no other command uses the operand, R82). -/
def Obligations.EncodeOfDecode : Prop :=
  ∀ (w : Word32) (d : Word64) (i : Instr), decode w d = .ok i →
    i.wellFormed = true ∧ (encode i).1 = w ∧ ∀ n data, i = .write n data → data = d ∧ (encode i).2 = d

/-- R84: match and mask of each row, N ≤ 8 for WRITE, every unused field zero; a word is legal when exactly one row
accepts it; at most one row matches a word. -/
def Obligations.MatchAndMaskDecide : Prop :=
  ∀ (w : Word32) (d : Word64),
    (decode w d = .ok (.construct (fieldSel w)) ↔ w &&& 0xFFFFF0FF#32 = 0x00000001#32) ∧
    (decode w d = .ok (.write (fieldN w) d) ↔ w &&& 0xFFFFFF0F#32 = 0x00000002#32 ∧ (fieldN w).toNat ≤ 8) ∧
    (decode w d = .ok .sum ↔ w &&& 0xFFFFFFFF#32 = 0x00000003#32) ∧
    (decode w d = .ok .reset ↔ w &&& 0xFFFFFFFF#32 = 0x00000004#32) ∧
    ((∃ i, decode w d = .ok i) ↔ legalWord w = true) ∧
    opcodeRows.Pairwise (fun r q => ¬ (w &&& r.mask = r.pattern ∧ w &&& q.mask = q.pattern))

/-- R87: a word is illegal exactly when its OP is 0 or 5 to 15, when a field its opcode does not use is not zero, or when
it is a WRITE with N > 8; it is accepted all the same, changes no state but ERR, and completes with ILLEGAL_CMD. -/
def Obligations.IllegalCommandRecordsOnlyErr : Prop :=
  (∀ (w : Word32) (d : Word64),
    (∀ i, decode w d ≠ .ok i) ↔
      (fieldOp w = 0 ∨ 5 ≤ (fieldOp w).toNat ∨ fieldRsvd w ≠ 0 ∨ (fieldOp w ≠ 1 ∧ fieldSel w ≠ 0) ∨
        (fieldOp w ≠ 2 ∧ fieldN w ≠ 0) ∨ (fieldOp w = 2 ∧ 8 < (fieldN w).toNat))) ∧
  (∀ (w : Word32) (d : Word64) (s : State) (rest : List HostAction),
    s.busy = false → s.host = .command w d :: rest → (∀ i, decode w d ≠ .ok i) →
    step s = .next { s.accept rest with err := .illegalCmd }) ∧
  (∀ (d : Word64) (i : Instr), decode 0x00000000 d ≠ .ok i ∧ decode 0x00000005 d ≠ .ok i ∧
    decode 0x00000092 d ≠ .ok i ∧ decode 0x00000013 d ≠ .ok i ∧ decode 0x00001003 d ≠ .ok i)

/-! ## The step -/

/-- With no command in progress and a legal command next on the channel, a step is `exec` of that command in the state
whose host list has moved on and whose free-value index is the command's own (log 19). With a legal command in progress,
a step completes it: `exec` of the latched command in the state where BUSY has fallen and the hidden state is gone, with
the index the command got at its acceptance (log 9). -/
def Obligations.StepRunsDecodedCommand : Prop :=
  (∀ (w : Word32) (d : Word64) (s : State) (rest : List HostAction) (i : Instr),
    s.busy = false → s.host = .command w d :: rest → decode w d = .ok i →
    step s = exec i { s with host := rest, draws := s.draws + 1 }) ∧
  (∀ (s : State) (i : Instr), s.busy = true → decode s.flight.word s.flight.data = .ok i →
    step s = exec i { s with busy := false, flight := Flight.none, draws := s.flight.draw })

/-- A command placed by `withFetchWord` is the very next one that `step` runs. -/
def Obligations.PlacedCommandRunsNext : Prop :=
  ∀ (s : State) (nbits w : Nat) (i : Instr), decodeTableWord nbits w = some i →
    step (s.withFetchWord nbits w) = exec i { s with busy := false, flight := Flight.none, draws := s.draws + 1 }

/-- Reading `status` or `digest` changes no register (R58); a read of `digest` while DIGEST_VALID = 0 is a fault, and
only then when BUSY = 0 (R265, R297). -/
def Obligations.PortReadsChangeNothing : Prop :=
  ∀ (s : State) (rest : List HostAction), s.busy = false →
    (s.host = .readStatus :: rest → step s = .next { s with host := rest }) ∧
    (s.host = .readDigest :: rest → s.digestValid = true →
      step s = .next { s with host := rest } ∧ digestRead s = .ok s.digest) ∧
    (s.host = .readDigest :: rest → s.digestValid = false → step s = .fault .digestReadNotValid)

/-! ## The four commands -/

/-- CONSTRUCT in UNCONFIGURED with SEL 0 or 1 (R222): SBOX_SEL <- SEL, H, SIGMA, L and PB_COUNT <- 0, MODE <- EMPTY,
DIGEST_VALID <- 0, ERR <- OK, and nothing else. -/
def Obligations.ConstructBindsAndInitialises : Prop :=
  ∀ (sel : BitVec 4) (s : State), s.mode = .unconfigured → sel.toNat < 2 →
    exec (.construct sel) s = .next { s with
      sboxSel := sel, h := 0, sigma := 0, l := 0, pbCount := 0, mode := .empty, digestValid := false, err := .ok }

/-- WRITE that completes no block (R223, R193): the bytes are appended, and nothing else is written but MODE,
DIGEST_VALID and ERR. The bytes of PB above PB_COUNT are free (log 5). -/
def Obligations.WriteAppendsBelowABlock : Prop :=
  ∀ (n : BitVec 4) (data : Word64) (s : State), s.mode ≠ .unconfigured → n.toNat ≤ 8 →
    s.pbCount.toNat + n.toNat < 32 →
    ∃ t, exec (.write n data) s = .next t ∧ t.pbCount.toNat = s.pbCount.toNat + n.toNat ∧
      t.pending = s.pending ++ dataBytes n data ∧
      t = { s with pb := t.pb, pbCount := t.pbCount, mode := .accumulating, digestValid := false, err := .ok }

/-- WRITE that completes a block (R223, R194, R196): the oldest 32 bytes are absorbed into SIGMA, L and H, the surplus
stays pending, and nothing else is written but MODE, DIGEST_VALID and ERR. -/
def Obligations.WriteAbsorbsAFullBlock : Prop :=
  ∀ (n : BitVec 4) (data : Word64) (s : State), s.mode ≠ .unconfigured → n.toNat ≤ 8 →
    32 ≤ s.pbCount.toNat + n.toNat →
    let b := leInt ((s.pending ++ dataBytes n data).take 32)
    ∃ t, exec (.write n data) s = .next t ∧ t.pbCount.toNat = s.pbCount.toNat + n.toNat - 32 ∧
      t.pending = (s.pending ++ dataBytes n data).drop 32 ∧
      t = { s with
        sigma := s.sigma + b, l := s.l + 256, h := stepFunction s.sboxSel s.h b
        pb := t.pb, pbCount := t.pbCount, mode := .accumulating, digestValid := false, err := .ok }

/-- R52: the bytes a WRITE carries, `d[0]` first (WriteAppendsBelowABlock appends them in this order), the worked example,
and that the operand's bits above byte N−1 are ignored. -/
def Obligations.WriteIgnoresBitsAboveItsBytes : Prop :=
  (∀ (n : BitVec 4) (data : Word64), n.toNat ≤ 8 → (dataBytes n data).length = n.toNat ∧
    ∀ k < n.toNat, (dataBytes n data)[k]? = some (data.extractLsb' (8 * k) 8)) ∧
  dataBytes 3 0x0000000000636261 = [0x61, 0x62, 0x63] ∧
  (∀ (n : BitVec 4) (data data' : Word64) (s : State),
    (∀ k < 8 * n.toNat, data.getLsbD k = data'.getLsbD k) → exec (.write n data) s = exec (.write n data') s)

/-- SUM in a configured mode (R224): DIGEST takes the value of the finalisation on the snapshot, the tail block first
when bytes are pending, then L, then SIGMA; DIGEST_VALID <- 1, ERR <- OK, and nothing else. -/
def Obligations.SumLatchesTheFinalisation : Prop :=
  ∀ s : State, s.mode ≠ .unconfigured →
    let c := s.pbCount.toNat
    let b := leInt (s.pending ++ zeros (32 - c))
    let hs := if 0 < c then stepFunction s.sboxSel s.h b else s.h
    let ls := if 0 < c then s.l + BitVec.ofNat 256 (8 * c) else s.l
    let ss := if 0 < c then s.sigma + b else s.sigma
    exec .sum s = .next { s with
      digest := stepFunction s.sboxSel (stepFunction s.sboxSel hs ls) ss, digestValid := true, err := .ok }

/-- RESET in a configured mode (R225): H, SIGMA, L and PB_COUNT <- 0, MODE <- EMPTY, DIGEST_VALID <- 0, ERR <- OK, and
nothing else: SBOX_SEL, DIGEST and the PB bytes stay. -/
def Obligations.ResetReturnsToEmpty : Prop :=
  ∀ s : State, s.mode ≠ .unconfigured →
    exec .reset s = .next { s with
      h := 0, sigma := 0, l := 0, pbCount := 0, mode := .empty, digestValid := false, err := .ok }

/-- R262: which error a command word records, in the order ILLEGAL_CMD, the MODE errors, CONFIG_ERROR; and R261: nothing
else is written. -/
def Obligations.ErrorPriority : Prop :=
  ∀ (w : Word32) (d : Word64) (s : State),
    ((∀ i, decode w d ≠ .ok i) → execute w d s = .next { s with err := .illegalCmd }) ∧
    (∀ i, decode w d = .ok i → s.mode = .unconfigured → (∀ sel, i ≠ .construct sel) →
      execute w d s = .next { s with err := .notConfigured }) ∧
    (∀ sel, decode w d = .ok (.construct sel) → s.mode ≠ .unconfigured →
      execute w d s = .next { s with err := .alreadyConfigured }) ∧
    (∀ sel, decode w d = .ok (.construct sel) → s.mode = .unconfigured → 2 ≤ sel.toNat →
      execute w d s = .next { s with err := .configError })

/-- ERR holds the outcome of the last completed command (R29, R261): OK exactly when it raised no error, and any command
word completes (R61). -/
def Obligations.EveryCommandCompletesWithItsOutcome : Prop :=
  ∀ (w : Word32) (d : Word64) (s : State),
    ∃ t, execute w d s = .next t ∧ t.busy = s.busy ∧
      (t.err = .ok ↔ ∃ i, decode w d = .ok i ∧ commandError i s = none) ∧
      (t.err ≠ .ok → t = { s with err := t.err })

/-- R220: the mode transitions on completed commands. -/
def Obligations.ModeTransitions : Prop :=
  ∀ (w : Word32) (d : Word64) (s t : State), execute w d s = .next t →
    (t.err ≠ .ok → t.mode = s.mode) ∧
    (t.err = .ok → ∃ i, decode w d = .ok i ∧
      match i with
      | .construct _ => s.mode = .unconfigured ∧ t.mode = .empty
      | .write _ _ => s.mode ≠ .unconfigured ∧ t.mode = .accumulating
      | .sum => s.mode ≠ .unconfigured ∧ t.mode = s.mode
      | .reset => s.mode ≠ .unconfigured ∧ t.mode = .empty)

/-- Only a power-on reset unbinds the parameter set (R220, R222): no step of a configured engine that is not a reset
changes SBOX_SEL or returns to UNCONFIGURED. -/
def Obligations.OnlyPowerOnUnbinds : Prop :=
  ∀ s t : State, step s = .next t → s.mode ≠ .unconfigured →
    (s.busy = false → ∀ rest, s.host ≠ .powerOnReset :: rest) →
    (s.busy = false → ∀ w d rest, s.host ≠ .commandAbandoned w d :: rest) →
    t.mode ≠ .unconfigured ∧ t.sboxSel = s.sboxSel

/-- R35: which command writes which register when it succeeds; a failed command writes only ERR; and what a power-on
reset writes, H, SIGMA, L and DIGEST being unspecified there. -/
def Obligations.RegisterWriters : Prop :=
  (∀ (i : Instr) (s t : State), commandError i s = none → exec i s = .next t →
    match i with
    | .construct sel =>
      t.mode = .empty ∧ t.sboxSel = sel ∧ t.h = 0 ∧ t.sigma = 0 ∧ t.l = 0 ∧ t.pbCount = 0 ∧
        t.digest = s.digest ∧ t.digestValid = false ∧ t.err = .ok
    | .write n data =>
      t.mode = .accumulating ∧ t.sboxSel = s.sboxSel ∧ t.digest = s.digest ∧ t.digestValid = false ∧ t.err = .ok ∧
        if 32 ≤ s.pbCount.toNat + n.toNat then
          t.h = stepFunction s.sboxSel s.h (firstBlock (s.pending ++ dataBytes n data)) ∧
            t.sigma = s.sigma + firstBlock (s.pending ++ dataBytes n data) ∧ t.l = s.l + 256 ∧
            t.pending = (s.pending ++ dataBytes n data).drop 32
        else t.h = s.h ∧ t.sigma = s.sigma ∧ t.l = s.l ∧ t.pending = s.pending ++ dataBytes n data
    | .sum =>
      t.mode = s.mode ∧ t.sboxSel = s.sboxSel ∧ t.h = s.h ∧ t.sigma = s.sigma ∧ t.l = s.l ∧ t.pb = s.pb ∧
        t.pbCount = s.pbCount ∧ t.digest = s.sumDigest ∧ t.digestValid = true ∧ t.err = .ok
    | .reset =>
      t.mode = .empty ∧ t.sboxSel = s.sboxSel ∧ t.h = 0 ∧ t.sigma = 0 ∧ t.l = 0 ∧ t.pbCount = 0 ∧
        t.digest = s.digest ∧ t.digestValid = false ∧ t.err = .ok) ∧
  (∀ (i : Instr) (s : State) (e : Err), commandError i s = some e → exec i s = .next { s with err := e }) ∧
  (∀ (s t : State) (rest : List HostAction), s.busy = false → s.host = .powerOnReset :: rest → step s = .next t →
    t.mode = .unconfigured ∧ t.sboxSel = 0 ∧ t.pbCount = 0 ∧ t.digestValid = false ∧ t.err = .ok)

/-! ## The units -/

/-- R131: the words of A, linearity, A(0) = 0, A is a bijection, and the worked example. -/
def Obligations.LinearTransformA : Prop :=
  (∀ x : Word256, wordOf (linA x) 0 = wordOf x 1 ∧ wordOf (linA x) 1 = wordOf x 2 ∧ wordOf (linA x) 2 = wordOf x 3 ∧
    wordOf (linA x) 3 = wordOf x 0 ^^^ wordOf x 1) ∧
  (∀ x y : Word256, linA (x ^^^ y) = linA x ^^^ linA y) ∧ linA 0 = 0 ∧ Function.Bijective linA ∧
  linA (joinWords 4 3 2 1) = joinWords 3 4 3 2

/-- R132: byte t of P(X) is byte φ(t) of X, linearity, P(0) = 0, P is a bijection and no involution, bytes 0 and 31 are
its only fixed points, and the worked example. -/
def Obligations.BytePermutationP : Prop :=
  (∀ (x : Word256) (t : Nat), t < 32 → byteOf (permP x) t = byteOf x (8 * (t % 4) + t / 4)) ∧
  (∀ k < 8, ∀ i < 4, phi (4 * k + i) = 8 * i + k) ∧
  (∀ x y : Word256, permP (x ^^^ y) = permP x ^^^ permP y) ∧ permP 0 = 0 ∧ Function.Bijective permP ∧
  (∃ x, permP (permP x) ≠ x) ∧ (∀ t < 32, phi t = t ↔ t = 0 ∨ t = 31) ∧ permP (1#256 <<< 8) = 1#256 <<< 32

/-- R133: the round constants, C3 by its words and by its bytes. -/
def Obligations.RoundConstants : Prop :=
  roundC 1 = 0 ∧ roundC 2 = 0 ∧ roundC 4 = 0 ∧
  roundC 3 = 0xff00ffff000000ffff0000ff00ffff0000ff00ff00ff00ffff00ff00ff00ff00#256 ∧
  roundC 3 = joinWords 0xff00ffff000000ff 0xff0000ff00ffff00 0x00ff00ff00ff00ff 0xff00ff00ff00ff00 ∧
  leBytes32 (roundC 3) =
    [0x00, 0xff, 0x00, 0xff, 0x00, 0xff, 0x00, 0xff, 0xff, 0x00, 0xff, 0x00, 0xff, 0x00, 0xff, 0x00,
     0x00, 0xff, 0xff, 0x00, 0xff, 0x00, 0x00, 0xff, 0xff, 0x00, 0x00, 0x00, 0xff, 0xff, 0x00, 0xff]

/-- R134: the key schedule unrolled, K1 = 0 for equal operands while the other keys need not be 0, affinity over GF(2),
and the worked example. -/
def Obligations.KeySchedule : Prop :=
  (∀ h m : Word256,
    (keyDerive h m)[0] = permP (h ^^^ m) ∧
    (keyDerive h m)[1] = permP (linA h ^^^ linA (linA m)) ∧
    (keyDerive h m)[2] = permP (linA (linA h) ^^^ roundC3 ^^^ linA (linA (linA (linA m)))) ∧
    (keyDerive h m)[3] =
      permP (linA (linA (linA h)) ^^^ linA roundC3 ^^^ linA (linA (linA (linA (linA (linA m))))))) ∧
  (∀ x : Word256, (keyDerive x x)[0] = 0) ∧
  (∃ x : Word256, (keyDerive x x)[1] ≠ 0 ∧ (keyDerive x x)[2] ≠ 0 ∧ (keyDerive x x)[3] ≠ 0) ∧
  (∀ (h h' m m' : Word256) (j : Fin 4), (keyDerive (h ^^^ h') (m ^^^ m'))[j] =
    (keyDerive h m)[j] ^^^ (keyDerive h' m')[j] ^^^ (keyDerive 0 0)[j]) ∧
  keyDerive 0 0 = #v[0, 0, 0xffff00ff0000ff00ff0000ffffffff00000000ff00ffff0000ff00ffff00ff00#256,
    0xffffff00ff0000ffffff0000ffffffffff000000ff00ffffff00ff00ffff00ff#256]

/-- R150: every lane of ψ, its form as a shift with feedback, its corner cases and its worked example. -/
def Obligations.PsiLanes : Prop :=
  (∀ y : Word256, (∀ i < 15, laneOf (psi y) i = laneOf y (i + 1)) ∧
    laneOf (psi y) 15 =
      laneOf y 0 ^^^ laneOf y 1 ^^^ laneOf y 2 ^^^ laneOf y 3 ^^^ laneOf y 12 ^^^ laneOf y 15) ∧
  (∀ y : Word256, psi y = (y >>> 16) ||| ((psiFeedback y).zeroExtend 256 <<< 240)) ∧ psi 0 = 0 ∧
  (∀ y : Word256, (∀ i < 16, i ≠ 0 → laneOf y i = 0) →
    laneOf (psi y) 15 = laneOf y 0 ∧ ∀ i < 15, laneOf (psi y) i = 0) ∧
  ((∀ i < 15, laneOf (psi (BitVec.allOnes 256)) i = 0xffff#16) ∧ laneOf (psi (BitVec.allOnes 256)) 15 = 0) ∧
  psi 0x0123456789abcdeffedcba987654321000112233445566778899aabbccddeeff#256 =
    0xcccc0123456789abcdeffedcba987654321000112233445566778899aabbccdd#256

/-- ψ^n is linear, ψ is inverted by ψ⁻¹ on both sides, and bit b of the output lanes depends on bit b of the input lanes
only (three of R153's four properties). -/
def Obligations.PsiLinearInvertibleBitwise : Prop :=
  (∀ (n : Nat) (x y : Word256), psiIter n (x ^^^ y) = psiIter n x ^^^ psiIter n y) ∧
  (∀ y : Word256, psiInv (psi y) = y ∧ psi (psiInv y) = y) ∧
  (∀ (b : Nat) (x y : Word256), b < 16 →
    (∀ i < 16, (laneOf x i).getLsbD b = (laneOf y i).getLsbD b) →
    ∀ i < 16, (laneOf (psi x) i).getLsbD b = (laneOf (psi y) i).getLsbD b)

/-- Stage 2 (R172): word i−1 of S is the encryption of word i−1 of H under K_i. -/
def Obligations.EncryptionPairsWordsWithKeys : Prop :=
  ∀ (enc : Word256 → Word64 → Word64) (k : Vector Word256 4) (h : Word256) (i : Fin 4),
    wordOf (encryption enc k h) i = enc k[i] (wordOf h i)

/-- R173: the mixing formula, its linear form in the triple (S, M, H), and the worked example. -/
def Obligations.MixingIsLinear : Prop :=
  (∀ h m s : Word256, mixing h m s = psiIter 61 (h ^^^ psi (m ^^^ psiIter 12 s)) ∧
    mixing h m s = psiIter 61 h ^^^ psiIter 62 m ^^^ psiIter 74 s) ∧
  mixing 0 0 0xa29c74d366b0b7f62e12357c87b6100212610be2a6c2fdc912610be2a6c2fdc9#256 =
    0x105439c35bf5f207fcdb83ce13a96d220af2571c05e64ec939b19a9749e68252#256

/-- R190: ChecksumAdd adds modulo 2^256; its corner cases and worked example. -/
def Obligations.ChecksumAddWraps : Prop :=
  (∀ sigma b : Word256, (checksumAdd sigma b).toNat = (sigma.toNat + b.toNat) % 2 ^ 256) ∧
  checksumAdd (BitVec.allOnes 256) 1 = 0 ∧ (∀ sigma : Word256, checksumAdd sigma 0 = sigma) ∧
  (∀ (sigma : Word256) (bs cs : List Word256), bs.Perm cs →
    bs.foldl checksumAdd sigma = cs.foldl checksumAdd sigma) ∧
  (List.replicate 3 (leInt (List.replicate 32 0x55))).foldl checksumAdd 0 = BitVec.allOnes 256 ∧
  (List.replicate 4 (leInt (List.replicate 32 0x55))).foldl checksumAdd 0 =
    0x5555555555555555555555555555555555555555555555555555555555555554#256

/-- R195: the tail block of c pending bytes, 1 ≤ c ≤ 31: its bytes, its bound, no use of the bytes above PB_COUNT, and
the worked example. -/
def Obligations.TailBlockPadsTheHighEnd : Prop :=
  (∀ bytes : List Byte, 1 ≤ bytes.length → bytes.length ≤ 31 →
    tailBlock bytes = leInt (bytes ++ zeros (32 - bytes.length)) ∧
    (∀ j < 32, byteOf (tailBlock bytes) j = if j < bytes.length then bytes.getD j 0 else 0) ∧
    (tailBlock bytes).toNat < 2 ^ 248) ∧
  (∀ s t : State, s.pbCount = t.pbCount → (∀ k < 32, k < s.pbCount.toNat → s.pb[k]? = t.pb[k]?) →
    tailBlock s.pending = tailBlock t.pending) ∧
  tailBlock [0x61, 0x62, 0x63] = 0x636261#256

/-- The conversions of 00_scope.md R8 fit together: `LEint` and `LEbytes_32` are inverse on 32 bytes, `BEbytes_32` is
the reverse of `LEbytes_32`, and byte j of a block is its j-th message byte (20_memory.md R53). -/
def Obligations.ByteConversionsRoundTrip : Prop :=
  (∀ v : Word256, leInt (leBytes32 v) = v ∧ beBytes32 v = (leBytes32 v).reverse) ∧
  (∀ bs : List Byte, bs.length = 32 → leBytes32 (leInt bs) = bs ∧ ∀ j < 32, byteOf (leInt bs) j = bs.getD j 0)

/-- The layout of the `status` word (R31), exact while BUSY = 0; BUSY and the reserved bits are exact always, and reading
the port has no side effect. That bits 15:1 are one free value while BUSY = 1 is the MODEL'S CHOICE (log 13): R31 and R296
leave them unspecified. -/
def Obligations.StatusWordLayout : Prop :=
  (∀ s : State,
    (statusPort s).extractLsb' 0 1 = BitVec.ofBool s.busy ∧ (statusPort s).extractLsb' 16 16 = 0 ∧
    (s.busy = false →
      (statusPort s).extractLsb' 1 2 = s.mode.code ∧ (statusPort s).extractLsb' 3 3 = s.err.code ∧
      (statusPort s).extractLsb' 6 5 = s.pbCount ∧ (statusPort s).extractLsb' 11 1 = BitVec.ofBool s.digestValid ∧
      (statusPort s).extractLsb' 12 4 = s.sboxSel) ∧
    (s.busy = true → (statusPort s).extractLsb' 1 15 = Config.busyStatus s.draws)) ∧
  (∀ (s : State) (rest : List HostAction), s.busy = false → s.host = .readStatus :: rest →
    step s = .next { s with host := rest })

/-- R234: the six known-answer vectors of the source, under the reference cipher with the default table. -/
def Obligations.KnownAnswers : Prop :=
  digestWith (encryptReference 0) [] =
    0x8d0f49492c91f45a68ff5c05d2c2b4ab78027b9aab5ce3feff5267c49cb985ce#256 ∧
  digestWith (encryptReference 0) [0x61] =
    0xdd14f362cefd49f873a5c644431b87219c3449661f808ac8e9667c369e532cd4#256 ∧
  digestWith (encryptReference 0) [0x61, 0x62, 0x63] =
    0x1dd5a4067c49703b75bc75c9290f5ecbb5eb85229e7277a2b2b14fc4484313f3#256 ∧
  digestWith (encryptReference 0)
      [0x6d, 0x65, 0x73, 0x73, 0x61, 0x67, 0x65, 0x20, 0x64, 0x69, 0x67, 0x65, 0x73, 0x74] =
    0x4d9a88a416de2fdb72de483f27652b5869243dec59be0cb6992c8fb1ec3444ad#256 ∧
  digestWith (encryptReference 0) (List.replicate 128 0x55) =
    0xa43357fee8a926d9522a06870a66251c553e2774a0851d0cef0c1825eda3a353#256 ∧
  digestWith (encryptReference 0)
      [0x54, 0x68, 0x65, 0x20, 0x71, 0x75, 0x69, 0x63, 0x6b, 0x20, 0x62, 0x72, 0x6f, 0x77, 0x6e, 0x20,
       0x66, 0x6f, 0x78, 0x20, 0x6a, 0x75, 0x6d, 0x70, 0x73, 0x20, 0x6f, 0x76, 0x65, 0x72, 0x20, 0x74,
       0x68, 0x65, 0x20, 0x6c, 0x61, 0x7a, 0x79, 0x20, 0x64, 0x6f, 0x67] =
    0x94421f6d370fa1d16ba7ac5e31296529c968047dca9bf4258ac59a0c41fab777#256

/-! ## The message and its digest -/

/-- R198: with MODE ≠ UNCONFIGURED the registers hold what the rule says of the message written since the last CONSTRUCT
or RESET; every command keeps this. -/
def Obligations.RegistersTrackTheMessage : Prop :=
  ∀ (i : Instr) (s t : State) (m : List Byte),
    (s.mode ≠ .unconfigured → Tracks m s) → exec i s = .next t → t.mode ≠ .unconfigured →
    Tracks (messageAfter i s m) t ∧
      t.l + BitVec.ofNat 256 (8 * t.pbCount.toNat) = BitVec.ofNat 256 (8 * (messageAfter i s m).length)

/-- R226: a SUM that completes with MODE ≠ UNCONFIGURED leaves DIGEST = Digest(SBOX_SEL, m), and the length its
finalisation folds in is 8·|m| mod 2^256. -/
def Obligations.SumGivesTheDigestOfTheMessage : Prop :=
  ∀ (s : State) (m : List Byte), s.mode ≠ .unconfigured → Tracks m s →
    exec .sum s = .next { s with digest := digestOf s.sboxSel m, digestValid := true, err := .ok } ∧
    lengthAddTail s.l s.pbCount.toNat = BitVec.ofNat 256 (8 * m.length)

/-- From an unconfigured engine, CONSTRUCT, any WRITEs and SUM complete, and DIGEST is the digest of the bytes written:
the same for every engine constructed with that SEL and every split of the message (R226, R228, R230). -/
def Obligations.SessionDigest : Prop :=
  ∀ (sel : BitVec 4) (ws : List (BitVec 4 × Word64)) (s : State),
    s.mode = .unconfigured → sel.toNat < 2 → (∀ w ∈ ws, w.1.toNat ≤ 8) →
    ∃ t, runAll (.construct sel :: writes ws ++ [.sum]) s = .next t ∧
      t.digest = digestOf sel (carried ws) ∧ t.digestValid = true ∧ t.err = .ok

/-- R199 and R230: any two sequences of WRITEs that carry the same bytes leave the same H, SIGMA, L, PB_COUNT and
pending bytes, and the same DIGEST after SUM. -/
def Obligations.ChunkingInvariance : Prop :=
  ∀ (ws vs : List (BitVec 4 × Word64)) (s : State) (m : List Byte),
    s.mode ≠ .unconfigured → Tracks m s → (∀ w ∈ ws, w.1.toNat ≤ 8) → (∀ v ∈ vs, v.1.toNat ≤ 8) →
    carried ws = carried vs →
    ∃ t u t' u', runAll (writes ws) s = .next t ∧ runAll (writes vs) s = .next u ∧
      t.h = u.h ∧ t.sigma = u.sigma ∧ t.l = u.l ∧ t.pbCount = u.pbCount ∧ t.pending = u.pending ∧
      exec .sum t = .next t' ∧ exec .sum u = .next u' ∧ t'.digest = u'.digest

/-- No command reads the PB bytes above PB_COUNT, a DIGEST that is not valid, or the hidden state (R26, R28, R33): states
that differ only there stay so under every command word, and show the same observations. -/
def Obligations.UnreadStateStaysUnread : Prop :=
  ∀ (w : Word32) (d : Word64) (s t : State), Indistinguishable s t →
    ∃ s' t', execute w d s = .next s' ∧ execute w d t = .next t' ∧ Indistinguishable s' t' ∧
      (s.busy = false → observe s' = observe t')

/-- R232: an engine after RESET and a fresh engine constructed with the same SEL cannot be told apart, now or after any
further commands. -/
def Obligations.ResetEquivalentToFresh : Prop :=
  ∀ s f : State, s.mode ≠ .unconfigured → s.sboxSel.toNat < 2 → f.mode = .unconfigured → s.busy = f.busy →
    ∃ s' f', exec .reset s = .next s' ∧ exec (.construct s.sboxSel) f = .next f' ∧ Indistinguishable s' f' ∧
      ∀ is : List Instr, ∃ s'' f'', runAll is s' = .next s'' ∧ runAll is f' = .next f'' ∧ Indistinguishable s'' f''

/-- R229: a SUM changes only DIGEST, DIGEST_VALID and ERR, so it leaves every later command with the same effect as
without it: the same registers, and the same state altogether after a later SUM. -/
def Obligations.SumIsTransparent : Prop :=
  ∀ s t : State, exec .sum s = .next t →
    t = { s with digest := t.digest, digestValid := t.digestValid, err := t.err } ∧
    ∀ is : List Instr, ∃ s' t', runAll is s = .next s' ∧ runAll is t = .next t' ∧
      t' = { s' with digest := t'.digest, digestValid := t'.digestValid, err := t'.err } ∧
      (is ≠ [] → t'.err = s'.err) ∧ (∀ before, is = before ++ [.sum] → t' = s')

/-- SUM after SUM leaves the same state, further SUMs and failed commands between them included (45_digest_engine.md
R231); and RESET after RESET changes nothing (20_memory.md R58). -/
def Obligations.SumAndResetAreIdempotent : Prop :=
  (∀ s t : State, s.mode ≠ .unconfigured → exec .sum s = .next t →
    ∀ between : List Instr, (∀ i ∈ between, i = .sum ∨ commandError i t ≠ none) →
      runAll (between ++ [.sum]) t = .next t) ∧
  (∀ s t : State, s.mode ≠ .unconfigured → exec .reset s = .next t → exec .reset t = .next t)

/-! ## Invariants -/

/-- The invariant of the registers holds at reset. -/
def Obligations.ResetMeetsTheInvariant : Prop := State.reset.Inv

/-- Every step keeps the invariant of the registers: SBOX_SEL names an existing set once bound, EMPTY means cleared
accumulators, L counts whole blocks, and a valid DIGEST is the digest SUM would compute now (R21, R22, R25, R28). -/
def Obligations.StepKeepsTheInvariant : Prop :=
  ∀ s t : State, s.Inv → step s = .next t → t.Inv

/-! ## Power-on reset -/

/-- R290: at every edge with `rst_n = 0` the registers take their power-on values whatever the state, the hidden state is
discarded, `cip_req_valid` and `cmd_ready` are 0, and a longer reset changes nothing further: at the edge and after it,
for every timing of the block. -/
def Obligations.PowerOnResetEdge : Prop :=
  ∀ (T : Timing) (e : EdgeIn) (s : State), e.rstN = false → breaksHold e s = false → e.readsDigest = false →
    cmdReady e s = false ∧ cipherOffer T e s = none ∧
    ∃ t, edge T e s = .next t ∧ t.mode = .unconfigured ∧ t.sboxSel = 0 ∧ t.pbCount = 0 ∧ t.digestValid = false ∧
      t.err = .ok ∧ t.busy = false ∧ t.flight = Flight.none ∧ (∀ e', cipherOffer T e' t = none) ∧
      (∀ e' t', e'.rstN = false → edge T e' t = .next t' → t'.toArch = t.toArch)

/-- A reset during a command abandons it (R292): what the registers become does not depend on the command, on how far it
had come, or on the registers before it. For H, SIGMA, L, PB and DIGEST, which R37 leaves unspecified after reset, that is
the MODEL'S CHOICE: they are free values of the index `draws` alone (logs 4 and 19), whence the premise that it is equal. -/
def Obligations.ResetAbandonsACommand : Prop :=
  ∀ (T : Timing) (e : EdgeIn) (s u t v : State), e.rstN = false → s.draws = u.draws →
    edge T e s = .next t → edge T e u = .next v → t.toArch = v.toArch ∧ t.flight = v.flight

/-- The state after reset has the power-on value of every register that has one (R37); the values of the others there
are the model's choice (log 3) and are not stated. -/
def Obligations.ResetStateHasPowerOnValues : Prop :=
  let s := State.reset
  s.mode = .unconfigured ∧ s.sboxSel = 0 ∧ s.pbCount = 0 ∧ s.digestValid = false ∧ s.err = .ok ∧ s.busy = false ∧
    statusPort s = 0

/-! ## The port view -/

/-- R60 and R61: a command is accepted at an edge with `cmd_valid = 1` and `cmd_ready = 1`; word and data are latched,
BUSY rises, and no other register of the architectural state changes; with `cmd_valid = 0` none changes at all. -/
def Obligations.AcceptingEdgeLatchesTheCommand : Prop :=
  ∀ (T : Timing) (e : EdgeIn) (s t : State), s.busy = false → e.rstN = true → edge T e s = .next t →
    (e.cmdValid = true → t.toArch = { s.toArch with busy := true } ∧ t.flight.word = e.cmdWord ∧
      t.flight.data = e.cmdData ∧ t.flight.phase = .start) ∧
    (e.cmdValid = false → t.toArch = s.toArch)

/-- R62: while a command is in progress no register of the architectural state changes, until the edge that completes
it. -/
def Obligations.NoWriteVisibleBeforeCompletion : Prop :=
  ∀ (T : Timing) (e : EdgeIn) (s t : State), s.busy = true → e.rstN = true → edge T e s = .next t → t.busy = true →
    t.toArch = s.toArch

/-- The port view refines the transaction view (R62): whatever the timing and the latencies, a command accepted at an
edge and run to its completion, the cipher keeping its contract, leaves the architectural state that R221's Execute
gives as one atomic transition. -/
def Obligations.PortRunRefinesAtomicCommand : Prop :=
  ∀ (T : Timing) (a : EdgeIn) (es : List EdgeIn) (s s₁ t : State),
    s.busy = false → a.rstN = true → a.cmdValid = true → edge T a s = .next s₁ → CommandRun T es s₁ t →
    ∃ u, execute a.cmdWord a.cmdData { s with draws := s.draws + 1 } = .next u ∧ t.toArch = u.toArch

/-- R114: a request on the port stays there, with its three fields, until an edge with `cip_req_ready = 1`; there it
transfers and is outstanding, and `cip_req_valid` is 0 after it, unless the response has come and the next request is
offered. -/
def Obligations.CipherRequestHeldUntilTaken : Prop :=
  ∀ (T : Timing) (e : EdgeIn) (s t : State) (r : CipherRequest),
    cipherOffer T e s = some r → e.rstN = true → edge T e s = .next t →
    (e.cipReqReady = false →
      cipherOutstanding t = none ∧ ∀ e' : EdgeIn, e'.rstN = true → cipherOffer T e' t = some r) ∧
    (e.cipReqReady = true →
      cipherOutstanding t = some r ∧ ∀ e' : EdgeIn, e'.cipRspValid = false → cipherOffer T e' t = none)

/-- R118: a response while no request is outstanding changes no state. -/
def Obligations.StrayResponseIgnored : Prop :=
  ∀ (T : Timing) (e : EdgeIn) (s : State) (v : Bool) (b : Word64), cipherOutstanding s = none →
    edge T { e with cipRspValid := v, cipRspBlock := b } s = edge T e s

/-- Every request carries `(SBOX_SEL, K_i, word_{i−1}(H))` of the Step it belongs to, K_i being KeyDerive's key (R113,
R116, R134, R175), by an invariant of the key unit that every edge keeps. The invariant is of the MODEL'S SCHEDULE (log
10): all four keys are made before the first request, while R175 also allows key generation beside the encryptions. -/
def Obligations.RequestsCarryDerivedKeys : Prop :=
  (∀ (T : Timing) (e : EdgeIn) (s t : State), KeysRight s → edge T e s = .next t → KeysRight t) ∧
  (∀ (T : Timing) (e : EdgeIn) (s : State) (r : CipherRequest), KeysRight s → cipherOffer T e s = some r →
    let c := cycle T e s
    c.toArch = s.toArch ∧ ∃ i : Fin 4, c.flight.phase = .offer i ∧
      r = ⟨s.sboxSel, (keyDerive c.flight.hs c.flight.m)[i], wordOf c.flight.hs i⟩)

/-- The engine issues no cipher request while MODE = UNCONFIGURED (R116): the invariant behind it is kept at every edge
and holds when no command is in progress. -/
def Obligations.NoRequestWhileUnconfigured : Prop :=
  (∀ (T : Timing) (e : EdgeIn) (s t : State), StepsOnlyConfigured s → edge T e s = .next t → StepsOnlyConfigured t) ∧
  (∀ s : State, s.busy = false → StepsOnlyConfigured s) ∧
  (∀ (T : Timing) (e : EdgeIn) (s : State), StepsOnlyConfigured s → s.mode = .unconfigured →
    cipherOffer T e s = none ∧ cipherOutstanding s = none)

/-- R176: the Steps of a command, as the table has them, and its cipher requests, four for each Step; a command that
fails and an illegal word run none. -/
def Obligations.RequestsPerCommand : Prop :=
  ∀ (T : Timing) (a : EdgeIn) (es : List EdgeIn) (s s₁ t : State),
    s.busy = false → a.rstN = true → a.cmdValid = true → edge T a s = .next s₁ → CommandRun T es s₁ t →
    transfers T es s₁ =
      match decode a.cmdWord a.cmdData with
      | .error _ => 0
      | .ok i =>
        if commandError i s = none then
          match i with
          | .construct _ => 0
          | .write n _ => if 32 ≤ s.pbCount.toNat + n.toNat then 4 * 1 else 0
          | .sum => if s.pbCount = 0 then 4 * 2 else 4 * 3
          | .reset => 0
        else 0

/-- An accepted command takes at most 25 productive edges (R176, R299): the transfer of a request, its response, and the
completion. Every productive edge brings it nearer to completion and no edge takes it back; and an edge of a command in
progress that is not productive is one at which the block rests, its request is not taken, or the response awaited does
not come. -/
def Obligations.ProductiveEdgesBound : Prop :=
  (∀ (T : Timing) (e : EdgeIn) (s t : State), s.busy = true → e.rstN = true → edge T e s = .next t → t.busy = true →
    workLeft t + (if Productive T e s then 1 else 0) ≤ workLeft s) ∧
  (∀ (T : Timing) (e : EdgeIn) (s : State), s.busy = true → e.rstN = true → Productive T e s = false →
    rested T (cycle T e s) = false ∨ (cipherOffer T e s ≠ none ∧ e.cipReqReady = false) ∨
      (cipherOutstanding s ≠ none ∧ e.cipRspValid = false)) ∧
  (∀ (T : Timing) (a : EdgeIn) (es : List EdgeIn) (s s₁ : State), s.busy = false → a.rstN = true →
    a.cmdValid = true → edge T a s = .next s₁ → (∀ e ∈ es, e.rstN = true) → productiveCount T es s₁ ≤ 25)

/-- LAT_CMD is finite whenever the cipher answers (R299, R117), whatever the timing of the block: an accepted command has
a run to its completion; and a command in progress completes on every endless sequence of edges with `rst_n = 1` on which
each request on the port is taken at some later edge and each outstanding request gets a response at some later edge. -/
def Obligations.EveryAcceptedCommandCanComplete : Prop :=
  (∀ (T : Timing) (a : EdgeIn) (s s₁ : State),
    s.busy = false → a.rstN = true → a.cmdValid = true → edge T a s = .next s₁ →
    ∃ es t, CommandRun T es s₁ t ∧ 1 ≤ es.length) ∧
  (∀ (T : Timing) (e : Nat → EdgeIn) (st : Nat → State),
    (∀ n, (e n).rstN = true ∧ edge T (e n) (st n) = .next (st (n + 1))) →
    (∀ n, cipherOffer T (e n) (st n) ≠ none → ∃ m, n ≤ m ∧ (e m).cipReqReady = true) →
    (∀ n, cipherOutstanding (st n) ≠ none → ∃ m, n ≤ m ∧ (e m).cipRspValid = true) →
    ∃ n, (st n).busy = false)

/-- R299's lower bound: a command that runs c Steps takes at least 1 and at least 4·c·LAT_CIPHER cycles from its
accepting edge to its completing edge, whatever the timing of the block. -/
def Obligations.LatencyLowerBound : Prop :=
  ∀ (T : Timing) (lat : Nat) (a : EdgeIn) (es : List EdgeIn) (s s₁ t : State) (i : Instr), 1 ≤ lat →
    s.busy = false → a.rstN = true → a.cmdValid = true → edge T a s = .next s₁ → CommandRun T es s₁ t →
    ResponseDelays (lat ≤ ·) T es s₁ → decode a.cmdWord a.cmdData = .ok i → commandError i s = none →
    1 ≤ es.length ∧ 4 * stepCount i s * lat ≤ es.length

/-- LAT_CMD is an argument (R299, R300): for every LAT_CIPHER of at least 1 and every number `n` of cycles from 1 on, and
from 4·s·LAT_CIPHER + 1 on with s Steps, there is a timing of the block with which a command offered to an idle block is
accepted and completes after exactly `n` cycles, each response coming exactly LAT_CIPHER cycles after its request was
taken. The 1 beside 4·s·LAT_CIPHER is the MODEL'S INFERENCE from R30, R60 and R116 (log 18): the accepting edge itself
takes no request. -/
def Obligations.EveryLatencyHasARun : Prop :=
  ∀ (lat n : Nat) (a : EdgeIn) (s : State), 1 ≤ lat → s.busy = false → a.rstN = true → a.cmdValid = true →
    breaksHold a s = false → a.readsDigest = false → 4 * (shapeOf a.cmdWord a.cmdData s).steps * lat + 1 ≤ n →
    ∃ T s₁ es t, edge T a s = .next s₁ ∧ CommandRun T es s₁ t ∧ ResponseDelays (· = lat) T es s₁ ∧ es.length = n

/-- The time of a command depends on what R301 lists and on nothing else. While commands are in progress, equal control
states under equal handshakes stay equal, and complete together. Two accepted commands of one shape take the same number
of cycles if the cipher takes requests and answers in the same cycles of each, whatever the message bytes, H, SIGMA, L,
SBOX_SEL, the keys and the answers. And the shape is made of the opcode, the outcome, N for a WRITE, and the Steps, which
PB_COUNT decides; a WRITE's data operand is no part of it. -/
def Obligations.TimingIndependentOfData : Prop :=
  (∀ (T : Timing) (e f : EdgeIn) (s t s' t' : State), s.busy = true → e.sameHandshake f = true →
    s.control = t.control → edge T e s = .next s' → edge T f t = .next t' → s'.control = t'.control) ∧
  (∀ (T : Timing) (a b : EdgeIn) (es fs : List EdgeIn) (s t s₁ t₁ s₂ t₂ : State),
    s.busy = false → a.rstN = true → a.cmdValid = true → edge T a s = .next s₁ → CommandRun T es s₁ s₂ →
    t.busy = false → b.rstN = true → b.cmdValid = true → edge T b t = .next t₁ → CommandRun T fs t₁ t₂ →
    shapeOf a.cmdWord a.cmdData s = shapeOf b.cmdWord b.cmdData t →
    (∀ (k : Nat) (e f : EdgeIn), es[k]? = some e → fs[k]? = some f → e.sameHandshake f = true) →
    es.length = fs.length) ∧
  (∀ (w : Word32) (d d' : Word64) (s : State),
    shapeOf w d s = shapeOf w d' s ∧ (shapeOf w d s).op = fieldOp w ∧
    ((shapeOf w d s).outcome ≠ .ok → (shapeOf w d s).steps = 0) ∧
    ((shapeOf w d s).outcome = .ok → (fieldOp w = 1 ∨ fieldOp w = 4) → (shapeOf w d s).steps = 0) ∧
    ((shapeOf w d s).outcome = .ok → fieldOp w = 2 →
      (shapeOf w d s).steps = if 32 ≤ s.pbCount.toNat + (fieldN w).toNat then 1 else 0) ∧
    ((shapeOf w d s).outcome = .ok → fieldOp w = 3 → (shapeOf w d s).steps = if s.pbCount = 0 then 2 else 3) ∧
    (fieldOp w ≠ 2 → (shapeOf w d s).n = 0))

/-- The two faults of the port view, and no other: a changed offer (R60, R265), and a read of `digest` while
DIGEST_VALID = 0 or BUSY = 1 (R265, R297). The MODEL'S CHOICES in the exact conditions: only a change of an offer that is
still valid breaks the hold, and an offer is held during reset too (log 12); a read is judged by the state before the edge
(log 14); and of two faults at one edge the changed offer is the one that is named (log 12). -/
def Obligations.ProtocolFaults : Prop :=
  ∀ (T : Timing) (e : EdgeIn) (s : State),
    (edge T e s = .fault .heldCommandChanged ↔
      ∃ w d, s.held = some (w, d) ∧ e.cmdValid = true ∧ (w ≠ e.cmdWord ∨ d ≠ e.cmdData)) ∧
    (edge T e s = .fault .digestReadNotValid ↔
      breaksHold e s = false ∧ e.readsDigest = true ∧ (s.digestValid = false ∨ s.busy = true)) ∧
    (∀ t, edge T e s = .next t → (t.held = some (e.cmdWord, e.cmdData) ↔ e.cmdValid = true ∧ cmdReady e s = false))

/-! ## The assembler -/

/-- R91: `write.bytes` expands to WRITEs of at most 8 bytes that carry exactly the given bytes in order, as many as
⌈|m|/8⌉ (R83), and the worked examples assemble to the spec's words. -/
def Obligations.AssemblerCarriesTheBytes : Prop :=
  (∀ bytes : List Byte, ∃ ws : List (BitVec 4 × Word64), writeAll bytes = writes ws ∧ carried ws = bytes ∧
    (∀ w ∈ ws, w.1.toNat ≤ 8) ∧ ws.length = (bytes.length + 7) / 8) ∧
  assemble "write.str \"The quick\"" =
    some [(0x00000082#32, 0x6369757120656854#64), (0x00000012#32, 0x000000000000006b#64)] ∧
  assemble "construct cryptopro ; bind the alternate set" = some [(0x00000101#32, 0)] ∧
  assemble "digest.str \"abc\"" = some [(0x00000004#32, 0), (0x00000032#32, 0x636261#64), (0x00000003#32, 0)]
end

