-- ==== Sys2Proof/Laws/Bytes.lean ====
section
/-! SUPPORT. The views of a u256 and the little-endian conversions: bits of a view, extensionality of each view, xor
through each view, and the bytes of `leInt`. -/

namespace Sys2Proof.Machine

theorem getLsbD_byteOf (v : Word256) (j k : Nat) : (byteOf v j).getLsbD k = (decide (k < 8) && v.getLsbD (8 * j + k)) := by
  simp [byteOf]

theorem getLsbD_wordOf (v : Word256) (i k : Nat) : (wordOf v i).getLsbD k = (decide (k < 64) && v.getLsbD (64 * i + k)) := by
  simp [wordOf]

theorem getLsbD_laneOf (v : Word256) (i k : Nat) : (laneOf v i).getLsbD k = (decide (k < 16) && v.getLsbD (16 * i + k)) := by
  simp [laneOf]

/-- Two u256 values with the same 32 bytes are equal. -/
theorem byteOf_ext {a b : Word256} (h : ∀ j < 32, byteOf a j = byteOf b j) : a = b := by
  apply BitVec.eq_of_getLsbD_eq
  intro k hk
  have := congrArg (BitVec.getLsbD · (k % 8)) (h (k / 8) (by omega))
  have hlt : k % 8 < 8 := Nat.mod_lt _ (by decide)
  simpa only [getLsbD_byteOf, hlt, decide_true, Bool.true_and, Nat.div_add_mod] using this

/-- Two u256 values with the same four words are equal. -/
theorem wordOf_ext {a b : Word256} (h : ∀ i < 4, wordOf a i = wordOf b i) : a = b := by
  apply BitVec.eq_of_getLsbD_eq
  intro k hk
  have := congrArg (BitVec.getLsbD · (k % 64)) (h (k / 64) (by omega))
  have hlt : k % 64 < 64 := Nat.mod_lt _ (by decide)
  simpa only [getLsbD_wordOf, hlt, decide_true, Bool.true_and, Nat.div_add_mod] using this

/-- Two u256 values with the same sixteen lanes are equal. -/
theorem laneOf_ext {a b : Word256} (h : ∀ i < 16, laneOf a i = laneOf b i) : a = b := by
  apply BitVec.eq_of_getLsbD_eq
  intro k hk
  have := congrArg (BitVec.getLsbD · (k % 16)) (h (k / 16) (by omega))
  have hlt : k % 16 < 16 := Nat.mod_lt _ (by decide)
  simpa only [getLsbD_laneOf, hlt, decide_true, Bool.true_and, Nat.div_add_mod] using this

@[simp] theorem byteOf_xor (a b : Word256) (j : Nat) : byteOf (a ^^^ b) j = byteOf a j ^^^ byteOf b j := by
  simp [byteOf, BitVec.extractLsb'_xor]

@[simp] theorem wordOf_xor (a b : Word256) (i : Nat) : wordOf (a ^^^ b) i = wordOf a i ^^^ wordOf b i := by
  simp [wordOf, BitVec.extractLsb'_xor]

@[simp] theorem laneOf_xor (a b : Word256) (i : Nat) : laneOf (a ^^^ b) i = laneOf a i ^^^ laneOf b i := by
  simp [laneOf, BitVec.extractLsb'_xor]

@[simp] theorem byteOf_zero (j : Nat) : byteOf 0 j = 0 := by simp [byteOf]

@[simp] theorem wordOf_zero (j : Nat) : wordOf 0 j = 0 := by simp [wordOf]

@[simp] theorem laneOf_zero (j : Nat) : laneOf 0 j = 0 := by simp [laneOf]

/-- The words of a joined u256. -/
theorem wordOf_joinWords (w3 w2 w1 w0 : Word64) :
    wordOf (joinWords w3 w2 w1 w0) 0 = w0 ∧ wordOf (joinWords w3 w2 w1 w0) 1 = w1 ∧
      wordOf (joinWords w3 w2 w1 w0) 2 = w2 ∧ wordOf (joinWords w3 w2 w1 w0) 3 = w3 := by
  refine ⟨?_, ?_, ?_, ?_⟩ <;> apply BitVec.eq_of_getLsbD_eq <;> intro k hk <;>
    simp only [getLsbD_wordOf, joinWords, BitVec.getLsbD_append, hk, decide_true, Bool.true_and]
  · simp [hk]
  · have h1 : ¬ 64 * 1 + k < 64 := by omega
    have h2 : 64 * 1 + k - 64 = k := by omega
    simp only [h1, h2, hk, if_true, if_false]
  · have h1 : ¬ 64 * 2 + k < 64 := by omega
    have h2 : ¬ 64 * 2 + k - 64 < 64 := by omega
    have h3 : 64 * 2 + k - 64 - 64 = k := by omega
    simp only [h1, h2, h3, hk, if_true, if_false]
  · have h1 : ¬ 64 * 3 + k < 64 := by omega
    have h2 : ¬ 64 * 3 + k - 64 < 64 := by omega
    have h3 : ¬ 64 * 3 + k - 64 - 64 < 64 := by omega
    have h4 : 64 * 3 + k - 64 - 64 - 64 = k := by omega
    simp only [h1, h2, h3, h4, if_false]

@[simp] theorem wordOf_joinWords_zero (w3 w2 w1 w0 : Word64) : wordOf (joinWords w3 w2 w1 w0) 0 = w0 :=
  (wordOf_joinWords w3 w2 w1 w0).1

@[simp] theorem wordOf_joinWords_one (w3 w2 w1 w0 : Word64) : wordOf (joinWords w3 w2 w1 w0) 1 = w1 :=
  (wordOf_joinWords w3 w2 w1 w0).2.1

@[simp] theorem wordOf_joinWords_two (w3 w2 w1 w0 : Word64) : wordOf (joinWords w3 w2 w1 w0) 2 = w2 :=
  (wordOf_joinWords w3 w2 w1 w0).2.2.1

@[simp] theorem wordOf_joinWords_three (w3 w2 w1 w0 : Word64) : wordOf (joinWords w3 w2 w1 w0) 3 = w3 :=
  (wordOf_joinWords w3 w2 w1 w0).2.2.2

theorem leNat_lt (bs : List Byte) : leNat bs < 256 ^ bs.length := by
  induction bs with
  | nil => simp [leNat]
  | cons b bs ih =>
    have := b.isLt
    simp only [leNat, List.length_cons, Nat.pow_succ]
    omega

theorem leNat_append (as bs : List Byte) : leNat (as ++ bs) = leNat as + 256 ^ as.length * leNat bs := by
  induction as with
  | nil => simp [leNat]
  | cons a as ih =>
    simp only [List.cons_append, leNat, ih, List.length_cons, Nat.pow_succ, Nat.mul_add]
    ring

@[simp] theorem leNat_zeros (n : Nat) : leNat (zeros n) = 0 := by
  induction n with
  | zero => rfl
  | succ n ih => simpa [zeros, List.replicate_succ, leNat] using ih

/-- Digit j of `leNat` in base 256 is byte j. -/
theorem leNat_digit (bs : List Byte) (j : Nat) : leNat bs / 256 ^ j % 256 = (bs.getD j 0).toNat := by
  induction bs generalizing j with
  | nil => simp [leNat]
  | cons b bs ih =>
    have hb := b.isLt
    cases j with
    | zero => simp [leNat]; omega
    | succ j =>
      have : leNat (b :: bs) / 256 ^ (j + 1) = leNat bs / 256 ^ j := by
        rw [Nat.pow_succ', ← Nat.div_div_eq_div_mul]
        congr 1
        simp only [leNat]; omega
      rw [this, ih]; simp

/-- Byte j of `leInt bs` is `bs[j]`, and 0 past the end (20_memory.md R53: `byte_j(B) = b[j]`). -/
theorem byteOf_leInt (bs : List Byte) {j : Nat} (hj : j < 32) : byteOf (leInt bs) j = bs.getD j 0 := by
  apply BitVec.eq_of_toNat_eq
  rw [← leNat_digit bs j]
  simp only [byteOf, leInt, BitVec.extractLsb'_toNat, BitVec.toNat_ofNat, Nat.shiftRight_eq_div_pow]
  have h1 : (2 : Nat) ^ (8 * j) = 256 ^ j := by rw [Nat.pow_mul]
  have h2 : (2 : Nat) ^ 256 = 256 ^ j * 256 ^ (32 - j) := by
    rw [← Nat.pow_add, show j + (32 - j) = 32 by omega]; norm_num
  have h3 : (256 : Nat) ^ (32 - j) = 256 * 256 ^ (31 - j) := by
    rw [show 32 - j = (31 - j) + 1 by omega, Nat.pow_succ']
  rw [h1, h2, Nat.mod_mul_right_div_self, h3, Nat.mod_mul_right_mod]

@[simp] theorem dataBytes_length (n : BitVec 4) (d : Word64) : (dataBytes n d).length = n.toNat := by
  simp [dataBytes]

end Sys2Proof.Machine
end

