-- ==== Sys2Proof/Laws/Assembler.lean ====
section
/-! SUPPORT. A chunk of at most 8 bytes survives its WRITE operand, and the chunks of a text join to the text. -/

namespace Sys2Proof.Machine

theorem dataBytes_chunk (c : List Byte) (h : c.length ≤ 8) :
    dataBytes (BitVec.ofNat 4 c.length) (chunkOperand c) = c := by
  have hl : (BitVec.ofNat 4 c.length).toNat = c.length := by simp; omega
  apply List.ext_getElem
  · simp [hl]
  · intro k h1 h2
    simp only [dataBytes, List.getElem_map, List.getElem_range]
    apply BitVec.eq_of_toNat_eq
    have hk : k < 8 := by omega
    have hlt := leNat_lt c
    have h256 : 256 ^ c.length ≤ 256 ^ 8 := Nat.pow_le_pow_right (by decide) h
    have : leNat c < 2 ^ 64 := by
      have : (256 : Nat) ^ 8 = 2 ^ 64 := by norm_num
      omega
    simp only [chunkOperand, BitVec.extractLsb'_toNat, BitVec.toNat_ofNat, Nat.mod_eq_of_lt this,
      Nat.shiftRight_eq_div_pow]
    have := leNat_digit c k
    rw [show (2 : Nat) ^ (8 * k) = 256 ^ k by rw [Nat.pow_mul]]
    rw [show (2 : Nat) ^ 8 = 256 by norm_num, this]
    simp [h2]

theorem chunks_flat (b : List Byte) (q : Nat) (h : 8 * q ≤ b.length) :
    (List.range q).flatMap (fun k => (b.drop (8 * k)).take 8) = b.take (8 * q) := by
  induction q with
  | zero => simp
  | succ q ih =>
    rw [List.range_succ, List.flatMap_append, ih (by omega)]
    simp only [List.flatMap_cons, List.flatMap_nil, List.append_nil]
    rw [show 8 * (q + 1) = 8 * q + 8 by ring, List.take_add]

end Sys2Proof.Machine
end

