-- ==== Sys2Proof/Laws/Encoding.lean ====
section
/-! SUPPORT. The fields of a packed command word, a word from its fields, and what the decoder can answer. -/

namespace Sys2Proof

@[simp] theorem fieldOp_packWord (sel n op : BitVec 4) : fieldOp (packWord sel n op) = op := by
  apply BitVec.eq_of_getLsbD_eq
  intro k hk
  simp only [fieldOp, packWord, BitVec.getLsbD_extractLsb', BitVec.getLsbD_append, hk, decide_true, Bool.true_and]
  simp [hk]

@[simp] theorem fieldN_packWord (sel n op : BitVec 4) : fieldN (packWord sel n op) = n := by
  apply BitVec.eq_of_getLsbD_eq
  intro k hk
  simp only [fieldN, packWord, BitVec.getLsbD_extractLsb', BitVec.getLsbD_append, hk, decide_true, Bool.true_and]
  simp [show ¬ (4 + k < 4) by omega, show 4 + k - 4 = k by omega, hk]

@[simp] theorem fieldSel_packWord (sel n op : BitVec 4) : fieldSel (packWord sel n op) = sel := by
  apply BitVec.eq_of_getLsbD_eq
  intro k hk
  simp only [fieldSel, packWord, BitVec.getLsbD_extractLsb', BitVec.getLsbD_append, hk, decide_true, Bool.true_and]
  simp [show ¬ (8 + k < 4) by omega, show ¬ (8 + k - 4 < 4) by omega, show 8 + k - 4 - 4 = k by omega, hk]

@[simp] theorem fieldRsvd_packWord (sel n op : BitVec 4) : fieldRsvd (packWord sel n op) = 0 := by
  apply BitVec.eq_of_getLsbD_eq
  intro k hk
  simp only [fieldRsvd, packWord, BitVec.getLsbD_extractLsb', BitVec.getLsbD_append, hk, decide_true, Bool.true_and]
  simp [show ¬ (12 + k < 4) by omega, show ¬ (12 + k - 4 < 4) by omega, show ¬ (12 + k - 4 - 4 < 4) by omega]

/-- A word is its four fields (30_encoding.md R80, R81). -/
theorem word_eq_fields (w : Word32) : w = fieldRsvd w ++ fieldSel w ++ fieldN w ++ fieldOp w := by
  apply BitVec.eq_of_getLsbD_eq
  intro k hk
  simp only [fieldOp, fieldN, fieldSel, fieldRsvd, BitVec.getLsbD_extractLsb', BitVec.getLsbD_append]
  by_cases h1 : k < 4
  · simp [h1]
  · by_cases h2 : k - 4 < 4
    · simp [h1, h2, show 4 + (k - 4) = k by omega]
    · by_cases h3 : k - 4 - 4 < 4
      · simp [h1, h2, h3, show 8 + (k - 4 - 4) = k by omega]
      · simp [h1, h2, h3, show 12 + (k - 4 - 4 - 4) = k by omega, show k - 4 - 4 - 4 < 20 by omega]

/-- A word with RSVD = 0 is packed from its other fields. -/
theorem packWord_fields {w : Word32} (h : fieldRsvd w = 0) : packWord (fieldSel w) (fieldN w) (fieldOp w) = w := by
  have hw := word_eq_fields w
  rw [h] at hw
  exact hw.symm

/-- The decoder answers a command only for a word packed as R84 says. -/
theorem decode_cases {w : Word32} {d : Word64} {i : Instr} (h : decode w d = .ok i) :
    (∃ sel, i = .construct sel ∧ w = packWord sel 0 1) ∨
    (∃ n, i = .write n d ∧ w = packWord 0 n 2 ∧ n.toNat ≤ 8) ∨
    (i = .sum ∧ w = packWord 0 0 3) ∨ (i = .reset ∧ w = packWord 0 0 4) := by
  unfold decode at h
  split_ifs at h with h1 h2 h3 h4 h5 h6 h7 h8 h9
  · have hw := packWord_fields h2.2
    rw [h2.1, h1] at hw
    exact .inl ⟨_, by injection h with h; exact h.symm, hw.symm⟩
  · have hw := packWord_fields h4.2
    rw [h4.1, h3] at hw
    exact .inr (.inl ⟨_, by injection h with h; exact h.symm, hw.symm, h5⟩)
  · have hw := packWord_fields h7.2.2
    rw [h7.1, h7.2.1, h6] at hw
    exact .inr (.inr (.inl ⟨by injection h with h; exact h.symm, hw.symm⟩))
  · have hw := packWord_fields h9.2.2
    rw [h9.1, h9.2.1, h8] at hw
    exact .inr (.inr (.inr ⟨by injection h with h; exact h.symm, hw.symm⟩))

/-- Two commands that differ in a WRITE's operand at most. -/
def Instr.SameShape (i j : Instr) : Prop :=
  match i, j with
  | .construct a, .construct b => a = b
  | .write n _, .write m _ => n = m
  | .sum, .sum => True
  | .reset, .reset => True
  | _, _ => False

/-- The data operand decides nothing of the decoding (30_encoding.md R82). -/
theorem decode_data (w : Word32) (d d' : Word64) :
    (∃ e, decode w d = .error e ∧ decode w d' = .error e) ∨
      ∃ i j, decode w d = .ok i ∧ decode w d' = .ok j ∧ Instr.SameShape i j := by
  unfold decode
  by_cases h1 : fieldOp w = 1
  · rw [if_pos h1, if_pos h1]
    split
    · exact .inr ⟨_, _, rfl, rfl, rfl⟩
    · exact .inl ⟨_, rfl, rfl⟩
  rw [if_neg h1, if_neg h1]
  by_cases h2 : fieldOp w = 2
  · rw [if_pos h2, if_pos h2]
    split
    · split
      · exact .inr ⟨_, _, rfl, rfl, rfl⟩
      · exact .inl ⟨_, rfl, rfl⟩
    · exact .inl ⟨_, rfl, rfl⟩
  rw [if_neg h2, if_neg h2]
  by_cases h3 : fieldOp w = 3
  · rw [if_pos h3]
    split
    · exact .inr ⟨_, _, rfl, rfl, trivial⟩
    · exact .inl ⟨_, rfl, rfl⟩
  rw [if_neg h3]
  by_cases h4 : fieldOp w = 4
  · rw [if_pos h4]
    split
    · exact .inr ⟨_, _, rfl, rfl, trivial⟩
    · exact .inl ⟨_, rfl, rfl⟩
  rw [if_neg h4]
  exact .inl ⟨_, rfl, rfl⟩

theorem sameShape_cases {i j : Instr} (h : Instr.SameShape i j) :
    (∃ a, i = .construct a ∧ j = .construct a) ∨ (∃ n d d', i = .write n d ∧ j = .write n d') ∨
    (i = .sum ∧ j = .sum) ∨ (i = .reset ∧ j = .reset) := by
  cases i <;> cases j
  all_goals first
    | exact False.elim h
    | (cases (show _ = _ from h); exact .inl ⟨_, rfl, rfl⟩)
    | (cases (show _ = _ from h); exact .inr (.inl ⟨_, _, _, rfl, rfl⟩))
    | exact .inr (.inr (.inl ⟨rfl, rfl⟩))
    | exact .inr (.inr (.inr ⟨rfl, rfl⟩))

end Sys2Proof
end

