-- ==== Sys2Proof/Laws/State.lean ====
section
/-! SUPPORT. One lemma per field and named update of State, true by rfl, for simp. -/

namespace Sys2Proof.Machine

@[simp] theorem State.raise_mode (e : Err) (s : State) : (s.raise e).mode = s.mode := rfl
@[simp] theorem State.raise_sboxSel (e : Err) (s : State) : (s.raise e).sboxSel = s.sboxSel := rfl
@[simp] theorem State.raise_h (e : Err) (s : State) : (s.raise e).h = s.h := rfl
@[simp] theorem State.raise_sigma (e : Err) (s : State) : (s.raise e).sigma = s.sigma := rfl
@[simp] theorem State.raise_l (e : Err) (s : State) : (s.raise e).l = s.l := rfl
@[simp] theorem State.raise_pb (e : Err) (s : State) : (s.raise e).pb = s.pb := rfl
@[simp] theorem State.raise_pbCount (e : Err) (s : State) : (s.raise e).pbCount = s.pbCount := rfl
@[simp] theorem State.raise_digest (e : Err) (s : State) : (s.raise e).digest = s.digest := rfl
@[simp] theorem State.raise_digestValid (e : Err) (s : State) : (s.raise e).digestValid = s.digestValid := rfl
@[simp] theorem State.raise_err (e : Err) (s : State) : (s.raise e).err = e := rfl
@[simp] theorem State.raise_busy (e : Err) (s : State) : (s.raise e).busy = s.busy := rfl
@[simp] theorem State.raise_flight (e : Err) (s : State) : (s.raise e).flight = s.flight := rfl
@[simp] theorem State.raise_held (e : Err) (s : State) : (s.raise e).held = s.held := rfl
@[simp] theorem State.raise_host (e : Err) (s : State) : (s.raise e).host = s.host := rfl
@[simp] theorem State.raise_draws (e : Err) (s : State) : (s.raise e).draws = s.draws := rfl

@[simp] theorem State.init_mode (s : State) : (s.init).mode = s.mode := rfl
@[simp] theorem State.init_sboxSel (s : State) : (s.init).sboxSel = s.sboxSel := rfl
@[simp] theorem State.init_h (s : State) : (s.init).h = 0 := rfl
@[simp] theorem State.init_sigma (s : State) : (s.init).sigma = 0 := rfl
@[simp] theorem State.init_l (s : State) : (s.init).l = 0 := rfl
@[simp] theorem State.init_pb (s : State) : (s.init).pb = s.pb := rfl
@[simp] theorem State.init_pbCount (s : State) : (s.init).pbCount = 0 := rfl
@[simp] theorem State.init_digest (s : State) : (s.init).digest = s.digest := rfl
@[simp] theorem State.init_digestValid (s : State) : (s.init).digestValid = s.digestValid := rfl
@[simp] theorem State.init_err (s : State) : (s.init).err = s.err := rfl
@[simp] theorem State.init_busy (s : State) : (s.init).busy = s.busy := rfl
@[simp] theorem State.init_flight (s : State) : (s.init).flight = s.flight := rfl
@[simp] theorem State.init_held (s : State) : (s.init).held = s.held := rfl
@[simp] theorem State.init_host (s : State) : (s.init).host = s.host := rfl
@[simp] theorem State.init_draws (s : State) : (s.init).draws = s.draws := rfl

@[simp] theorem State.absorbWith_mode (h' b : Word256) (s : State) : (s.absorbWith h' b).mode = s.mode := rfl
@[simp] theorem State.absorbWith_sboxSel (h' b : Word256) (s : State) : (s.absorbWith h' b).sboxSel = s.sboxSel := rfl
@[simp] theorem State.absorbWith_h (h' b : Word256) (s : State) : (s.absorbWith h' b).h = h' := rfl
@[simp] theorem State.absorbWith_sigma (h' b : Word256) (s : State) : (s.absorbWith h' b).sigma = checksumAdd s.sigma b := rfl
@[simp] theorem State.absorbWith_l (h' b : Word256) (s : State) : (s.absorbWith h' b).l = lengthAddBlock s.l := rfl
@[simp] theorem State.absorbWith_pb (h' b : Word256) (s : State) : (s.absorbWith h' b).pb = s.pb := rfl
@[simp] theorem State.absorbWith_pbCount (h' b : Word256) (s : State) : (s.absorbWith h' b).pbCount = s.pbCount := rfl
@[simp] theorem State.absorbWith_digest (h' b : Word256) (s : State) : (s.absorbWith h' b).digest = s.digest := rfl
@[simp] theorem State.absorbWith_digestValid (h' b : Word256) (s : State) : (s.absorbWith h' b).digestValid = s.digestValid := rfl
@[simp] theorem State.absorbWith_err (h' b : Word256) (s : State) : (s.absorbWith h' b).err = s.err := rfl
@[simp] theorem State.absorbWith_busy (h' b : Word256) (s : State) : (s.absorbWith h' b).busy = s.busy := rfl
@[simp] theorem State.absorbWith_flight (h' b : Word256) (s : State) : (s.absorbWith h' b).flight = s.flight := rfl
@[simp] theorem State.absorbWith_held (h' b : Word256) (s : State) : (s.absorbWith h' b).held = s.held := rfl
@[simp] theorem State.absorbWith_host (h' b : Word256) (s : State) : (s.absorbWith h' b).host = s.host := rfl
@[simp] theorem State.absorbWith_draws (h' b : Word256) (s : State) : (s.absorbWith h' b).draws = s.draws := rfl

@[simp] theorem State.setPending_mode (draw : Nat) (bytes : List Byte) (s : State) : (s.setPending draw bytes).mode = s.mode := rfl
@[simp] theorem State.setPending_sboxSel (draw : Nat) (bytes : List Byte) (s : State) : (s.setPending draw bytes).sboxSel = s.sboxSel := rfl
@[simp] theorem State.setPending_h (draw : Nat) (bytes : List Byte) (s : State) : (s.setPending draw bytes).h = s.h := rfl
@[simp] theorem State.setPending_sigma (draw : Nat) (bytes : List Byte) (s : State) : (s.setPending draw bytes).sigma = s.sigma := rfl
@[simp] theorem State.setPending_l (draw : Nat) (bytes : List Byte) (s : State) : (s.setPending draw bytes).l = s.l := rfl
@[simp] theorem State.setPending_pb (draw : Nat) (bytes : List Byte) (s : State) : (s.setPending draw bytes).pb = packPb draw bytes := rfl
@[simp] theorem State.setPending_pbCount (draw : Nat) (bytes : List Byte) (s : State) : (s.setPending draw bytes).pbCount = BitVec.ofNat 5 bytes.length := rfl
@[simp] theorem State.setPending_digest (draw : Nat) (bytes : List Byte) (s : State) : (s.setPending draw bytes).digest = s.digest := rfl
@[simp] theorem State.setPending_digestValid (draw : Nat) (bytes : List Byte) (s : State) : (s.setPending draw bytes).digestValid = s.digestValid := rfl
@[simp] theorem State.setPending_err (draw : Nat) (bytes : List Byte) (s : State) : (s.setPending draw bytes).err = s.err := rfl
@[simp] theorem State.setPending_busy (draw : Nat) (bytes : List Byte) (s : State) : (s.setPending draw bytes).busy = s.busy := rfl
@[simp] theorem State.setPending_flight (draw : Nat) (bytes : List Byte) (s : State) : (s.setPending draw bytes).flight = s.flight := rfl
@[simp] theorem State.setPending_held (draw : Nat) (bytes : List Byte) (s : State) : (s.setPending draw bytes).held = s.held := rfl
@[simp] theorem State.setPending_host (draw : Nat) (bytes : List Byte) (s : State) : (s.setPending draw bytes).host = s.host := rfl
@[simp] theorem State.setPending_draws (draw : Nat) (bytes : List Byte) (s : State) : (s.setPending draw bytes).draws = s.draws := rfl

@[simp] theorem State.markWritten_mode (s : State) : (s.markWritten).mode = .accumulating := rfl
@[simp] theorem State.markWritten_sboxSel (s : State) : (s.markWritten).sboxSel = s.sboxSel := rfl
@[simp] theorem State.markWritten_h (s : State) : (s.markWritten).h = s.h := rfl
@[simp] theorem State.markWritten_sigma (s : State) : (s.markWritten).sigma = s.sigma := rfl
@[simp] theorem State.markWritten_l (s : State) : (s.markWritten).l = s.l := rfl
@[simp] theorem State.markWritten_pb (s : State) : (s.markWritten).pb = s.pb := rfl
@[simp] theorem State.markWritten_pbCount (s : State) : (s.markWritten).pbCount = s.pbCount := rfl
@[simp] theorem State.markWritten_digest (s : State) : (s.markWritten).digest = s.digest := rfl
@[simp] theorem State.markWritten_digestValid (s : State) : (s.markWritten).digestValid = false := rfl
@[simp] theorem State.markWritten_err (s : State) : (s.markWritten).err = .ok := rfl
@[simp] theorem State.markWritten_busy (s : State) : (s.markWritten).busy = s.busy := rfl
@[simp] theorem State.markWritten_flight (s : State) : (s.markWritten).flight = s.flight := rfl
@[simp] theorem State.markWritten_held (s : State) : (s.markWritten).held = s.held := rfl
@[simp] theorem State.markWritten_host (s : State) : (s.markWritten).host = s.host := rfl
@[simp] theorem State.markWritten_draws (s : State) : (s.markWritten).draws = s.draws := rfl

@[simp] theorem State.latchDigest_mode (d : Word256) (s : State) : (s.latchDigest d).mode = s.mode := rfl
@[simp] theorem State.latchDigest_sboxSel (d : Word256) (s : State) : (s.latchDigest d).sboxSel = s.sboxSel := rfl
@[simp] theorem State.latchDigest_h (d : Word256) (s : State) : (s.latchDigest d).h = s.h := rfl
@[simp] theorem State.latchDigest_sigma (d : Word256) (s : State) : (s.latchDigest d).sigma = s.sigma := rfl
@[simp] theorem State.latchDigest_l (d : Word256) (s : State) : (s.latchDigest d).l = s.l := rfl
@[simp] theorem State.latchDigest_pb (d : Word256) (s : State) : (s.latchDigest d).pb = s.pb := rfl
@[simp] theorem State.latchDigest_pbCount (d : Word256) (s : State) : (s.latchDigest d).pbCount = s.pbCount := rfl
@[simp] theorem State.latchDigest_digest (d : Word256) (s : State) : (s.latchDigest d).digest = d := rfl
@[simp] theorem State.latchDigest_digestValid (d : Word256) (s : State) : (s.latchDigest d).digestValid = true := rfl
@[simp] theorem State.latchDigest_err (d : Word256) (s : State) : (s.latchDigest d).err = .ok := rfl
@[simp] theorem State.latchDigest_busy (d : Word256) (s : State) : (s.latchDigest d).busy = s.busy := rfl
@[simp] theorem State.latchDigest_flight (d : Word256) (s : State) : (s.latchDigest d).flight = s.flight := rfl
@[simp] theorem State.latchDigest_held (d : Word256) (s : State) : (s.latchDigest d).held = s.held := rfl
@[simp] theorem State.latchDigest_host (d : Word256) (s : State) : (s.latchDigest d).host = s.host := rfl
@[simp] theorem State.latchDigest_draws (d : Word256) (s : State) : (s.latchDigest d).draws = s.draws := rfl

@[simp] theorem State.powerOn_mode (s : State) : (s.powerOn).mode = .unconfigured := rfl
@[simp] theorem State.powerOn_sboxSel (s : State) : (s.powerOn).sboxSel = 0 := rfl
@[simp] theorem State.powerOn_h (s : State) : (s.powerOn).h = Config.powerOnH s.draws := rfl
@[simp] theorem State.powerOn_sigma (s : State) : (s.powerOn).sigma = Config.powerOnSigma s.draws := rfl
@[simp] theorem State.powerOn_l (s : State) : (s.powerOn).l = Config.powerOnL s.draws := rfl
@[simp] theorem State.powerOn_pb (s : State) : (s.powerOn).pb = Vector.ofFn fun k => Config.powerOnPb s.draws k.val := rfl
@[simp] theorem State.powerOn_pbCount (s : State) : (s.powerOn).pbCount = 0 := rfl
@[simp] theorem State.powerOn_digest (s : State) : (s.powerOn).digest = Config.powerOnDigest s.draws := rfl
@[simp] theorem State.powerOn_digestValid (s : State) : (s.powerOn).digestValid = false := rfl
@[simp] theorem State.powerOn_err (s : State) : (s.powerOn).err = .ok := rfl
@[simp] theorem State.powerOn_busy (s : State) : (s.powerOn).busy = false := rfl
@[simp] theorem State.powerOn_flight (s : State) : (s.powerOn).flight = Flight.none := rfl
@[simp] theorem State.powerOn_held (s : State) : (s.powerOn).held = s.held := rfl
@[simp] theorem State.powerOn_host (s : State) : (s.powerOn).host = s.host := rfl
@[simp] theorem State.powerOn_draws (s : State) : (s.powerOn).draws = s.draws := rfl

@[simp] theorem State.accept_mode (rest : List HostAction) (s : State) : (s.accept rest).mode = s.mode := rfl
@[simp] theorem State.accept_sboxSel (rest : List HostAction) (s : State) : (s.accept rest).sboxSel = s.sboxSel := rfl
@[simp] theorem State.accept_h (rest : List HostAction) (s : State) : (s.accept rest).h = s.h := rfl
@[simp] theorem State.accept_sigma (rest : List HostAction) (s : State) : (s.accept rest).sigma = s.sigma := rfl
@[simp] theorem State.accept_l (rest : List HostAction) (s : State) : (s.accept rest).l = s.l := rfl
@[simp] theorem State.accept_pb (rest : List HostAction) (s : State) : (s.accept rest).pb = s.pb := rfl
@[simp] theorem State.accept_pbCount (rest : List HostAction) (s : State) : (s.accept rest).pbCount = s.pbCount := rfl
@[simp] theorem State.accept_digest (rest : List HostAction) (s : State) : (s.accept rest).digest = s.digest := rfl
@[simp] theorem State.accept_digestValid (rest : List HostAction) (s : State) : (s.accept rest).digestValid = s.digestValid := rfl
@[simp] theorem State.accept_err (rest : List HostAction) (s : State) : (s.accept rest).err = s.err := rfl
@[simp] theorem State.accept_busy (rest : List HostAction) (s : State) : (s.accept rest).busy = s.busy := rfl
@[simp] theorem State.accept_flight (rest : List HostAction) (s : State) : (s.accept rest).flight = s.flight := rfl
@[simp] theorem State.accept_held (rest : List HostAction) (s : State) : (s.accept rest).held = s.held := rfl
@[simp] theorem State.accept_host (rest : List HostAction) (s : State) : (s.accept rest).host = rest := rfl
@[simp] theorem State.accept_draws (rest : List HostAction) (s : State) : (s.accept rest).draws = s.draws + 1 := rfl

@[simp] theorem State.land_mode (s : State) : (s.land).mode = s.mode := rfl
@[simp] theorem State.land_sboxSel (s : State) : (s.land).sboxSel = s.sboxSel := rfl
@[simp] theorem State.land_h (s : State) : (s.land).h = s.h := rfl
@[simp] theorem State.land_sigma (s : State) : (s.land).sigma = s.sigma := rfl
@[simp] theorem State.land_l (s : State) : (s.land).l = s.l := rfl
@[simp] theorem State.land_pb (s : State) : (s.land).pb = s.pb := rfl
@[simp] theorem State.land_pbCount (s : State) : (s.land).pbCount = s.pbCount := rfl
@[simp] theorem State.land_digest (s : State) : (s.land).digest = s.digest := rfl
@[simp] theorem State.land_digestValid (s : State) : (s.land).digestValid = s.digestValid := rfl
@[simp] theorem State.land_err (s : State) : (s.land).err = s.err := rfl
@[simp] theorem State.land_busy (s : State) : (s.land).busy = false := rfl
@[simp] theorem State.land_flight (s : State) : (s.land).flight = Flight.none := rfl
@[simp] theorem State.land_held (s : State) : (s.land).held = s.held := rfl
@[simp] theorem State.land_host (s : State) : (s.land).host = s.host := rfl
@[simp] theorem State.land_draws (s : State) : (s.land).draws = s.flight.draw := rfl

@[simp] theorem State.setFlight_mode (f : Flight) (s : State) : (s.setFlight f).mode = s.mode := rfl
@[simp] theorem State.setFlight_sboxSel (f : Flight) (s : State) : (s.setFlight f).sboxSel = s.sboxSel := rfl
@[simp] theorem State.setFlight_h (f : Flight) (s : State) : (s.setFlight f).h = s.h := rfl
@[simp] theorem State.setFlight_sigma (f : Flight) (s : State) : (s.setFlight f).sigma = s.sigma := rfl
@[simp] theorem State.setFlight_l (f : Flight) (s : State) : (s.setFlight f).l = s.l := rfl
@[simp] theorem State.setFlight_pb (f : Flight) (s : State) : (s.setFlight f).pb = s.pb := rfl
@[simp] theorem State.setFlight_pbCount (f : Flight) (s : State) : (s.setFlight f).pbCount = s.pbCount := rfl
@[simp] theorem State.setFlight_digest (f : Flight) (s : State) : (s.setFlight f).digest = s.digest := rfl
@[simp] theorem State.setFlight_digestValid (f : Flight) (s : State) : (s.setFlight f).digestValid = s.digestValid := rfl
@[simp] theorem State.setFlight_err (f : Flight) (s : State) : (s.setFlight f).err = s.err := rfl
@[simp] theorem State.setFlight_busy (f : Flight) (s : State) : (s.setFlight f).busy = s.busy := rfl
@[simp] theorem State.setFlight_flight (f : Flight) (s : State) : (s.setFlight f).flight = f := rfl
@[simp] theorem State.setFlight_held (f : Flight) (s : State) : (s.setFlight f).held = s.held := rfl
@[simp] theorem State.setFlight_host (f : Flight) (s : State) : (s.setFlight f).host = s.host := rfl
@[simp] theorem State.setFlight_draws (f : Flight) (s : State) : (s.setFlight f).draws = s.draws := rfl

end Sys2Proof.Machine
end

