-- ==== Sys2Proof/Laws/Units.lean ====
section
/-! SUPPORT. One spec lemma per unit: the words of A, the bytes of P, the lanes of ψ, and how ψ^n composes. -/

namespace Sys2Proof.Machine

theorem xor_left_comm256 (a b c : Word256) : a ^^^ (b ^^^ c) = b ^^^ (a ^^^ c) := by
  rw [← BitVec.xor_assoc, BitVec.xor_comm a b, BitVec.xor_assoc]

/-- Two u256 values are equal when their four words are. -/
theorem eq_of_words {a b : Word256} (h0 : wordOf a 0 = wordOf b 0) (h1 : wordOf a 1 = wordOf b 1)
    (h2 : wordOf a 2 = wordOf b 2) (h3 : wordOf a 3 = wordOf b 3) : a = b := by
  apply wordOf_ext
  intro i hi
  match i, hi with
  | 0, _ => exact h0
  | 1, _ => exact h1
  | 2, _ => exact h2
  | 3, _ => exact h3

theorem wordOf_linA_zero (x : Word256) : wordOf (linA x) 0 = wordOf x 1 := wordOf_joinWords_zero _ _ _ _

theorem wordOf_linA_one (x : Word256) : wordOf (linA x) 1 = wordOf x 2 := wordOf_joinWords_one _ _ _ _

theorem wordOf_linA_two (x : Word256) : wordOf (linA x) 2 = wordOf x 3 := wordOf_joinWords_two _ _ _ _

theorem wordOf_linA_three (x : Word256) : wordOf (linA x) 3 = wordOf x 0 ^^^ wordOf x 1 :=
  wordOf_joinWords_three _ _ _ _

/-- Byte t of P(X) is byte φ(t) of X (41_key_derivation.md R132). -/
theorem byteOf_permP (x : Word256) {t : Nat} (ht : t < 32) : byteOf (permP x) t = byteOf x (phi t) := by
  rw [permP, byteOf_leInt _ ht]
  simp [ht]

/-- The lanes below the top move one place down (42_psi_shuffle.md R150). -/
theorem laneOf_psi (y : Word256) {i : Nat} (hi : i < 15) : laneOf (psi y) i = laneOf y (i + 1) := by
  apply BitVec.eq_of_getLsbD_eq
  intro k hk
  simp only [getLsbD_laneOf, psi, BitVec.getLsbD_append, hk, decide_true, Bool.true_and, BitVec.getLsbD_extractLsb']
  have h1 : 16 * i + k < 240 := by omega
  have h2 : 16 + (16 * i + k) = 16 * (i + 1) + k := by omega
  simp only [h1, h2, if_true, decide_true, Bool.true_and]

/-- The feedback enters the top lane (R150). -/
theorem laneOf_psi_top (y : Word256) : laneOf (psi y) 15 = psiFeedback y := by
  apply BitVec.eq_of_getLsbD_eq
  intro k hk
  simp only [getLsbD_laneOf, psi, BitVec.getLsbD_append, hk, decide_true, Bool.true_and]
  have h1 : ¬ 16 * 15 + k < 240 := by omega
  have h2 : 16 * 15 + k - 240 = k := by omega
  simp only [h1, h2, if_false]

theorem psiFeedback_xor (x y : Word256) : psiFeedback (x ^^^ y) = psiFeedback x ^^^ psiFeedback y := by
  apply BitVec.eq_of_getLsbD_eq
  intro k _
  simp only [psiFeedback, laneOf_xor, BitVec.getLsbD_xor]
  generalize (laneOf x 0).getLsbD k = a0
  generalize (laneOf x 1).getLsbD k = a1
  generalize (laneOf x 2).getLsbD k = a2
  generalize (laneOf x 3).getLsbD k = a3
  generalize (laneOf x 12).getLsbD k = a12
  generalize (laneOf x 15).getLsbD k = a15
  cases a0 <;> cases a1 <;> cases a2 <;> cases a3 <;> cases a12 <;> cases a15 <;> simp

theorem psiIter_succ (n : Nat) (y : Word256) : psiIter (n + 1) y = psi (psiIter n y) := rfl

/-- The application first made can be split off. -/
theorem psiIter_psi (n : Nat) (y : Word256) : psiIter n (psi y) = psiIter (n + 1) y := by
  induction n with
  | zero => rfl
  | succ n ih => rw [psiIter_succ, ih, ← psiIter_succ]

/-- ψ^(a+b) is ψ^a after ψ^b (R151). -/
theorem psiIter_add (a b : Nat) (y : Word256) : psiIter (a + b) y = psiIter a (psiIter b y) := by
  induction a with
  | zero => rw [Nat.zero_add]; rfl
  | succ a ih => rw [Nat.succ_add, psiIter_succ, ih, ← psiIter_succ]

theorem psi_xor (x y : Word256) : psi (x ^^^ y) = psi x ^^^ psi y := by
  apply laneOf_ext; intro i hi
  by_cases h : i < 15
  · simp only [laneOf_psi _ h, laneOf_xor]
  · have : i = 15 := by omega
    subst this; simp only [laneOf_xor, laneOf_psi_top, psiFeedback_xor]

/-- Every lane of ψ⁻¹ (42_psi_shuffle.md R153). -/
theorem laneOf_psiInv (z : Word256) : (∀ i, i < 15 → laneOf (psiInv z) (i + 1) = laneOf z i) ∧
    laneOf (psiInv z) 0 = (laneOf z 15 ^^^ laneOf z 0 ^^^ laneOf z 1 ^^^ laneOf z 2 ^^^ laneOf z 11 ^^^ laneOf z 14) := by
  constructor
  · intro i hi; apply BitVec.eq_of_getLsbD_eq; intro k hk
    simp only [getLsbD_laneOf, psiInv, BitVec.getLsbD_append, hk, decide_true, Bool.true_and,
      BitVec.getLsbD_extractLsb']
    have h1 : ¬ 16 * (i+1) + k < 16 := by omega
    have h2 : 16 * (i+1) + k - 16 < 240 := by omega
    have h3 : 0 + (16 * (i+1) + k - 16) = 16 * i + k := by omega
    simp only [h1, h2, h3, if_false, decide_true, Bool.true_and]
  · apply BitVec.eq_of_getLsbD_eq; intro k hk
    simp only [getLsbD_laneOf, psiInv, BitVec.getLsbD_append, hk, decide_true, Bool.true_and]
    have h1 : 16 * 0 + k < 16 := by omega
    have h2 : 16 * 0 + k = k := by omega
    simp only [h2, hk, if_true]

end Sys2Proof.Machine
end

