-- ==== Sys2Proof/Laws/Ops.lean ====
section
/-! SUPPORT. One lemma per shared operation: the PendingBuffer, Drain, and what a command's body does when no error is
raised. -/

namespace Sys2Proof.Machine

theorem pbCount_lt (s : State) : s.pbCount.toNat < 32 := s.pbCount.isLt

/-- PB_COUNT bytes are pending (10_state.md R26). -/
@[simp] theorem State.pending_length (s : State) : s.pending.length = s.pbCount.toNat := by
  have := pbCount_lt s
  simp [State.pending]; omega

theorem packPb_getElem (draw : Nat) (bytes : List Byte) (k : Nat) (hk : k < 32) :
    (packPb draw bytes)[k] = bytes.getD k (Config.stalePb draw k) := by
  unfold packPb; simp

/-- Storing fewer than 32 bytes makes exactly them pending. -/
@[simp] theorem State.pending_setPending (draw : Nat) (bytes : List Byte) (s : State) (h : bytes.length < 32) :
    (s.setPending draw bytes).pending = bytes := by
  apply List.ext_getElem
  · simp [Nat.mod_eq_of_lt h]
  · intro k h1 h2
    have hk : k < 32 := by omega
    simp [State.pending, packPb_getElem, h2]

theorem State.pbCount_setPending (draw : Nat) (bytes : List Byte) (s : State) (h : bytes.length < 32) :
    (s.setPending draw bytes).pbCount.toNat = bytes.length := by
  simp [Nat.mod_eq_of_lt h]

/-- The pending bytes depend on PB and PB_COUNT alone. -/
theorem State.pending_congr {s t : State} (hp : s.pb = t.pb) (hc : s.pbCount = t.pbCount) : s.pending = t.pending := by
  simp [State.pending, hp, hc]

@[simp] theorem State.pending_raise (e : Err) (s : State) : (s.raise e).pending = s.pending := rfl

@[simp] theorem State.pending_markWritten (s : State) : s.markWritten.pending = s.pending := rfl

@[simp] theorem State.pending_latchDigest (d : Word256) (s : State) : (s.latchDigest d).pending = s.pending := rfl

@[simp] theorem State.pending_absorbWith (h' b : Word256) (s : State) : (s.absorbWith h' b).pending = s.pending := rfl

@[simp] theorem State.append_length (d : List Byte) (s : State) : (s.append d).length = s.pbCount.toNat + d.length := by
  simp [State.append]

/-- Drain below 32 bytes: nothing is absorbed (44_accumulators.md R194). -/
theorem State.drainWith_of_lt (h' : Word256) (draw : Nat) (buf : List Byte) (s : State) (h : buf.length < 32) :
    s.drainWith h' draw buf = s.setPending draw buf := by
  simp [State.drainWith, Nat.not_le.mpr h]

/-- Drain at 32 bytes or more: one block is absorbed and the surplus stays (R194). -/
theorem State.drainWith_of_le (h' : Word256) (draw : Nat) (buf : List Byte) (s : State) (h : 32 ≤ buf.length) :
    s.drainWith h' draw buf = (s.absorbWith h' (firstBlock buf)).setPending draw (buf.drop 32) := by
  simp [State.drainWith, h]

/-- Drain with nothing to absorb does not use the Step's result. -/
theorem State.drainWith_congr {h₁ h₂ : Word256} {draw : Nat} {buf : List Byte} {s : State}
    (h : 32 ≤ buf.length → h₁ = h₂) : s.drainWith h₁ draw buf = s.drainWith h₂ draw buf := by
  unfold State.drainWith
  split
  · rw [h ‹_›]
  · rfl

end Sys2Proof.Machine
end

