-- ==== Sys2Proof/Laws/Exec.lean ====
section
/-! SUPPORT. What `exec`, `execute` and `step` can do, said once. -/

namespace Sys2Proof.Machine

/-- What a command that raises no error leaves (45_digest_engine.md R222 to R225). -/
def bodyOf (i : Instr) (s : State) : State :=
  match i with
  | .construct sel => constructBody sel s
  | .write n data => writeBody n data s
  | .sum => sumBody s
  | .reset => resetBody s

/-- Every command ends in a next state: the error recorded, or its body's state (R221). -/
theorem exec_eq (i : Instr) (s : State) :
    exec i s = .next (match commandError i s with | some e => s.raise e | none => bodyOf i s) := by
  cases i with
  | construct sel => simp only [exec, execConstruct, bodyOf]; split <;> simp_all
  | write n data => simp only [exec, execWrite, bodyOf]; split <;> simp_all
  | sum => simp only [exec, execSum, bodyOf]; split <;> simp_all
  | reset => simp only [exec, execReset, bodyOf]; split <;> simp_all

theorem exec_of_error {i : Instr} {s : State} {e : Err} (h : commandError i s = some e) :
    exec i s = .next (s.raise e) := by
  simp [exec_eq, h]

theorem exec_of_ok {i : Instr} {s : State} (h : commandError i s = none) : exec i s = .next (bodyOf i s) := by
  simp [exec_eq, h]

/-- If a command answers next, either it failed and only ERR changed, or it left its body's state. -/
theorem exec_cases {i : Instr} {s t : State} (h : exec i s = .next t) :
    (∃ e, commandError i s = some e ∧ t = s.raise e) ∨ (commandError i s = none ∧ t = bodyOf i s) := by
  cases he : commandError i s with
  | some e => left; rw [exec_of_error he] at h; exact ⟨e, rfl, by injection h with h; exact h.symm⟩
  | none => right; rw [exec_of_ok he] at h; exact ⟨rfl, by injection h with h; exact h.symm⟩

/-- When a command raises no error. -/
theorem commandError_eq_none {i : Instr} {s : State} :
    commandError i s = none ↔
      i.wellFormed = true ∧
        match i with
        | .construct sel => s.mode = .unconfigured ∧ sel.toNat < Config.numSboxSets
        | .write _ _ => s.mode ≠ .unconfigured
        | .sum => s.mode ≠ .unconfigured
        | .reset => s.mode ≠ .unconfigured := by
  cases i <;> simp only [commandError, Instr.wellFormed] <;> split_ifs <;> simp_all

/-- The error a command raises depends on MODE alone. -/
theorem commandError_congr {s t : State} (i : Instr) (h : s.mode = t.mode) : commandError i s = commandError i t := by
  cases i <;> simp only [commandError, h]

theorem commandError_shape {i j : Instr} {s t : State} (h : i.SameShape j) (hm : s.mode = t.mode) :
    commandError i s = commandError j t := by
  rcases sameShape_cases h with ⟨a, rfl, rfl⟩ | ⟨n, d, d', rfl, rfl⟩ | ⟨rfl, rfl⟩ | ⟨rfl, rfl⟩
  · exact commandError_congr _ hm
  · have hw : (Instr.write n d).wellFormed = (Instr.write n d').wellFormed := rfl
    simp only [commandError, hm, hw]
  · exact commandError_congr _ hm
  · exact commandError_congr _ hm

theorem commandError_ne_ok (i : Instr) (s : State) : commandError i s ≠ some .ok := by
  cases i <;> simp only [commandError] <;> split_ifs <;> simp

/-- A WRITE that raises no error carries at most 8 bytes (30_encoding.md R85). -/
theorem write_count_le {n : BitVec 4} {data : Word64} {s : State} (h : commandError (.write n data) s = none) :
    n.toNat ≤ 8 := by
  have := (commandError_eq_none.mp h).1
  simpa [Instr.wellFormed] using this

/-- A WRITE's working buffer, and what Drain leaves of it, stay within 39 and 31 bytes (44_accumulators.md R194). -/
theorem write_buffer_bounds {n : BitVec 4} {data : Word64} {s : State} (h : commandError (.write n data) s = none) :
    (s.append (dataBytes n data)).length ≤ 39 ∧ ((s.append (dataBytes n data)).drop 32).length < 32 := by
  have h8 := write_count_le h
  have hc := pbCount_lt s
  simp only [State.append_length, dataBytes_length, List.length_drop]
  omega

end Sys2Proof.Machine
end

