-- ==== Sys2Proof/Laws/Digest.lean ====
section
/-! SUPPORT. How the full blocks and the tail of a message grow when bytes are appended. -/

namespace Sys2Proof.Machine

@[simp] theorem messageTail_length (m : List Byte) : (messageTail m).length = m.length % 32 := by
  simp [messageTail]; omega

theorem messageBlock_append (m d : List Byte) (k : Nat) (h : 32 * (k + 1) ≤ m.length) :
    messageBlock (m ++ d) k = messageBlock m k := by
  unfold messageBlock
  congr 1
  rw [List.drop_append_of_le_length (by omega), List.take_append_of_le_length (by simp; omega)]

/-- Bytes that complete no block only lengthen the tail. -/
theorem message_append_lt (m d : List Byte) (h : m.length % 32 + d.length < 32) :
    fullBlocks (m ++ d) = fullBlocks m ∧ messageTail (m ++ d) = messageTail m ++ d := by
  have e : (m ++ d).length / 32 = m.length / 32 := by simp; omega
  constructor
  · unfold fullBlocks
    rw [e]
    apply List.map_congr_left
    intro k hk
    simp at hk
    exact messageBlock_append m d k (by omega)
  · unfold messageTail
    rw [e, List.drop_append_of_le_length (by omega)]

/-- Bytes that complete one block add it to the blocks and leave the surplus as the tail. -/
theorem message_append_ge (m d : List Byte) (h : 32 ≤ m.length % 32 + d.length)
    (h2 : m.length % 32 + d.length < 64) :
    fullBlocks (m ++ d) = fullBlocks m ++ [firstBlock (messageTail m ++ d)] ∧
      messageTail (m ++ d) = (messageTail m ++ d).drop 32 := by
  have e : (m ++ d).length / 32 = m.length / 32 + 1 := by simp; omega
  have t : (m ++ d).drop (32 * (m.length / 32)) = messageTail m ++ d := by
    unfold messageTail
    rw [List.drop_append_of_le_length (by omega)]
  constructor
  · unfold fullBlocks
    rw [e, List.range_succ, List.map_append]
    congr 1
    · apply List.map_congr_left
      intro k hk
      simp at hk
      exact messageBlock_append m d k (by omega)
    · simp only [List.map_cons, List.map_nil, messageBlock, t, firstBlock]
  · have : messageTail (m ++ d) = ((m ++ d).drop (32 * (m.length / 32))).drop 32 := by
      unfold messageTail
      rw [e, List.drop_drop]
      congr 1
    rw [this, t]

end Sys2Proof.Machine
end

