-- ==== Sys2Proof/Laws/Edge.lean ====
section
/-! SUPPORT. What an edge can do, said once, and the value a Step in progress will deliver: `finalHs` computes forward
from the hidden state, and every move of the pipeline keeps it. -/

namespace Sys2Proof.Machine

/-- An edge answers next exactly when the channel protocol and the digest rule are kept (60_exceptions.md R265). -/
theorem edge_eq_next {T : Timing} {e : EdgeIn} {s t : State} :
    edge T e s = .next t ↔
      breaksHold e s = false ∧ (e.readsDigest = true → s.digestReadable = true) ∧
        t = { edgeMove T e s with held := heldAfter e s } := by
  unfold edge
  cases breaksHold e s <;> cases e.readsDigest <;> cases s.digestReadable <;>
    simp [eq_comm]

/-- An edge with `rst_n = 1` while a command is in progress only does the command's work. -/
theorem edge_busy {T : Timing} {e : EdgeIn} {s t : State} (h : edge T e s = .next t) (hb : s.busy = true)
    (hr : e.rstN = true) : t = { workEdge T e s with draws := s.draws + 1, held := heldAfter e s } := by
  have ht := (edge_eq_next.mp h).2.2
  simpa [edgeMove, hb, hr] using ht

/-- An edge with `rst_n = 1` and an offer to an idle block accepts it. -/
theorem edge_accept {T : Timing} {e : EdgeIn} {s t : State} (h : edge T e s = .next t) (hb : s.busy = false)
    (hr : e.rstN = true) (hv : e.cmdValid = true) : t = { acceptEdge e s with held := heldAfter e s } := by
  have ht := (edge_eq_next.mp h).2.2
  simpa [edgeMove, hb, hr, hv] using ht

/-- The keys once key generation has run on from key `j` (41_key_derivation.md R134). -/
def Flight.keysFrom (f : Flight) (j : Fin 4) : Vector Word256 4 :=
  match j with
  | 0 => keyDerive f.u f.v
  | 1 =>
    let u2 := nextU 2 f.u
    let v2 := nextV f.v
    let u3 := nextU 3 u2
    let v3 := nextV v2
    #v[f.k[0], permP (u2 ^^^ v2), permP (u3 ^^^ v3), permP (nextU 4 u3 ^^^ nextV v3)]
  | 2 =>
    let u3 := nextU 3 f.u
    let v3 := nextV f.v
    #v[f.k[0], f.k[1], permP (u3 ^^^ v3), permP (nextU 4 u3 ^^^ nextV v3)]
  | 3 => #v[f.k[0], f.k[1], f.k[2], permP (nextU 4 f.u ^^^ nextV f.v)]

/-- Cipher result `j` once the requests from `i` on have been answered under `k`. -/
def Flight.resultFrom (sel : BitVec 4) (f : Flight) (k : Vector Word256 4) (i : Nat) (j : Fin 4) : Word64 :=
  if j.val < i then f.s[j] else Config.cipher sel k[j] (wordOf f.hs j.val)

/-- S once the requests from `i` on have been answered under `k` (43_step_function.md R172). -/
def Flight.sFrom (sel : BitVec 4) (f : Flight) (k : Vector Word256 4) (i : Nat) : Word256 :=
  joinWords (f.resultFrom sel k i 3) (f.resultFrom sel k i 2) (f.resultFrom sel k i 1) (f.resultFrom sel k i 0)

/-- The Step's value once the mixing has run on (R173). -/
def Flight.mixFrom (f : Flight) (stage : MixStage) (left : Nat) : Word256 :=
  match stage with
  | .first => psiIter 61 (f.hs ^^^ psiIter 1 (f.m ^^^ psiIter left f.y))
  | .second => psiIter 61 (f.hs ^^^ psiIter left f.y)
  | .third => psiIter left f.y

/-- The command's last chaining value once the Step in progress has delivered `x` (45_digest_engine.md R224). -/
def Flight.jobFrom (sel : BitVec 4) (f : Flight) (x : Word256) : Word256 :=
  match f.job with
  | .block => x
  | .tail => stepFunction sel (stepFunction sel x f.ls) f.ss
  | .length => stepFunction sel x f.ss
  | .checksum => x

/-- The chaining value with which the command in progress will commit, its work having begun. -/
def Flight.finalHs (sel : BitVec 4) (f : Flight) : Word256 :=
  match f.phase with
  | .start => f.hs
  | .keys j => f.jobFrom sel (mixing f.hs f.m (f.sFrom sel (f.keysFrom j) 0))
  | .offer i => f.jobFrom sel (mixing f.hs f.m (f.sFrom sel f.k i.val))
  | .await i => f.jobFrom sel (mixing f.hs f.m (f.sFrom sel f.k i.val))
  | .mix stage left => f.jobFrom sel (f.mixFrom stage left)
  | .done => f.hs

/-- A Step that begins will deliver the Step function's value (43_step_function.md R174). -/
theorem finalHs_startStep (sel : BitVec 4) (job : Job) (m : Word256) (f : Flight) :
    (f.startStep job m).finalHs sel = (f.startStep job m).jobFrom sel (stepFunction sel f.hs m) := by
  have hs : (f.startStep job m).sFrom sel (keyDerive f.hs m) 0 = encryption (Config.cipher sel) (keyDerive f.hs m) f.hs := by
    simp only [Flight.sFrom, Flight.resultFrom, Nat.not_lt_zero, if_false]
    rfl
  rw [stepFunction, stepWith, ← hs]
  rfl

theorem makeKey_zero (f : Flight) :
    f.makeKey 0 = { f with k := f.k.set 0 (permP (f.u ^^^ f.v)), phase := .keys 1 } := rfl

theorem makeKey_one (f : Flight) :
    f.makeKey 1 = { f with
      u := nextU 2 f.u, v := nextV f.v, k := f.k.set 1 (permP (nextU 2 f.u ^^^ nextV f.v)), phase := .keys 2 } := rfl

theorem makeKey_two (f : Flight) :
    f.makeKey 2 = { f with
      u := nextU 3 f.u, v := nextV f.v, k := f.k.set 2 (permP (nextU 3 f.u ^^^ nextV f.v)), phase := .keys 3 } := rfl

theorem makeKey_three (f : Flight) :
    f.makeKey 3 = { f with
      u := nextU 4 f.u, v := nextV f.v, k := f.k.set 3 (permP (nextU 4 f.u ^^^ nextV f.v)), phase := .offer 0 } := rfl

theorem set_zero_getElem {α : Type} (k : Vector α 4) (x : α) : (k.set 0 x)[0] = x := Vector.getElem_set_self _

theorem set_one_getElem {α : Type} (k : Vector α 4) (x : α) : (k.set 1 x)[0] = k[0] ∧ (k.set 1 x)[1] = x :=
  ⟨Vector.getElem_set_ne _ _ (by decide), Vector.getElem_set_self _⟩

theorem set_two_getElem {α : Type} (k : Vector α 4) (x : α) :
    (k.set 2 x)[0] = k[0] ∧ (k.set 2 x)[1] = k[1] ∧ (k.set 2 x)[2] = x :=
  ⟨Vector.getElem_set_ne _ _ (by decide), Vector.getElem_set_ne _ _ (by decide), Vector.getElem_set_self _⟩

theorem set_three_eq {α : Type} (k : Vector α 4) (x : α) : k.set 3 x = #v[k[0], k[1], k[2], x] := by
  apply Vector.ext
  intro i hi
  match i, hi with
  | 0, _ => exact Vector.getElem_set_ne _ _ (by decide)
  | 1, _ => exact Vector.getElem_set_ne _ _ (by decide)
  | 2, _ => exact Vector.getElem_set_ne _ _ (by decide)
  | 3, _ => exact Vector.getElem_set_self _

theorem keysFrom_makeKey (f : Flight) (j : Fin 4) (h : j.val + 1 < 4) :
    (f.makeKey j).keysFrom ⟨j.val + 1, h⟩ = f.keysFrom j := by
  match j, h with
  | 0, _ =>
    rw [makeKey_zero]
    simp only [Flight.keysFrom, keyDerive]
    rw [set_zero_getElem]
  | 1, _ =>
    rw [makeKey_one]
    simp only [Flight.keysFrom]
    rw [(set_one_getElem _ _).1, (set_one_getElem _ _).2]
  | 2, _ =>
    rw [makeKey_two]
    simp only [Flight.keysFrom]
    rw [(set_two_getElem _ _).1, (set_two_getElem _ _).2.1, (set_two_getElem _ _).2.2]

theorem keys_makeKey_last (f : Flight) : (f.makeKey 3).k = f.keysFrom 3 := by
  rw [makeKey_three]
  exact set_three_eq _ _

theorem finalHs_makeKey (sel : BitVec 4) (f : Flight) (j : Fin 4) (hp : f.phase = .keys j) :
    (f.makeKey j).finalHs sel = f.finalHs sel := by
  have e : f.finalHs sel = f.jobFrom sel (mixing f.hs f.m (f.sFrom sel (f.keysFrom j) 0)) := by
    simp [Flight.finalHs, hp]
  rw [e]
  by_cases h : j.val + 1 < 4
  · rw [← keysFrom_makeKey f j h]
    have hp' : (f.makeKey j).phase = .keys ⟨j.val + 1, h⟩ := by simp only [Flight.makeKey, h, dif_pos]
    rw [Flight.finalHs, hp']
    rfl
  · have h3 : j = 3 := by omega
    subst h3
    rw [← keys_makeKey_last f]
    rfl

/-- A response with the cipher's answer leaves S as it will be. -/
theorem resultFrom_set (sel : BitVec 4) (f g : Flight) (i j : Fin 4) (hs : g.hs = f.hs)
    (hg : g.s = f.s.set i (Config.cipher sel f.k[i] (wordOf f.hs i.val))) :
    g.resultFrom sel f.k (i.val + 1) j = f.resultFrom sel f.k i.val j := by
  unfold Flight.resultFrom
  rw [hs, hg]
  by_cases h1 : j = i
  · subst h1; simp
  · have h2 : j.val ≠ i.val := fun h => h1 (Fin.ext h)
    have h3 : (j.val < i.val + 1) ↔ j.val < i.val := by omega
    simp only [h3]
    split
    · simp [Ne.symm h2]
    · rfl

theorem finalHs_takeResponse (sel : BitVec 4) (f : Flight) (i : Fin 4) (hp : f.phase = .await i) :
    (f.takeResponse i (Config.cipher sel f.k[i] (wordOf f.hs i.val))).finalHs sel = f.finalHs sel := by
  have e : f.finalHs sel = f.jobFrom sel (mixing f.hs f.m (f.sFrom sel f.k i.val)) := by
    simp [Flight.finalHs, hp]
  rw [e]
  by_cases h : i.val + 1 < 4
  · have hr := resultFrom_set sel f (f.takeResponse i (Config.cipher sel f.k[i] (wordOf f.hs i.val))) i
      (hs := by simp [Flight.takeResponse, h]) (hg := by simp [Flight.takeResponse, h])
    simp only [Flight.sFrom, ← hr]
    simp [Flight.finalHs, Flight.takeResponse, h, Flight.jobFrom, Flight.sFrom]
  · have h3 : i = 3 := by omega
    subst h3
    simp [Flight.finalHs, Flight.takeResponse, Flight.jobFrom, Flight.sFrom, Flight.resultFrom, Flight.mixFrom, mixing]
    rfl

theorem finalHs_endStep (sel : BitVec 4) (x : Word256) (f : Flight) :
    (f.endStep x).finalHs sel = f.jobFrom sel x := by
  cases hj : f.job with
  | block => simp [Flight.endStep, hj, Flight.finalHs, Flight.jobFrom]
  | tail =>
    simp only [Flight.endStep, hj]
    rw [finalHs_startStep]
    simp [Flight.startStep, Flight.jobFrom, hj]
  | length =>
    simp only [Flight.endStep, hj]
    rw [finalHs_startStep]
    simp [Flight.startStep, Flight.jobFrom, hj]
  | checksum => simp [Flight.endStep, hj, Flight.finalHs, Flight.jobFrom]

theorem finalHs_mixMove (sel : BitVec 4) (f : Flight) (stage : MixStage) (left : Nat)
    (hp : f.phase = .mix stage left) : (f.mixMove stage left).finalHs sel = f.finalHs sel := by
  have e : f.finalHs sel = f.jobFrom sel (f.mixFrom stage left) := by simp [Flight.finalHs, hp]
  rw [e]
  cases left with
  | succ n =>
    cases stage <;>
      simp [Flight.mixMove, Flight.finalHs, Flight.jobFrom, Flight.mixFrom, psiIter_psi]
  | zero =>
    cases stage with
    | first => simp [Flight.mixMove, Flight.finalHs, Flight.jobFrom, Flight.mixFrom, psiIter]
    | second => simp [Flight.mixMove, Flight.finalHs, Flight.jobFrom, Flight.mixFrom, psiIter]
    | third => simp [Flight.mixMove, finalHs_endStep, Flight.mixFrom, psiIter]

/-- What an accepted command does to the registers depends on the registers and the free-value index alone. -/
theorem execute_arch_congr {w : Word32} {d : Word64} {s t : State} (ha : s.toArch = t.toArch)
    (hd : s.draws = t.draws) :
    ∃ s' t', execute w d s = .next s' ∧ execute w d t = .next t' ∧ s'.toArch = t'.toArch := by
  unfold execute
  cases decode w d with
  | error e => exact ⟨_, _, rfl, rfl, by simp [State.raise, ha]⟩
  | ok i =>
    have hc : commandError i s = commandError i t := commandError_congr i (by rw [ha])
    simp only [exec_eq]
    refine ⟨_, _, rfl, rfl, ?_⟩
    rw [hc]
    cases commandError i t with
    | some e => simp [State.raise, ha]
    | none =>
      obtain ⟨a, f, h, o, n⟩ := s
      obtain ⟨a', f', h', o', n'⟩ := t
      obtain rfl : a = a' := ha
      obtain rfl : n = n' := hd
      cases i with
      | construct sel => rfl
      | sum => rfl
      | reset => rfl
      | write k data =>
        simp only [bodyOf, writeBody, State.drain, State.drainWith]
        by_cases hl : 32 ≤ (State.append (dataBytes k data) ⟨a, f, h, o, n⟩).length
        · have hl' : 32 ≤ (State.append (dataBytes k data) ⟨a, f', h', o', n⟩).length := hl
          rw [if_pos hl, if_pos hl']; rfl
        · have hl' : ¬ 32 ≤ (State.append (dataBytes k data) ⟨a, f', h', o', n⟩).length := hl
          rw [if_neg hl, if_neg hl']; rfl

/-- `h'` is the chaining value that command `i` writes: a WRITE's Step over its block, SUM's digest. -/
def WorkRight (i : Instr) (h' : Word256) (s : State) : Prop :=
  match i with
  | .construct _ => True
  | .write n data =>
    32 ≤ (s.append (dataBytes n data)).length →
      h' = stepFunction s.sboxSel s.h (firstBlock (s.append (dataBytes n data)))
  | .sum => h' = s.sumDigest
  | .reset => True

/-- The command in progress will deliver the chaining value it has to write. -/
def FlightRight (s : State) : Prop :=
  s.flight.phase = .start ∨
    ∀ i, latched s = .ok i → commandError i s = none → WorkRight i (s.flight.finalHs s.sboxSel) s

/-- Two hidden states of one command, with the same age and the same responses behind them. -/
structure Flight.SameCommand (f g : Flight) : Prop where
  word  : g.word = f.word
  data  : g.data = f.data
  draw  : g.draw = f.draw
  age   : g.age = f.age
  times : g.times = f.times

theorem sameCommand_beginBody (i : Instr) (s : State) : s.flight.SameCommand (beginBody i s) := by
  unfold beginBody
  split
  · exact ⟨rfl, rfl, rfl, rfl, rfl⟩
  · exact ⟨rfl, rfl, rfl, rfl, rfl⟩
  · split <;> exact ⟨rfl, rfl, rfl, rfl, rfl⟩
  · split <;> exact ⟨rfl, rfl, rfl, rfl, rfl⟩

theorem sameCommand_beginWork (s : State) : s.flight.SameCommand (beginWork s) := by
  unfold beginWork
  split
  · exact ⟨rfl, rfl, rfl, rfl, rfl⟩
  · split
    · exact ⟨rfl, rfl, rfl, rfl, rfl⟩
    · exact sameCommand_beginBody _ s

theorem sameCommand_mixMove (f : Flight) (stage : MixStage) (left : Nat) : f.SameCommand (f.mixMove stage left) := by
  cases left with
  | succ n => exact ⟨rfl, rfl, rfl, rfl, rfl⟩
  | zero =>
    cases stage with
    | first => exact ⟨rfl, rfl, rfl, rfl, rfl⟩
    | second => exact ⟨rfl, rfl, rfl, rfl, rfl⟩
    | third =>
      show f.SameCommand (f.endStep f.y)
      unfold Flight.endStep
      split <;> exact ⟨rfl, rfl, rfl, rfl, rfl⟩

/-- The block's own moves are moves of one command, and take no time. -/
theorem sameCommand_ownFlight (s : State) : s.flight.SameCommand (ownFlight s) := by
  unfold ownFlight
  split
  · exact sameCommand_beginWork s
  · exact ⟨rfl, rfl, rfl, rfl, rfl⟩
  · exact ⟨rfl, rfl, rfl, rfl, rfl⟩
  · exact ⟨rfl, rfl, rfl, rfl, rfl⟩
  · exact sameCommand_mixMove _ _ _
  · exact ⟨rfl, rfl, rfl, rfl, rfl⟩

theorem workRight_beginBody (i : Instr) (s : State) : WorkRight i ((beginBody i s).finalHs s.sboxSel) s := by
  cases i with
  | construct sel => trivial
  | reset => trivial
  | write n data =>
    intro hl
    simp only [beginBody, if_pos hl]
    rw [finalHs_startStep]
    rfl
  | sum =>
    show _ = s.sumDigest
    unfold State.sumDigest beginBody
    dsimp only
    split
    · rw [finalHs_startStep]; rfl
    · rw [finalHs_startStep]; rfl

/-- A command that commits the right chaining value writes what `Execute` writes (45_digest_engine.md R221, 20_memory.md
R62). -/
theorem complete_eq_execute {s : State}
    (h : ∀ i, latched s = .ok i → commandError i s = none → WorkRight i s.flight.hs s) :
    ∃ u, execute s.flight.word s.flight.data s.land = .next u ∧ s.complete.toArch = u.toArch := by
  unfold execute State.complete State.commitWrites
  unfold latched at h ⊢
  cases hd : decode s.flight.word s.flight.data with
  | error e => exact ⟨_, rfl, rfl⟩
  | ok i =>
    dsimp only
    rw [exec_eq, commandError_congr i (s := s.land) (t := s) rfl]
    cases hc : commandError i s with
    | some e => exact ⟨_, rfl, rfl⟩
    | none =>
      refine ⟨_, rfl, ?_⟩
      have hw := h i hd hc
      dsimp only
      cases i with
      | construct sel => rfl
      | reset => rfl
      | sum =>
        have hw : s.flight.hs = s.sumDigest := hw
        simp only [commitBody]
        rw [hw]
        rfl
      | write n data =>
        simp only [commitBody]
        rw [State.drainWith_congr (h₂ := stepFunction s.sboxSel s.h (firstBlock (s.append (dataBytes n data)))) hw]
        simp only [bodyOf, writeBody, State.drain, State.drainWith]
        by_cases hl : 32 ≤ (s.append (dataBytes n data)).length
        · have hl' : 32 ≤ (s.land.append (dataBytes n data)).length := hl
          rw [if_pos hl, if_pos hl']; rfl
        · have hl' : ¬ 32 ≤ (s.land.append (dataBytes n data)).length := hl
          rw [if_neg hl, if_neg hl']; rfl

/-- What one own move keeps, any number of them keeps. -/
theorem ownMoves_induct {P : State → Prop} (step : ∀ s, P s → P (s.setFlight (ownFlight s))) (n : Nat) {s : State}
    (h : P s) : P (ownMoves n s) := by
  induction n generalizing s with
  | zero => exact h
  | succ n ih => exact ih (step s h)

/-- What the response leaves and every own move keeps holds late in the cycle. -/
theorem cycle_induct {T : Timing} {e : EdgeIn} {s : State} {P : State → Prop}
    (step : ∀ s, P s → P (s.setFlight (ownFlight s))) (h : P (s.setFlight (receiveFlight e s))) : P (cycle T e s) :=
  ownMoves_induct step _ h

theorem ownMoves_eq (n : Nat) (s : State) :
    ownMoves n s = s.setFlight (ownMoves n s).flight ∧ s.flight.SameCommand (ownMoves n s).flight := by
  refine ownMoves_induct (P := fun u => u = s.setFlight u.flight ∧ s.flight.SameCommand u.flight) ?_ n
    ⟨rfl, rfl, rfl, rfl, rfl, rfl⟩
  rintro u ⟨hu, hk⟩
  have hk' := sameCommand_ownFlight u
  refine ⟨?_, hk'.word.trans hk.word, hk'.data.trans hk.data, hk'.draw.trans hk.draw, hk'.age.trans hk.age,
    hk'.times.trans hk.times⟩
  rw [hu]
  rfl

/-- A cycle moves the hidden state and nothing else. -/
theorem cycle_eq (T : Timing) (e : EdgeIn) (s : State) : cycle T e s = s.setFlight (cycle T e s).flight :=
  (ownMoves_eq _ _).1

theorem cycle_toArch (T : Timing) (e : EdgeIn) (s : State) : (cycle T e s).toArch = s.toArch := by
  rw [cycle_eq]; rfl

theorem sameCommand_cycle (T : Timing) (e : EdgeIn) (s : State) :
    (receiveFlight e s).SameCommand (cycle T e s).flight :=
  (ownMoves_eq _ (s.setFlight (receiveFlight e s))).2

/-- The cipher port read, the command is the same and no time has passed. -/
theorem receiveFlight_kept (e : EdgeIn) (s : State) :
    (receiveFlight e s).word = s.flight.word ∧ (receiveFlight e s).data = s.flight.data ∧
      (receiveFlight e s).draw = s.flight.draw ∧ (receiveFlight e s).age = s.flight.age := by
  unfold receiveFlight
  split
  · exact ⟨rfl, rfl, rfl, rfl⟩
  · exact ⟨rfl, rfl, rfl, rfl⟩
  · exact ⟨rfl, rfl, rfl, rfl⟩
  · split
    · unfold Flight.takeResponse
      dsimp only
      split <;> exact ⟨rfl, rfl, rfl, rfl⟩
    · exact ⟨rfl, rfl, rfl, rfl⟩
  · exact ⟨rfl, rfl, rfl, rfl⟩
  · exact ⟨rfl, rfl, rfl, rfl⟩

/-- The hidden state after one edge of work that does not complete the command. -/
def nextFlight (T : Timing) (e : EdgeIn) (s : State) : Flight := transferFlight T e (cycle T e s)

theorem offering_eq_some {T : Timing} {c : State} {i : Fin 4} :
    offering T c = some i ↔ c.flight.phase = .offer i ∧ rested T c = true := by
  unfold offering
  cases hp : c.flight.phase with
  | offer j =>
    dsimp only
    split
    · rename_i h; simp [h]
    · rename_i h; simp [h]
  | start => simp
  | keys j => simp
  | await j => simp
  | mix st l => simp
  | done => simp

theorem finishing_iff {T : Timing} {c : State} :
    finishing T c = true ↔ c.flight.phase = .done ∧ rested T c = true := by
  unfold finishing
  simp

/-- The edge takes the request on the port, or only time passes. -/
theorem transferFlight_cases (T : Timing) (e : EdgeIn) (c : State) :
    (∃ i, offering T c = some i ∧ e.cipReqReady = true ∧
      transferFlight T e c = { c.flight with phase := .await i, waited := 0, age := c.flight.age + 1 }) ∨
    ((offering T c = none ∨ e.cipReqReady = false) ∧
      transferFlight T e c = { c.flight with age := c.flight.age + 1 }) := by
  unfold transferFlight
  cases offering T c with
  | none => exact .inr ⟨.inl rfl, rfl⟩
  | some i =>
    cases e.cipReqReady with
    | true => exact .inl ⟨i, rfl, rfl, rfl⟩
    | false => exact .inr ⟨.inr rfl, rfl⟩

theorem nextFlight_kept (T : Timing) (e : EdgeIn) (s : State) : (nextFlight T e s).word = s.flight.word ∧
    (nextFlight T e s).data = s.flight.data ∧ (nextFlight T e s).draw = s.flight.draw ∧
    (nextFlight T e s).age = s.flight.age + 1 ∧ (nextFlight T e s).times = (receiveFlight e s).times := by
  have h := sameCommand_cycle T e s
  obtain ⟨hw, hd, hn, ha⟩ := receiveFlight_kept e s
  unfold nextFlight
  rcases transferFlight_cases T e (cycle T e s) with ⟨i, -, -, ht⟩ | ⟨-, ht⟩ <;> rw [ht] <;>
    exact ⟨h.word.trans hw, h.data.trans hd, h.draw.trans hn, congrArg (· + 1) (h.age.trans ha), h.times⟩

/-- One edge's work either completes the command or moves the hidden state and nothing else. -/
theorem workEdge_cases (T : Timing) (e : EdgeIn) (s : State) :
    (finishing T (cycle T e s) = true ∧ workEdge T e s = (cycle T e s).complete) ∨
      (finishing T (cycle T e s) = false ∧ workEdge T e s = s.setFlight (nextFlight T e s)) := by
  cases h : finishing T (cycle T e s) with
  | true => exact .inl ⟨rfl, if_pos h⟩
  | false =>
    refine .inr ⟨rfl, ?_⟩
    rw [show workEdge T e s = (cycle T e s).setFlight (nextFlight T e s) from if_neg (by rw [h]; decide)]
    conv_lhs => arg 2; rw [cycle_eq]
    rfl

theorem complete_busy (s : State) : s.complete.busy = false := rfl

/-- Work that does not complete the command changes no register (20_memory.md R62). -/
theorem edge_not_completing {T : Timing} {e : EdgeIn} {s t : State} (h : edge T e s = .next t) (hb : s.busy = true)
    (hr : e.rstN = true) (ht : t.busy = true) :
    t.toArch = s.toArch ∧ t.flight = nextFlight T e s ∧ finishing T (cycle T e s) = false := by
  have ht' := edge_busy h hb hr
  rcases workEdge_cases T e s with ⟨hp, hc⟩ | ⟨hn, hc⟩
  · rw [hc] at ht'
    rw [ht'] at ht
    cases ht
  · rw [hc] at ht'
    rw [ht']
    exact ⟨rfl, rfl, hn⟩

/-- Work that ends with BUSY = 0 is the completion. -/
theorem edge_completing {T : Timing} {e : EdgeIn} {s t : State} (h : edge T e s = .next t) (hb : s.busy = true)
    (hr : e.rstN = true) (ht : t.busy = false) :
    finishing T (cycle T e s) = true ∧ t.toArch = (cycle T e s).complete.toArch := by
  have ht' := edge_busy h hb hr
  rcases workEdge_cases T e s with ⟨hp, hc⟩ | ⟨hn, hc⟩
  · rw [hc] at ht'
    exact ⟨hp, by rw [ht']⟩
  · rw [hc] at ht'
    rw [ht'] at ht
    exact absurd (hb.symm.trans ht) (by decide)

/-- The block's own moves keep the chaining value to come. -/
theorem finalHs_ownFlight {s : State} (hp : s.flight.phase ≠ .start) :
    (ownFlight s).finalHs s.sboxSel = s.flight.finalHs s.sboxSel := by
  unfold ownFlight
  cases h : s.flight.phase with
  | start => exact absurd h hp
  | keys j => exact finalHs_makeKey _ _ _ h
  | offer i => rfl
  | await i => rfl
  | mix stage left => exact finalHs_mixMove _ _ _ _ h
  | done => rfl

/-- The cipher keeping its contract, a response keeps the chaining value to come. -/
theorem finalHs_receiveFlight {e : EdgeIn} {s : State} (hb : s.busy = true) (hc : CipherAnswers e s) :
    (receiveFlight e s).finalHs s.sboxSel = s.flight.finalHs s.sboxSel := by
  unfold receiveFlight
  cases h : s.flight.phase with
  | start => rfl
  | keys j => rfl
  | offer i => rfl
  | await i =>
    dsimp only
    split
    · rename_i hv
      have ho : cipherOutstanding s = some (request s i) := by
        unfold cipherOutstanding
        rw [hb, h]
        rfl
      rw [hc _ ho hv]
      exact finalHs_takeResponse _ _ _ h
    · unfold Flight.finalHs
      rw [h]
      rfl
  | mix stage left => rfl
  | done => rfl

/-- Taking a request keeps the chaining value to come. -/
theorem finalHs_transferFlight (T : Timing) (e : EdgeIn) (c : State) (sel : BitVec 4) :
    (transferFlight T e c).finalHs sel = c.flight.finalHs sel := by
  rcases transferFlight_cases T e c with ⟨i, ho, -, ht⟩ | ⟨-, ht⟩
  · rw [ht, Flight.finalHs, Flight.finalHs, (offering_eq_some.mp ho).1]
    rfl
  · rw [ht]
    rfl

/-- What a command writes depends on the architectural state alone. -/
theorem workRight_congr {i : Instr} {x : Word256} {s t : State} (ha : t.toArch = s.toArch) (h : WorkRight i x s) :
    WorkRight i x t := by
  obtain ⟨a, f, o, g, n⟩ := s
  obtain ⟨a', f', o', g', n'⟩ := t
  obtain rfl : a' = a := ha
  cases i <;> exact h

/-- The pipeline's invariant passes to a hidden state of the same command with the same chaining value to come. -/
theorem flightRight_of_finalHs {s : State} {f : Flight} (hw : f.word = s.flight.word) (hd : f.data = s.flight.data)
    (hp : s.flight.phase = .start → f.phase = .start)
    (hf : f.finalHs s.sboxSel = s.flight.finalHs s.sboxSel) (h : FlightRight s) : FlightRight (s.setFlight f) := by
  rcases h with h | h
  · exact .inl (hp h)
  · right
    intro i hi he
    have hl : latched (s.setFlight f) = latched s := by
      show decode f.word f.data = decode _ _
      rw [hw, hd]
    have := h i (hl.symm.trans hi) ((commandError_congr i rfl).trans he)
    rw [← hf] at this
    exact workRight_congr rfl this

theorem flightRight_own (s : State) (h : FlightRight s) : FlightRight (s.setFlight (ownFlight s)) := by
  by_cases hp : s.flight.phase = .start
  · have ho : ownFlight s = beginWork s := by unfold ownFlight; rw [hp]
    right
    intro i hi he
    have hk := sameCommand_ownFlight s
    have hl : latched s = .ok i := by
      rw [← hi]
      show decode _ _ = decode (ownFlight s).word (ownFlight s).data
      rw [hk.word, hk.data]
    have he' : commandError i s = none := (commandError_congr i rfl).trans he
    have hb : ownFlight s = beginBody i s := by
      rw [ho]
      unfold beginWork
      rw [hl]
      dsimp only
      rw [he']
    apply workRight_congr (s := s) rfl
    show WorkRight i ((ownFlight s).finalHs s.sboxSel) s
    rw [hb]
    exact workRight_beginBody i s
  · have hk := sameCommand_ownFlight s
    exact flightRight_of_finalHs hk.word hk.data (fun h => absurd h hp) (finalHs_ownFlight hp) h

/-- The pipeline's invariant holds late in the cycle. -/
theorem flightRight_cycle {T : Timing} {e : EdgeIn} {s : State} (hb : s.busy = true) (hc : CipherAnswers e s)
    (h : FlightRight s) : FlightRight (cycle T e s) := by
  refine cycle_induct flightRight_own ?_
  obtain ⟨hw, hd, -, -⟩ := receiveFlight_kept e s
  refine flightRight_of_finalHs hw hd (fun hp => ?_) (finalHs_receiveFlight hb hc) h
  unfold receiveFlight
  rw [hp]
  exact hp

/-- The pipeline's invariant is kept at every edge of a command's run. -/
theorem flightRight_edge {T : Timing} {e : EdgeIn} {s t : State} (h : edge T e s = .next t) (hb : s.busy = true)
    (hr : e.rstN = true) (hc : CipherAnswers e s) (ht : t.busy = true) (hf : FlightRight s) : FlightRight t := by
  obtain ⟨ha, hfl, -⟩ := edge_not_completing h hb hr ht
  have hcy := flightRight_cycle (T := T) hb hc hf
  have hn : FlightRight ((cycle T e s).setFlight (nextFlight T e s)) := by
    refine flightRight_of_finalHs ?_ ?_ ?_ (finalHs_transferFlight T e _ _) hcy
    · unfold nextFlight
      rcases transferFlight_cases T e (cycle T e s) with ⟨i, -, -, ht⟩ | ⟨-, ht⟩ <;> rw [ht]
    · unfold nextFlight
      rcases transferFlight_cases T e (cycle T e s) with ⟨i, -, -, ht⟩ | ⟨-, ht⟩ <;> rw [ht]
    · intro hp
      unfold nextFlight
      rcases transferFlight_cases T e (cycle T e s) with ⟨i, ho, -, -⟩ | ⟨-, ht⟩
      · rw [(offering_eq_some.mp ho).1] at hp; cases hp
      · rw [ht]; exact hp
  have hta : t.toArch = ((cycle T e s).setFlight (nextFlight T e s)).toArch := ha.trans (cycle_toArch T e s).symm
  rcases hn with hn | hn
  · left; rw [hfl]; exact hn
  · right
    intro i hi he
    have hl : latched ((cycle T e s).setFlight (nextFlight T e s)) = .ok i := by
      rw [← hi]; unfold latched; rw [hfl]; rfl
    have := hn i hl ((commandError_congr i (by rw [hta])).trans he)
    rw [hfl, show t.sboxSel = (cycle T e s).sboxSel from congrArg Arch.sboxSel hta]
    exact workRight_congr hta this

/-- A run to completion leaves what `Execute` leaves (20_memory.md R62). -/
theorem commandRun_execute {T : Timing} {es : List EdgeIn} {s t : State} (h : CommandRun T es s t) (hb : s.busy = true)
    (hf : FlightRight s) :
    ∃ u, execute s.flight.word s.flight.data s.land = .next u ∧ t.toArch = u.toArch := by
  induction es generalizing s with
  | nil => exact absurd (hb.symm.trans h.1) (by decide)
  | cons e es ih =>
    obtain ⟨-, hr, hc, s', he, hrun⟩ := h
    -- what the command in progress executes to is the same for `s'` and for the state late in the cycle as for `s`
    have same : ∀ v : State, v.toArch = s.toArch → v.flight.word = s.flight.word → v.flight.data = s.flight.data →
        v.flight.draw = s.flight.draw → ∀ u, execute v.flight.word v.flight.data v.land = .next u →
        ∃ u', execute s.flight.word s.flight.data s.land = .next u' ∧ u.toArch = u'.toArch := by
      intro v ha hw hd hn u hu
      rw [hw, hd] at hu
      obtain ⟨u₁, u₂, h₁, h₂, h₁₂⟩ := execute_arch_congr (w := s.flight.word) (d := s.flight.data)
        (s := v.land) (t := s.land)
        (by show { v.toArch with busy := false } = { s.toArch with busy := false }; rw [ha]) hn
      rw [h₁] at hu
      injection hu with hu
      exact ⟨u₂, h₂, by rw [← hu, h₁₂]⟩
    cases hb' : s'.busy with
    | false =>
      have hts : t = s' := by
        cases es with
        | nil => exact hrun.2
        | cons e' es' => exact absurd (hrun.1.symm.trans hb') (by decide)
      obtain ⟨hp, ha⟩ := edge_completing he hb hr hb'
      have hw : ∀ i, latched (cycle T e s) = .ok i → commandError i (cycle T e s) = none →
          WorkRight i (cycle T e s).flight.hs (cycle T e s) := by
        intro i hi hn
        have hd := (finishing_iff.mp hp).1
        rcases flightRight_cycle (T := T) hb hc hf with hs | hf
        · rw [hd] at hs; cases hs
        · have := hf i hi hn
          rwa [Flight.finalHs, hd] at this
      obtain ⟨u, hu, hau⟩ := complete_eq_execute hw
      have hk := sameCommand_cycle T e s
      obtain ⟨kw, kd, kn, -⟩ := receiveFlight_kept e s
      obtain ⟨u', hu', huu⟩ := same _ (cycle_toArch T e s) (hk.word.trans kw) (hk.data.trans kd) (hk.draw.trans kn) u hu
      exact ⟨u', hu', by rw [hts, ha, hau, huu]⟩
    | true =>
      obtain ⟨ha, hfl, -⟩ := edge_not_completing he hb hr hb'
      obtain ⟨kw, kd, kn, -⟩ := nextFlight_kept T e s
      obtain ⟨u, hu, htu⟩ := ih hrun hb' (flightRight_edge he hb hr hc hb' hf)
      obtain ⟨u', hu', huu⟩ := same s' ha (by rw [hfl, kw]) (by rw [hfl, kd]) (by rw [hfl, kn]) u hu
      exact ⟨u', hu', by rw [htu, huu]⟩

end Sys2Proof.Machine
end

