-- ==== Sys2Proof/Laws/PerInstr.lean ====
section
/-! SUPPORT. The family RoundTrip: decoding an encoded well-formed command gives it back, one lemma per constructor. -/

namespace Sys2Proof.Laws.RoundTrip

/-- Decoding the encoded command gives it back, when it is well-formed. -/
def Statement (i : Instr) : Prop := i.wellFormed = true → decode (encode i).1 (encode i).2 = .ok i

theorem construct (sel : BitVec 4) : Statement (.construct sel) := by
  intro _
  simp only [encode, decode, fieldOp_packWord, fieldN_packWord, fieldSel_packWord, fieldRsvd_packWord]
  simp

theorem write (n : BitVec 4) (data : Word64) : Statement (.write n data) := by
  intro h
  simp only [Instr.wellFormed, decide_eq_true_eq] at h
  simp only [encode, decode, fieldOp_packWord, fieldN_packWord, fieldSel_packWord, fieldRsvd_packWord]
  simp [h]

theorem sum : Statement .sum := fun _ => rfl

theorem reset : Statement .reset := fun _ => rfl

end Sys2Proof.Laws.RoundTrip
end

