-- ==== Sys2Proof/Laws/Run.lean ====
section
/-! SUPPORT. Accounts of a command in progress: when its rest is over and its own moves have settled, the cipher requests
to come, the edges they need, the productive edges to come, and the key unit's contents. Each is said of a response, of
one own move and of the edge that ends the cycle, and then of an edge. -/

namespace Sys2Proof.Machine

/-! ## The shape of a command and its rest -/

theorem shapeOf_congr (w : Word32) (d : Word64) {s t : State} (ha : s.toArch = t.toArch) :
    shapeOf w d s = shapeOf w d t := by
  unfold shapeOf
  cases decode w d with
  | error e => rfl
  | ok i =>
    dsimp only
    rw [commandError_congr i (t := t) (by rw [ha])]
    obtain ⟨a, f, h, o, n⟩ := s
    obtain ⟨a', f', h', o', n'⟩ := t
    obtain rfl : a = a' := ha
    cases i <;> rfl

theorem shape_congr {s t : State} (ha : s.toArch = t.toArch) (hw : s.flight.word = t.flight.word)
    (hd : s.flight.data = t.flight.data) : shape s = shape t := by
  unfold shape
  rw [hw, hd, shapeOf_congr _ _ ha]

/-- A hidden state of the same command has its shape. -/
theorem shape_setFlight {s : State} {f : Flight} (h : s.flight.SameCommand f) : shape (s.setFlight f) = shape s :=
  shape_congr rfl h.word h.data

theorem shape_receive (e : EdgeIn) (s : State) : shape (s.setFlight (receiveFlight e s)) = shape s :=
  shape_congr rfl (receiveFlight_kept e s).1 (receiveFlight_kept e s).2.1

theorem shape_cycle (T : Timing) (e : EdgeIn) (s : State) : shape (cycle T e s) = shape s := by
  rw [cycle_eq]
  have h := shape_setFlight (s := s.setFlight (receiveFlight e s)) (sameCommand_cycle T e s)
  exact h.trans (shape_receive e s)

theorem shape_next {T : Timing} {e : EdgeIn} {s t : State} (ha : t.toArch = s.toArch)
    (hf : t.flight = nextFlight T e s) : shape t = shape s :=
  shape_congr ha (by rw [hf, (nextFlight_kept T e s).1]) (by rw [hf, (nextFlight_kept T e s).2.1])

theorem rested_congr (T : Timing) {s t : State} (hs : shape s = shape t) (ht : s.flight.times = t.flight.times)
    (ha : s.flight.age = t.flight.age) : rested T s = rested T t := by
  unfold rested
  rw [hs, ht, ha]

/-- The block's own moves take no time: the rest is over late in the cycle if it was over when the port had been read. -/
theorem rested_cycle (T : Timing) (e : EdgeIn) (s : State) :
    rested T (cycle T e s) = rested T (s.setFlight (receiveFlight e s)) :=
  rested_congr T ((shape_cycle T e s).trans (shape_receive e s).symm) (sameCommand_cycle T e s).times
    (sameCommand_cycle T e s).age

/-- A rest that is over stays over while no response comes. -/
theorem rested_later (T : Timing) {s t : State} (hs : shape t = shape s) (ht : t.flight.times = s.flight.times)
    (ha : s.flight.age ≤ t.flight.age) (h : rested T s = true) : rested T t = true := by
  unfold rested at *
  rw [hs, ht]
  simp only [decide_eq_true_eq] at *
  omega

/-! ## Own moves settle -/

/-- The first move either ends the work, no Step to run, or begins a command's Steps. -/
theorem beginWork_cases (s : State) :
    (beginWork s = { s.flight with phase := .done } ∧ (shape s).steps = 0) ∨
    ∃ i, beginWork s = beginBody i s ∧ (shape s).steps = stepCount i s := by
  unfold beginWork shape shapeOf latched
  cases decode s.flight.word s.flight.data with
  | error e => exact .inl ⟨rfl, rfl⟩
  | ok i =>
    dsimp only
    cases hc : commandError i s with
    | some e => exact .inl ⟨rfl, by rw [if_neg (by simp)]⟩
    | none => exact .inr ⟨i, rfl, by rw [if_pos rfl]⟩

/-- Where the first move leads: to the end of the work, or to the keys of the first Step, as the number of Steps says. -/
theorem beginWork_phase (s : State) :
    ((beginWork s).phase = .done ∧ (shape s).steps = 0) ∨
    ((beginWork s).phase = .keys 0 ∧ (shape s).steps ≠ 0 ∧
      (beginWork s).job = if (shape s).steps = 1 then .block else if (shape s).steps = 3 then .tail else .length) := by
  rcases beginWork_cases s with ⟨h1, h2⟩ | ⟨i, h1, h2⟩
  · exact .inl ⟨by rw [h1], h2⟩
  · rw [h1, h2]
    unfold beginBody stepCount
    cases i with
    | construct _ => exact .inl ⟨rfl, rfl⟩
    | reset => exact .inl ⟨rfl, rfl⟩
    | write k d =>
      dsimp only
      split
      · exact .inr ⟨rfl, by decide, rfl⟩
      · exact .inl ⟨rfl, rfl⟩
    | sum =>
      dsimp only
      split
      · exact .inr ⟨rfl, by decide, rfl⟩
      · exact .inr ⟨rfl, by decide, rfl⟩

theorem makeKey_phase (f : Flight) (j : Fin 4) :
    (∃ h : j.val + 1 < 4, (f.makeKey j).phase = .keys ⟨j.val + 1, h⟩) ∨ (j = 3 ∧ (f.makeKey j).phase = .offer 0) := by
  by_cases h : j.val + 1 < 4
  · exact .inl ⟨h, by simp only [Flight.makeKey, h, dif_pos]⟩
  · exact .inr ⟨by omega, by simp only [Flight.makeKey]; rw [dif_neg h]⟩

/-- Where a Step that has ended leads (45_digest_engine.md R224). -/
theorem endStep_phase (f : Flight) (x : Word256) :
    ((f.endStep x).phase = .done ∧ requestsAfter f.job = 0) ∨
    ((f.endStep x).phase = .keys 0 ∧ requestsAfter f.job = 4 + requestsAfter (f.endStep x).job) := by
  unfold Flight.endStep
  cases f.job with
  | block => exact .inl ⟨rfl, rfl⟩
  | tail => exact .inr ⟨rfl, rfl⟩
  | length => exact .inr ⟨rfl, rfl⟩
  | checksum => exact .inl ⟨rfl, rfl⟩

/-- Each own move brings the block nearer to its next request or to the end of its work. -/
theorem ownLeft_own (s : State) : ownLeft (ownFlight s) ≤ ownLeft s.flight - 1 := by
  unfold ownFlight
  cases hp : s.flight.phase with
  | start =>
    dsimp only
    rcases beginWork_phase s with ⟨h, -⟩ | ⟨h, -, -⟩ <;> simp [ownLeft, h, hp]
  | keys j =>
    dsimp only
    rcases makeKey_phase s.flight j with ⟨h, hn⟩ | ⟨h, hn⟩
    · simp only [ownLeft, hn, hp]; omega
    · simp [ownLeft, hn]
  | offer i => simp [ownLeft, hp]
  | await i => simp [ownLeft, hp]
  | done => simp [ownLeft, hp]
  | mix st l =>
    dsimp only
    cases l with
    | succ n => cases st <;> simp [ownLeft, Flight.mixMove, hp]
    | zero =>
      cases st with
      | first => simp [ownLeft, Flight.mixMove, hp]
      | second => simp [ownLeft, Flight.mixMove, hp]
      | third =>
        show ownLeft (s.flight.endStep _) ≤ _
        rcases endStep_phase s.flight s.flight.y with ⟨h, -⟩ | ⟨h, -⟩ <;> simp [ownLeft, h, hp]

theorem ownMoves_settled (n : Nat) (s : State) (h : ownLeft s.flight ≤ n) : ownLeft (ownMoves n s).flight = 0 := by
  induction n generalizing s with
  | zero => exact Nat.le_zero.mp h
  | succ n ih => exact ih _ (by have := ownLeft_own s; show ownLeft (ownFlight s) ≤ n; omega)

theorem ownLeft_eq_zero {f : Flight} (h : ownLeft f = 0) :
    (∃ i, f.phase = .offer i) ∨ (∃ i, f.phase = .await i) ∨ f.phase = .done := by
  unfold ownLeft at h
  cases hp : f.phase with
  | start => rw [hp] at h; cases h
  | keys j => rw [hp] at h; dsimp only at h; have := j.isLt; omega
  | offer i => exact .inl ⟨i, rfl⟩
  | await i => exact .inr (.inl ⟨i, rfl⟩)
  | mix st l => rw [hp] at h; cases st <;> simp at h
  | done => exact .inr (.inr rfl)

/-- Once the rest is over, the cycle ends with a request on the port, a response awaited, or the work done. -/
theorem cycle_settled {T : Timing} {e : EdgeIn} {s : State} (h : rested T (cycle T e s) = true) :
    (∃ i, (cycle T e s).flight.phase = .offer i) ∨ (∃ i, (cycle T e s).flight.phase = .await i) ∨
      (cycle T e s).flight.phase = .done := by
  apply ownLeft_eq_zero
  rw [rested_cycle] at h
  show ownLeft (ownMoves (if rested T (s.setFlight (receiveFlight e s)) then _ else 1) _).flight = 0
  rw [h, if_pos rfl]
  exact ownMoves_settled _ _ (Nat.le_refl _)

/-! ## Which phases a cycle passes through -/

theorem outstanding_iff {s : State} (hb : s.busy = true) :
    (cipherOutstanding s).isSome = true ↔ ∃ i, s.flight.phase = .await i := by
  unfold cipherOutstanding
  rw [if_pos hb]
  cases s.flight.phase <;> simp

theorem own_not_await {s : State} (h : ∀ i, s.flight.phase ≠ .await i) : ∀ i, (ownFlight s).phase ≠ .await i := by
  intro i
  unfold ownFlight
  cases hp : s.flight.phase with
  | start =>
    dsimp only
    rcases beginWork_phase s with ⟨h, -⟩ | ⟨h, -, -⟩ <;> rw [h] <;> exact Phase.noConfusion
  | keys j =>
    dsimp only
    rcases makeKey_phase s.flight j with ⟨_, hn⟩ | ⟨_, hn⟩ <;> rw [hn] <;> exact Phase.noConfusion
  | offer j => dsimp only; rw [hp]; exact Phase.noConfusion
  | await j => exact absurd hp (h j)
  | done => dsimp only; rw [hp]; exact Phase.noConfusion
  | mix st l =>
    cases l with
    | succ n => exact Phase.noConfusion
    | zero =>
      cases st with
      | first => exact Phase.noConfusion
      | second => exact Phase.noConfusion
      | third =>
        show (s.flight.endStep _).phase ≠ _
        rcases endStep_phase s.flight s.flight.y with ⟨h, -⟩ | ⟨h, -⟩ <;> rw [h] <;> exact Phase.noConfusion

/-- Own moves leave a block that awaits a response as it is. -/
theorem ownMoves_await (n : Nat) {s : State} {i : Fin 4} (h : s.flight.phase = .await i) : ownMoves n s = s := by
  induction n with
  | zero => rfl
  | succ n ih =>
    have : s.setFlight (ownFlight s) = s := by
      unfold ownFlight; rw [h]; rfl
    show ownMoves n (s.setFlight (ownFlight s)) = s
    rw [this, ih]

/-- Own moves leave a block with a request on the port as it is. -/
theorem ownMoves_offer (n : Nat) {s : State} {i : Fin 4} (h : s.flight.phase = .offer i) : ownMoves n s = s := by
  induction n with
  | zero => rfl
  | succ n ih =>
    have : s.setFlight (ownFlight s) = s := by
      unfold ownFlight; rw [h]; rfl
    show ownMoves n (s.setFlight (ownFlight s)) = s
    rw [this, ih]

/-- Nothing is received where no response is awaited. -/
theorem receiveFlight_of_not_await {s : State} (e : EdgeIn) (h : ∀ i, s.flight.phase ≠ .await i) :
    receiveFlight e s = s.flight := by
  unfold receiveFlight
  cases hp : s.flight.phase with
  | await i => exact absurd hp (h i)
  | start => rfl
  | keys j => rfl
  | offer i => rfl
  | mix st l => rfl
  | done => rfl

theorem receiveFlight_response {s : State} {e : EdgeIn} {i : Fin 4} (h : s.flight.phase = .await i)
    (hv : e.cipRspValid = true) : receiveFlight e s = s.flight.takeResponse i e.cipRspBlock := by
  unfold receiveFlight
  rw [h]
  dsimp only
  rw [if_pos hv]

theorem receiveFlight_wait {s : State} {e : EdgeIn} {i : Fin 4} (h : s.flight.phase = .await i)
    (hv : e.cipRspValid = false) : receiveFlight e s = { s.flight with waited := s.flight.waited + 1 } := by
  unfold receiveFlight
  rw [h]
  dsimp only
  rw [if_neg (by rw [hv]; decide)]

/-- With no response in it, a cycle that begins with a response awaited ends so. -/
theorem cycle_wait (T : Timing) {s : State} {e : EdgeIn} {i : Fin 4} (h : s.flight.phase = .await i)
    (hv : e.cipRspValid = false) :
    cycle T e s = s.setFlight { s.flight with waited := s.flight.waited + 1 } := by
  unfold cycle
  dsimp only
  rw [receiveFlight_wait h hv]
  exact ownMoves_await _ (i := i) h

/-- A cycle that begins with a request on the port ends so. -/
theorem cycle_offer (T : Timing) {s : State} (e : EdgeIn) {i : Fin 4} (h : s.flight.phase = .offer i) :
    cycle T e s = s := by
  unfold cycle
  dsimp only
  rw [receiveFlight_of_not_await e (fun j hj => by rw [h] at hj; cases hj)]
  exact ownMoves_offer _ (i := i) h

theorem takeResponse_phase (f : Flight) (i : Fin 4) (b : Word64) :
    (∃ h : i.val + 1 < 4, (f.takeResponse i b).phase = .offer ⟨i.val + 1, h⟩) ∨
    (i = 3 ∧ (f.takeResponse i b).phase = .mix .first 12) := by
  unfold Flight.takeResponse
  dsimp only
  by_cases h : i.val + 1 < 4
  · exact .inl ⟨h, by rw [dif_pos h]⟩
  · exact .inr ⟨by omega, by rw [dif_neg h]⟩

theorem takeResponse_kept (f : Flight) (i : Fin 4) (b : Word64) :
    (f.takeResponse i b).job = f.job ∧ (f.takeResponse i b).times = f.age :: f.times ∧
      (f.takeResponse i b).age = f.age := by
  unfold Flight.takeResponse
  dsimp only
  split <;> exact ⟨rfl, rfl, rfl⟩

/-- Late in the cycle a response is awaited only if one was awaited before and has not come. -/
theorem cycle_await {T : Timing} {s : State} {e : EdgeIn} {i : Fin 4} (h : (cycle T e s).flight.phase = .await i) :
    s.flight.phase = .await i ∧ e.cipRspValid = false := by
  by_cases ha : ∃ j, s.flight.phase = .await j
  · obtain ⟨j, hj⟩ := ha
    cases hv : e.cipRspValid with
    | false =>
      rw [cycle_wait T hj hv] at h
      exact ⟨hj.trans (hj.symm.trans h), rfl⟩
    | true =>
      refine absurd h (cycle_induct (P := fun u => ∀ i, u.flight.phase ≠ .await i) (fun u hu => own_not_await hu) ?_ i)
      intro k
      show (receiveFlight e s).phase ≠ _
      rw [receiveFlight_response hj hv]
      rcases takeResponse_phase s.flight j e.cipRspBlock with ⟨_, hp⟩ | ⟨_, hp⟩ <;> rw [hp] <;> exact Phase.noConfusion
  · have hn : ∀ j, s.flight.phase ≠ .await j := fun j hj => ha ⟨j, hj⟩
    refine absurd h (cycle_induct (P := fun u => ∀ i, u.flight.phase ≠ .await i) (fun u hu => own_not_await hu) ?_ i)
    intro k
    show (receiveFlight e s).phase ≠ _
    rw [receiveFlight_of_not_await e hn]
    exact hn k

/-! ## The request on the port -/

theorem cipherOffer_eq_some {T : Timing} {e : EdgeIn} {s : State} {r : CipherRequest} :
    cipherOffer T e s = some r ↔ e.rstN = true ∧ s.busy = true ∧
      ∃ i, offering T (cycle T e s) = some i ∧ r = request (cycle T e s) i := by
  unfold cipherOffer
  cases e.rstN <;> cases s.busy <;> simp [eq_comm]

theorem cipherOffer_isSome {T : Timing} {e : EdgeIn} {s : State} (hr : e.rstN = true) (hb : s.busy = true) :
    (cipherOffer T e s).isSome = (offering T (cycle T e s)).isSome := by
  unfold cipherOffer
  rw [hr, hb]
  simp

/-! ## Requests to come -/

theorem requestsLeft_own (s : State) : (ownFlight s).requestsLeft (4 * (shape s).steps) =
    s.flight.requestsLeft (4 * (shape s).steps) := by
  unfold ownFlight
  cases hp : s.flight.phase with
  | start =>
    dsimp only
    rcases beginWork_phase s with ⟨h, hs⟩ | ⟨h, hs, hj⟩
    · simp [Flight.requestsLeft, h, hp, hs]
    · rcases beginWork_cases s with ⟨h1, h2⟩ | ⟨i, h1, h2⟩
      · exact absurd h2 hs
      · rw [h1, h2]
        unfold beginBody stepCount
        cases i with
        | construct _ => simp [Flight.requestsLeft, hp]
        | reset => simp [Flight.requestsLeft, hp]
        | write k d => dsimp only; split <;> simp [Flight.requestsLeft, hp, Flight.startStep, requestsAfter]
        | sum => dsimp only; split <;> simp [Flight.requestsLeft, hp, Flight.startStep, requestsAfter]
  | keys j =>
    dsimp only
    have hj : (s.flight.makeKey j).job = s.flight.job := rfl
    rcases makeKey_phase s.flight j with ⟨_, hn⟩ | ⟨_, hn⟩ <;> simp [Flight.requestsLeft, hn, hp, hj]
  | offer i => rfl
  | await i => rfl
  | done => rfl
  | mix st l =>
    cases l with
    | succ n => simp [Flight.requestsLeft, Flight.mixMove, hp]
    | zero =>
      cases st with
      | first => simp [Flight.requestsLeft, Flight.mixMove, hp]
      | second => simp [Flight.requestsLeft, Flight.mixMove, hp]
      | third =>
        show (s.flight.endStep _).requestsLeft _ = _
        rcases endStep_phase s.flight s.flight.y with ⟨h, hj⟩ | ⟨h, hj⟩ <;> simp [Flight.requestsLeft, h, hp, hj]

theorem requestsLeft_receive (e : EdgeIn) (s : State) (n : Nat) :
    (receiveFlight e s).requestsLeft n = s.flight.requestsLeft n := by
  by_cases h : ∃ i, s.flight.phase = .await i
  · obtain ⟨i, hi⟩ := h
    cases hv : e.cipRspValid with
    | false => rw [receiveFlight_wait hi hv]; simp [Flight.requestsLeft, hi]
    | true =>
      rw [receiveFlight_response hi hv]
      have hj := (takeResponse_kept s.flight i e.cipRspBlock).1
      rcases takeResponse_phase s.flight i e.cipRspBlock with ⟨_, hp⟩ | ⟨h3, hp⟩
      · simp only [Flight.requestsLeft, hp, hi, hj]; omega
      · subst h3; simp [Flight.requestsLeft, hp, hi, hj]
  · rw [receiveFlight_of_not_await e (fun i hi => h ⟨i, hi⟩)]

theorem requestsLeft_cycle (T : Timing) (e : EdgeIn) (s : State) :
    (cycle T e s).flight.requestsLeft (4 * (shape s).steps) = s.flight.requestsLeft (4 * (shape s).steps) := by
  have h : shape (cycle T e s) = shape s ∧
      (cycle T e s).flight.requestsLeft (4 * (shape s).steps) = s.flight.requestsLeft (4 * (shape s).steps) := by
    refine cycle_induct (P := fun u => shape u = shape s ∧
      u.flight.requestsLeft (4 * (shape s).steps) = s.flight.requestsLeft (4 * (shape s).steps)) ?_
      ⟨shape_receive e s, requestsLeft_receive e s _⟩
    rintro u ⟨hs, hr⟩
    refine ⟨(shape_setFlight (sameCommand_ownFlight u)).trans hs, ?_⟩
    rw [← hr, ← hs]
    exact requestsLeft_own u
  exact h.2

/-- An edge's work takes off exactly the request it transfers (40_block_cipher_port.md R114). -/
theorem requestsLeft_nextFlight (T : Timing) (e : EdgeIn) (s : State) :
    (nextFlight T e s).requestsLeft (4 * (shape s).steps) +
        (if (offering T (cycle T e s)).isSome && e.cipReqReady then 1 else 0) =
      s.flight.requestsLeft (4 * (shape s).steps) := by
  rw [← requestsLeft_cycle T e s]
  unfold nextFlight
  rcases transferFlight_cases T e (cycle T e s) with ⟨i, ho, hr, ht⟩ | ⟨ho, ht⟩
  · rw [ht, ho, hr]
    have hp := (offering_eq_some.mp ho).1
    have := i.isLt
    simp only [Flight.requestsLeft, hp, Option.isSome_some, Bool.and_self, if_true]
    omega
  · rw [ht]
    rcases ho with ho | ho <;> simp [ho, Flight.requestsLeft]

/-! ## Edges to come -/

/-- The edges that the response awaited still needs. -/
def Flight.waitNeeded (lat : Nat) (f : Flight) : Nat :=
  match f.phase with
  | .start => 0
  | .keys _ => 0
  | .offer _ => 0
  | .await _ => lat - f.waited
  | .mix _ _ => 0
  | .done => 0

/-- The edges that the requests to come need at least, each response coming `lat` cycles after its request was taken. -/
def edgesNeeded (lat : Nat) (s : State) : Nat :=
  s.flight.requestsLeft (4 * (shape s).steps) * lat + s.flight.waitNeeded lat

theorem waitNeeded_of_not_await (lat : Nat) {f : Flight} (h : ∀ i, f.phase ≠ .await i) : f.waitNeeded lat = 0 := by
  unfold Flight.waitNeeded
  cases hp : f.phase with
  | await i => exact absurd hp (h i)
  | start => rfl
  | keys j => rfl
  | offer i => rfl
  | mix st l => rfl
  | done => rfl

/-- A cycle takes off at most one of the edges needed. -/
theorem waitNeeded_cycle {T : Timing} {lat : Nat} {e : EdgeIn} {s : State} (hb : s.busy = true)
    (hl : cipherOutstanding s ≠ none → e.cipRspValid = true → lat ≤ s.flight.waited + 1) :
    s.flight.waitNeeded lat ≤ (cycle T e s).flight.waitNeeded lat + 1 := by
  by_cases ha : ∃ i, s.flight.phase = .await i
  · obtain ⟨i, hi⟩ := ha
    cases hv : e.cipRspValid with
    | false =>
      rw [cycle_wait T hi hv]
      simp only [Flight.waitNeeded, hi, State.setFlight]
      omega
    | true =>
      have := hl (by unfold cipherOutstanding; rw [hb, hi]; simp) hv
      have hn : s.flight.waitNeeded lat = lat - s.flight.waited := by simp [Flight.waitNeeded, hi]
      omega
  · rw [waitNeeded_of_not_await lat (fun i hi => ha ⟨i, hi⟩)]
    omega

/-- An edge's work takes off at most one of the edges needed. -/
theorem edgesNeeded_next {T : Timing} {lat : Nat} {e : EdgeIn} {s t : State} (hb : s.busy = true)
    (ha : t.toArch = s.toArch) (hf : t.flight = nextFlight T e s)
    (hl : cipherOutstanding s ≠ none → e.cipRspValid = true → lat ≤ s.flight.waited + 1) :
    edgesNeeded lat s ≤ edgesNeeded lat t + 1 := by
  have hc := waitNeeded_cycle (T := T) hb hl
  have hr := requestsLeft_nextFlight T e s
  unfold edgesNeeded
  rw [shape_next ha hf, hf]
  rcases transferFlight_cases T e (cycle T e s) with ⟨i, ho, hready, ht⟩ | ⟨ho, ht⟩
  · have hp := (offering_eq_some.mp ho).1
    rw [ho, hready] at hr
    simp only [Option.isSome_some, Bool.and_self, if_true] at hr
    have hw : (nextFlight T e s).waitNeeded lat = lat := by unfold nextFlight; rw [ht]; simp [Flight.waitNeeded]
    have hw' : (cycle T e s).flight.waitNeeded lat = 0 := by simp [Flight.waitNeeded, hp]
    rw [hw, ← hr, Nat.add_mul]
    omega
  · have hw : (nextFlight T e s).waitNeeded lat = (cycle T e s).flight.waitNeeded lat := by
      unfold nextFlight; rw [ht]; rfl
    have hz : (if (offering T (cycle T e s)).isSome && e.cipReqReady then 1 else 0) = 0 := by
      rcases ho with ho | ho <;> simp [ho]
    rw [hz, Nat.add_zero] at hr
    rw [hw, hr]
    omega

/-! ## Productive edges -/

/-- A productive edge brings the command nearer to its completion, and no edge takes it back. -/
theorem workLeft_next {T : Timing} {e : EdgeIn} {s t : State} (hb : s.busy = true) (hr : e.rstN = true)
    (ha : t.toArch = s.toArch) (hf : t.flight = nextFlight T e s) (hn : finishing T (cycle T e s) = false) :
    workLeft t + (if Productive T e s then 1 else 0) ≤ workLeft s := by
  have hreq := requestsLeft_nextFlight T e s
  have hbt : t.busy = true := by rw [ha]; exact hb
  unfold workLeft Productive
  rw [shape_next ha hf, cipherOffer_isSome hr hb, hn, hf]
  by_cases haw : ∃ i, s.flight.phase = .await i
  · have hos : (cipherOutstanding s).isSome = true := (outstanding_iff hb).mpr haw
    rw [hos]
    obtain ⟨i, hi⟩ := haw
    have hle : (if (cipherOutstanding t).isSome = true then 1 else 0) ≤ 1 := by split <;> omega
    cases hv : e.cipRspValid with
    | true =>
      cases htr : ((offering T (cycle T e s)).isSome && e.cipReqReady) with
      | true =>
        rw [htr] at hreq
        simp only [Bool.true_and, Bool.or_true, if_true, Bool.or_false] at hreq ⊢
        omega
      | false =>
        rw [htr] at hreq
        have hot : (cipherOutstanding t).isSome = false := by
          rw [Bool.eq_false_iff]
          intro h
          obtain ⟨j, hj⟩ := (outstanding_iff hbt).mp h
          rw [hf] at hj
          unfold nextFlight at hj
          rcases transferFlight_cases T e (cycle T e s) with ⟨k, ho, hready, -⟩ | ⟨-, ht⟩
          · rw [ho, hready] at htr; cases htr
          · rw [ht] at hj
            have := (cycle_await hj).2
            rw [hv] at this
            cases this
        rw [hot]
        simp at hreq ⊢
        omega
    | false =>
      have hno : offering T (cycle T e s) = none := by
        rw [cycle_wait T hi hv]
        unfold offering
        simp only [State.setFlight, hi]
      rw [hno] at hreq ⊢
      simp only [Option.isSome_none, Bool.false_and, Bool.and_false, Bool.or_false, if_false, Bool.false_eq_true] at hreq ⊢
      simp only [if_true]
      omega
  · have hos : (cipherOutstanding s).isSome = false := by
      rw [Bool.eq_false_iff]
      exact fun h => haw ((outstanding_iff hb).mp h)
    rw [hos]
    cases htr : ((offering T (cycle T e s)).isSome && e.cipReqReady) with
    | true =>
      rw [htr] at hreq
      have hle : (if (cipherOutstanding t).isSome = true then 1 else 0) ≤ 1 := by split <;> omega
      simp only [if_true, Bool.false_and, Bool.or_false, Bool.false_eq_true, if_false] at hreq ⊢
      omega
    | false =>
      rw [htr] at hreq
      have hot : (cipherOutstanding t).isSome = false := by
        rw [Bool.eq_false_iff]
        intro h
        obtain ⟨j, hj⟩ := (outstanding_iff hbt).mp h
        rw [hf] at hj
        unfold nextFlight at hj
        rcases transferFlight_cases T e (cycle T e s) with ⟨k, ho, hready, -⟩ | ⟨-, ht⟩
        · rw [ho, hready] at htr; cases htr
        · rw [ht] at hj
          exact haw ⟨j, (cycle_await hj).1⟩
      rw [hot]
      simp at hreq ⊢
      omega

/-- An edge that is not productive is one at which the block rests, its offer is not taken, or the response to its
request does not come. -/
theorem unproductive_cases {T : Timing} {e : EdgeIn} {s : State} (hb : s.busy = true) (hr : e.rstN = true)
    (hp : Productive T e s = false) :
    rested T (cycle T e s) = false ∨ (cipherOffer T e s ≠ none ∧ e.cipReqReady = false) ∨
      (cipherOutstanding s ≠ none ∧ e.cipRspValid = false) := by
  cases hrest : rested T (cycle T e s) with
  | false => exact .inl rfl
  | true =>
    unfold Productive at hp
    simp only [Bool.or_eq_false_iff, Bool.and_eq_false_iff] at hp
    obtain ⟨⟨h1, -⟩, h3⟩ := hp
    rcases cycle_settled hrest with ⟨i, hi⟩ | ⟨i, hi⟩ | hi
    · have ho : (cipherOffer T e s).isSome = true := by
        rw [cipherOffer_isSome hr hb, offering_eq_some.mpr ⟨hi, hrest⟩]; rfl
      rcases h1 with h1 | h1
      · rw [ho] at h1; cases h1
      · exact .inr (.inl ⟨Option.isSome_iff_ne_none.mp ho, h1⟩)
    · obtain ⟨hs, hv⟩ := cycle_await hi
      exact .inr (.inr ⟨Option.isSome_iff_ne_none.mp ((outstanding_iff hb).mpr ⟨i, hs⟩), hv⟩)
    · rw [finishing_iff.mpr ⟨hi, hrest⟩] at h3
      cases h3

/-- At an edge that is not productive time passes, and no response comes. -/
theorem unproductive_times {T : Timing} {e : EdgeIn} {s : State} (hb : s.busy = true)
    (hp : Productive T e s = false) :
    (nextFlight T e s).times = s.flight.times ∧ (nextFlight T e s).age = s.flight.age + 1 := by
  obtain ⟨-, -, -, ha, ht⟩ := nextFlight_kept T e s
  refine ⟨?_, ha⟩
  rw [ht]
  by_cases haw : ∃ i, s.flight.phase = .await i
  · obtain ⟨i, hi⟩ := haw
    have hv : e.cipRspValid = false := by
      unfold Productive at hp
      simp only [Bool.or_eq_false_iff, Bool.and_eq_false_iff] at hp
      rcases hp.1.2 with h | h
      · rw [(outstanding_iff hb).mpr ⟨i, hi⟩] at h; cases h
      · exact h
    rw [receiveFlight_wait hi hv]
  · rw [receiveFlight_of_not_await e (fun i hi => haw ⟨i, hi⟩)]

/-! ## The key unit -/

theorem keyDerive_zero (h m : Word256) : (keyDerive h m)[0] = permP (h ^^^ m) := rfl
theorem keyDerive_one (h m : Word256) : (keyDerive h m)[1] = permP (nextU 2 h ^^^ nextV m) := rfl
theorem keyDerive_two (h m : Word256) : (keyDerive h m)[2] = permP (nextU 3 (nextU 2 h) ^^^ nextV (nextV m)) := rfl
theorem keyDerive_three (h m : Word256) : (keyDerive h m)[3] =
  permP (nextU 4 (nextU 3 (nextU 2 h)) ^^^ nextV (nextV (nextV m))) := rfl

/-- The key unit's contents (41_key_derivation.md R134), said of the hidden state. -/
def FlightKeysRight (f : Flight) : Prop :=
  match f.phase with
  | .keys j =>
    (j.val ≤ 1 → f.u = f.hs ∧ f.v = f.m) ∧
    (j.val = 2 → f.u = nextU 2 f.hs ∧ f.v = nextV f.m) ∧
    (j.val = 3 → f.u = nextU 3 (nextU 2 f.hs) ∧ f.v = nextV (nextV f.m)) ∧
    ∀ i : Fin 4, i < j → f.k[i] = (keyDerive f.hs f.m)[i]
  | .offer _ => f.k = keyDerive f.hs f.m
  | .await _ => f.k = keyDerive f.hs f.m
  | .start => True
  | .mix _ _ => True
  | .done => True

theorem keysRight_startStep (job : Job) (m : Word256) (f : Flight) : FlightKeysRight (f.startStep job m) := by
  refine ⟨fun _ => ⟨rfl, rfl⟩, fun h => by exact absurd h (by decide), fun h => by exact absurd h (by decide), ?_⟩
  intro i hi
  exact absurd hi (by simp)

theorem keysRight_beginWork (s : State) : FlightKeysRight (beginWork s) := by
  unfold beginWork
  split
  · trivial
  · split
    · trivial
    · rename_i i _ _ _
      unfold beginBody
      split
      · trivial
      · trivial
      · split
        · exact keysRight_startStep _ _ _
        · trivial
      · split <;> exact keysRight_startStep _ _ _

theorem keysRight_makeKey (f : Flight) (j : Fin 4) (hp : f.phase = .keys j) (h : FlightKeysRight f) :
    FlightKeysRight (f.makeKey j) := by
  unfold FlightKeysRight at h
  rw [hp] at h
  obtain ⟨h1, h2, h3, h4⟩ := h
  match j with
  | 0 =>
    obtain ⟨hu, hv⟩ := h1 (by decide)
    rw [makeKey_zero]
    refine ⟨fun _ => ⟨hu, hv⟩, fun h => by exact absurd h (by decide), fun h => by exact absurd h (by decide), ?_⟩
    intro i hi
    have : i = 0 := by simp [Fin.lt_def] at hi; omega
    subst this
    show (f.k.set 0 _)[0] = (keyDerive f.hs f.m)[0]
    rw [set_zero_getElem, keyDerive_zero, hu, hv]
  | 1 =>
    obtain ⟨hu, hv⟩ := h1 (by decide)
    rw [makeKey_one]
    refine ⟨fun h => by exact absurd h (by decide), fun _ => ⟨by rw [hu], by rw [hv]⟩,
      fun h => by exact absurd h (by decide), ?_⟩
    intro i hi
    have hi : i = 0 ∨ i = 1 := by simp [Fin.lt_def] at hi; omega
    rcases hi with rfl | rfl
    · show (f.k.set 1 _)[0] = (keyDerive f.hs f.m)[0]
      rw [(set_one_getElem _ _).1]; exact h4 0 (by decide)
    · show (f.k.set 1 _)[1] = (keyDerive f.hs f.m)[1]
      rw [(set_one_getElem _ _).2, keyDerive_one, hu, hv]
  | 2 =>
    obtain ⟨hu, hv⟩ := h2 rfl
    rw [makeKey_two]
    refine ⟨fun h => by exact absurd h (by decide), fun h => by exact absurd h (by decide),
      fun _ => ⟨by rw [hu], by rw [hv]⟩, ?_⟩
    intro i hi
    have hi : i = 0 ∨ i = 1 ∨ i = 2 := by simp [Fin.lt_def] at hi; omega
    rcases hi with rfl | rfl | rfl
    · show (f.k.set 2 _)[0] = (keyDerive f.hs f.m)[0]
      rw [(set_two_getElem _ _).1]; exact h4 0 (by decide)
    · show (f.k.set 2 _)[1] = (keyDerive f.hs f.m)[1]
      rw [(set_two_getElem _ _).2.1]; exact h4 1 (by decide)
    · show (f.k.set 2 _)[2] = (keyDerive f.hs f.m)[2]
      rw [(set_two_getElem _ _).2.2, keyDerive_two, hu, hv]
  | 3 =>
    obtain ⟨hu, hv⟩ := h3 rfl
    rw [makeKey_three]
    show f.k.set 3 _ = keyDerive f.hs f.m
    rw [set_three_eq, hu, hv, show f.k[0] = (keyDerive f.hs f.m)[0] from h4 0 (by decide),
      show f.k[1] = (keyDerive f.hs f.m)[1] from h4 1 (by decide),
      show f.k[2] = (keyDerive f.hs f.m)[2] from h4 2 (by decide)]
    rfl

theorem keysRight_iff (s : State) : KeysRight s ↔ FlightKeysRight s.flight := Iff.rfl

theorem keysRight_own (s : State) (h : FlightKeysRight s.flight) : FlightKeysRight (ownFlight s) := by
  unfold ownFlight
  split
  · exact keysRight_beginWork s
  · exact keysRight_makeKey _ _ ‹_› h
  · exact h
  · exact h
  · rename_i st l hp
    cases l with
    | succ n => trivial
    | zero =>
      cases st with
      | first => trivial
      | second => trivial
      | third =>
        unfold Flight.mixMove Flight.endStep; dsimp only
        split
        · trivial
        · exact keysRight_startStep _ _ _
        · exact keysRight_startStep _ _ _
        · trivial
  · exact h

theorem keysRight_receive (e : EdgeIn) (s : State) (h : FlightKeysRight s.flight) :
    FlightKeysRight (receiveFlight e s) := by
  by_cases haw : ∃ i, s.flight.phase = .await i
  · obtain ⟨i, hi⟩ := haw
    have hk : s.flight.k = keyDerive s.flight.hs s.flight.m := by
      unfold FlightKeysRight at h; rw [hi] at h; exact h
    cases hv : e.cipRspValid with
    | false =>
      rw [receiveFlight_wait hi hv]
      unfold FlightKeysRight
      dsimp only
      rw [hi]
      exact hk
    | true =>
      rw [receiveFlight_response hi hv]
      unfold Flight.takeResponse
      dsimp only
      split
      · exact hk
      · trivial
  · rw [receiveFlight_of_not_await e (fun i hi => haw ⟨i, hi⟩)]
    exact h

/-- The key unit's contents are right late in the cycle. -/
theorem keysRight_cycle (T : Timing) (e : EdgeIn) (s : State) (h : FlightKeysRight s.flight) :
    FlightKeysRight (cycle T e s).flight :=
  cycle_induct (P := fun u => FlightKeysRight u.flight) keysRight_own (keysRight_receive e s h)

/-- An edge's work keeps the key unit's contents right. -/
theorem keysRight_nextFlight (T : Timing) (e : EdgeIn) (s : State) (h : FlightKeysRight s.flight) :
    FlightKeysRight (nextFlight T e s) := by
  have hc := keysRight_cycle T e s h
  unfold nextFlight
  rcases transferFlight_cases T e (cycle T e s) with ⟨i, ho, -, ht⟩ | ⟨-, ht⟩
  · rw [ht]
    unfold FlightKeysRight at hc
    rw [(offering_eq_some.mp ho).1] at hc
    exact hc
  · rw [ht]
    exact hc

/-! ## A run to completion -/

/-- The edge on which everything is ready: the request is taken and the response is there. -/
def fastEdge (s : State) : EdgeIn :=
  { rstN := true, cmdValid := false, cmdWord := 0, cmdData := 0, cipReqReady := true, cipRspValid := true
    cipRspBlock := match cipherOutstanding s with | some r => r.answer | none => 0
    readsDigest := false }

theorem cipherAnswers_fastEdge (s : State) : CipherAnswers (fastEdge s) s := by
  intro r hr _
  simp only [fastEdge, hr]

theorem edge_fastEdge (T : Timing) (s : State) :
    edge T (fastEdge s) s = .next { edgeMove T (fastEdge s) s with held := heldAfter (fastEdge s) s } := by
  rw [edge_eq_next]
  refine ⟨?_, fun h => absurd h Bool.false_ne_true, rfl⟩
  unfold breaksHold
  cases s.held <;> rfl

theorem workLeft_pos (s : State) : 1 ≤ workLeft s := by
  unfold workLeft
  omega

/-- The cycles that the block still rests if no response comes. -/
def restLeft (T : Timing) (s : State) : Nat :=
  s.flight.times.headD 0 + T (shape s) s.flight.times - s.flight.age

/-- At a fast edge the command goes on, or its rest is one cycle shorter. -/
theorem fastEdge_goes_on {T : Timing} {s t : State} (hb : s.busy = true)
    (he : edge T (fastEdge s) s = .next t) (ht : t.busy = true) :
    workLeft t < workLeft s ∨ (workLeft t ≤ workLeft s ∧ restLeft T t < restLeft T s) := by
  obtain ⟨ha, hf, hd⟩ := edge_not_completing he hb rfl ht
  have hw := workLeft_next hb rfl ha hf hd
  cases hp : Productive T (fastEdge s) s with
  | true => rw [hp, if_pos rfl] at hw; exact .inl (by omega)
  | false =>
    rw [hp] at hw
    simp only [Bool.false_eq_true, if_false, Nat.add_zero] at hw
    refine .inr ⟨hw, ?_⟩
    rcases unproductive_cases hb rfl hp with hr | ⟨-, hr⟩ | ⟨-, hr⟩
    · obtain ⟨htm, hag⟩ := unproductive_times hb hp
      have haw : ∀ i, s.flight.phase ≠ .await i := by
        intro i hi
        unfold Productive at hp
        rw [(outstanding_iff hb).mpr ⟨i, hi⟩] at hp
        simp [fastEdge] at hp
      rw [rested_cycle, receiveFlight_of_not_await _ haw] at hr
      unfold rested at hr
      unfold restLeft
      rw [shape_next ha hf, hf, htm, hag]
      have hr : ¬ s.flight.times.headD 0 + T (shape s) s.flight.times ≤ s.flight.age := of_decide_eq_false hr
      omega
    · cases hr
    · cases hr

/-- A command in progress can complete, whatever its age and its rests. -/
theorem commandRun_exists (T : Timing) (s : State) (hb : s.busy = true) : ∃ es t, CommandRun T es s t := by
  suffices h : ∀ n m, ∀ s : State, workLeft s ≤ n → restLeft T s ≤ m → s.busy = true → ∃ es t, CommandRun T es s t from
    h _ _ s (le_refl _) (le_refl _) hb
  intro n
  induction n with
  | zero =>
    intro m s hn
    have := workLeft_pos s
    omega
  | succ n ihn =>
    intro m
    induction m with
    | zero =>
      intro s hn hm hb
      obtain ⟨s', he⟩ : ∃ s', edge T (fastEdge s) s = .next s' := ⟨_, edge_fastEdge T s⟩
      cases hb' : s'.busy with
      | false => exact ⟨[fastEdge s], s', hb, rfl, cipherAnswers_fastEdge s, s', he, hb', rfl⟩
      | true =>
        rcases fastEdge_goes_on hb he hb' with h | ⟨-, h⟩
        · obtain ⟨es, t, hr⟩ := ihn _ s' (by omega) (le_refl _) hb'
          exact ⟨fastEdge s :: es, t, hb, rfl, cipherAnswers_fastEdge s, s', he, hr⟩
        · omega
    | succ m ihm =>
      intro s hn hm hb
      obtain ⟨s', he⟩ : ∃ s', edge T (fastEdge s) s = .next s' := ⟨_, edge_fastEdge T s⟩
      cases hb' : s'.busy with
      | false => exact ⟨[fastEdge s], s', hb, rfl, cipherAnswers_fastEdge s, s', he, hb', rfl⟩
      | true =>
        rcases fastEdge_goes_on hb he hb' with h | ⟨h1, h2⟩
        · obtain ⟨es, t, hr⟩ := ihn _ s' (by omega) (le_refl _) hb'
          exact ⟨fastEdge s :: es, t, hb, rfl, cipherAnswers_fastEdge s, s', he, hr⟩
        · obtain ⟨es, t, hr⟩ := ihm s' (by omega) (by omega) hb'
          exact ⟨fastEdge s :: es, t, hb, rfl, cipherAnswers_fastEdge s, s', he, hr⟩

theorem responseDelays_one (T : Timing) (es : List EdgeIn) (s : State) : ResponseDelays (1 ≤ ·) T es s := by
  induction es generalizing s with
  | nil => trivial
  | cons e es ih => exact ⟨fun _ _ => by omega, fun s' _ => ih s'⟩

end Sys2Proof.Machine
end

