-- ==== Sys2Proof/Laws/Timing.lean ====
section
/-! SUPPORT. Time: which part of a command in progress decides when it goes on (`SameControl`), kept by a response, by own
moves and by an edge; and the edge that takes a request or completes the command once the rest is over. -/

namespace Sys2Proof.Machine

/-- A command just accepted has the shape of its word and operand in the state that accepted it. -/
theorem shape_accept {a : EdgeIn} {s s₁ : State} (ha : s₁ = { acceptEdge a s with held := heldAfter a s }) :
    shape s₁ = shapeOf a.cmdWord a.cmdData s := by
  subst ha
  show shapeOf a.cmdWord a.cmdData { acceptEdge a s with held := heldAfter a s } = _
  unfold shapeOf
  cases decode a.cmdWord a.cmdData with
  | error e => rfl
  | ok i =>
    dsimp only
    rw [commandError_congr i (t := s) rfl]
    cases i <;> rfl

/-- Two commands in progress with equal control states. -/
structure SameControl (s t : State) : Prop where
  bs : s.busy = true
  bt : t.busy = true
  sh : shape s = shape t
  ph : s.flight.phase = t.flight.phase
  jb : s.flight.job = t.flight.job
  ag : s.flight.age = t.flight.age
  tm : s.flight.times = t.flight.times

theorem sameControl_iff {s t : State} : SameControl s t ↔ s.busy = true ∧ s.control = t.control := by
  unfold State.control
  constructor
  · intro h
    rw [h.bs, h.bt, h.sh, h.ph, h.jb, h.ag, h.tm]
    exact ⟨rfl, rfl⟩
  · rintro ⟨hb, h⟩
    rw [hb, if_pos rfl] at h
    cases ht : t.busy with
    | false => rw [ht] at h; cases h
    | true =>
      rw [ht, if_pos rfl] at h
      injection h with h
      injection h with h1 h2 h3 h4 h5
      exact ⟨hb, ht, h1, h2, h3, h4, h5⟩

/-- A command that runs no Step begins no job. -/
theorem beginWork_job (s : State) (h : (shape s).steps = 0) : (beginWork s).job = s.flight.job := by
  rcases beginWork_cases s with ⟨h1, -⟩ | ⟨i, h1, h2⟩
  · rw [h1]
  · rw [h] at h2
    rw [h1]
    unfold beginBody
    unfold stepCount at h2
    cases i with
    | construct _ => rfl
    | reset => rfl
    | write k d =>
      dsimp only at h2 ⊢
      split at h2
      · cases h2
      · rename_i hl; rw [if_neg hl]
    | sum => dsimp only at h2; split at h2 <;> cases h2

theorem sameControl_set {s t : State} {f g : Flight} (h : SameControl s t) (hf : s.flight.SameCommand f)
    (hg : t.flight.SameCommand g)
    (hp : f.phase = g.phase) (hj : f.job = g.job) : SameControl (s.setFlight f) (t.setFlight g) :=
  ⟨h.bs, h.bt, by rw [shape_setFlight hf, shape_setFlight hg, h.sh], hp, hj, hf.age.trans (h.ag.trans hg.age.symm),
    hf.times.trans (h.tm.trans hg.times.symm)⟩

/-- Where a Step's end leads depends on the job alone. -/
theorem endStep_pj (f g : Flight) (x y : Word256) (hj : f.job = g.job) :
    (f.endStep x).phase = (g.endStep y).phase ∧ (f.endStep x).job = (g.endStep y).job := by
  unfold Flight.endStep
  rw [hj]
  cases hg : g.job with
  | block => exact ⟨rfl, rfl⟩
  | tail => exact ⟨rfl, rfl⟩
  | length => exact ⟨rfl, rfl⟩
  | checksum => exact ⟨rfl, rfl⟩

/-- The block's own moves depend on the control state alone, as far as the control state goes. -/
theorem sameControl_own {s t : State} (h : SameControl s t) :
    SameControl (s.setFlight (ownFlight s)) (t.setFlight (ownFlight t)) := by
  have hp := h.ph
  have hb : (ownFlight s).phase = (ownFlight t).phase ∧ (ownFlight s).job = (ownFlight t).job := by
    unfold ownFlight
    rw [hp]
    cases ht : t.flight.phase with
    | start =>
      dsimp only
      rcases beginWork_phase s with ⟨h1, h2⟩ | ⟨h1, h2, h3⟩
      · rcases beginWork_phase t with ⟨g1, g2⟩ | ⟨g1, g2, g3⟩
        · exact ⟨h1.trans g1.symm, by rw [beginWork_job s h2, beginWork_job t g2, h.jb]⟩
        · rw [h.sh] at h2; exact absurd h2 g2
      · rcases beginWork_phase t with ⟨g1, g2⟩ | ⟨g1, g2, g3⟩
        · rw [h.sh] at h2; exact absurd g2 h2
        · exact ⟨h1.trans g1.symm, by rw [h3, g3, h.sh]⟩
    | keys j => exact ⟨rfl, h.jb⟩
    | offer i => exact ⟨h.ph, h.jb⟩
    | await i => exact ⟨h.ph, h.jb⟩
    | done => exact ⟨h.ph, h.jb⟩
    | mix st l =>
      cases l with
      | succ n => exact ⟨rfl, h.jb⟩
      | zero =>
        cases st with
        | first => exact ⟨rfl, h.jb⟩
        | second => exact ⟨rfl, h.jb⟩
        | third => exact endStep_pj _ _ _ _ h.jb
  exact sameControl_set h (sameCommand_ownFlight s) (sameCommand_ownFlight t) hb.1 hb.2

theorem sameControl_moves (n : Nat) {s t : State} (h : SameControl s t) : SameControl (ownMoves n s) (ownMoves n t) := by
  induction n generalizing s t with
  | zero => exact h
  | succ n ih => exact ih (sameControl_own h)

theorem sameControl_receive {e f : EdgeIn} {s t : State} (h : SameControl s t) (hv : e.cipRspValid = f.cipRspValid) :
    SameControl (s.setFlight (receiveFlight e s)) (t.setFlight (receiveFlight f t)) := by
  suffices hh : (receiveFlight e s).phase = (receiveFlight f t).phase ∧
      (receiveFlight e s).job = (receiveFlight f t).job ∧
      (receiveFlight e s).age = (receiveFlight f t).age ∧ (receiveFlight e s).times = (receiveFlight f t).times from
    ⟨h.bs, h.bt, by rw [shape_receive, shape_receive, h.sh], hh.1, hh.2.1, hh.2.2.1, hh.2.2.2⟩
  by_cases ha : ∃ i, s.flight.phase = .await i
  · obtain ⟨i, hi⟩ := ha
    have hi' : t.flight.phase = .await i := h.ph ▸ hi
    cases hev : e.cipRspValid with
    | true =>
      have k1 := takeResponse_kept s.flight i e.cipRspBlock
      have k2 := takeResponse_kept t.flight i f.cipRspBlock
      rw [receiveFlight_response hi hev, receiveFlight_response hi' (hv ▸ hev)]
      refine ⟨?_, by rw [k1.1, k2.1, h.jb], by rw [k1.2.2, k2.2.2, h.ag], by rw [k1.2.1, k2.2.1, h.ag, h.tm]⟩
      rcases takeResponse_phase s.flight i e.cipRspBlock with ⟨h1, h2⟩ | ⟨h1, h2⟩
      · rcases takeResponse_phase t.flight i f.cipRspBlock with ⟨g1, g2⟩ | ⟨g1, g2⟩
        · rw [h2, g2]
        · subst g1; exact absurd h1 (by decide)
      · rcases takeResponse_phase t.flight i f.cipRspBlock with ⟨g1, g2⟩ | ⟨g1, g2⟩
        · subst h1; exact absurd g1 (by decide)
        · rw [h2, g2]
    | false =>
      rw [receiveFlight_wait hi hev, receiveFlight_wait hi' (hv ▸ hev)]
      exact ⟨h.ph, h.jb, h.ag, h.tm⟩
  · rw [receiveFlight_of_not_await e (fun i hi => ha ⟨i, hi⟩),
      receiveFlight_of_not_await f (fun i hi => ha ⟨i, h.ph ▸ hi⟩)]
    exact ⟨h.ph, h.jb, h.ag, h.tm⟩

theorem sameControl_rested (T : Timing) {s t : State} (h : SameControl s t) : rested T s = rested T t :=
  rested_congr T h.sh h.tm h.ag

theorem sameControl_cycle (T : Timing) {e f : EdgeIn} {s t : State} (h : SameControl s t)
    (hv : e.cipRspValid = f.cipRspValid) :
    SameControl (cycle T e s) (cycle T f t) := by
  have hr := sameControl_receive h hv
  unfold cycle
  dsimp only
  have hl : ownLeft (s.setFlight (receiveFlight e s)).flight = ownLeft (t.setFlight (receiveFlight f t)).flight := by
    unfold ownLeft; rw [hr.ph]
  rw [sameControl_rested T hr, hl]
  exact sameControl_moves _ hr

/-- Under equal handshakes two commands with equal control states complete together, or keep equal control states
(70_reset_and_hazards.md R301). -/
theorem sameControl_edge (T : Timing) {e f : EdgeIn} {s t s' t' : State} (h : SameControl s t) (he : e.rstN = true)
    (hf : f.rstN = true)
    (hq : e.cipReqReady = f.cipReqReady) (hv : e.cipRspValid = f.cipRspValid)
    (h1 : edge T e s = .next s') (h2 : edge T f t = .next t') :
    (s'.busy = false ∧ t'.busy = false) ∨ SameControl s' t' := by
  have hc := sameControl_cycle T h hv
  have hfin : finishing T (cycle T e s) = finishing T (cycle T f t) := by
    unfold finishing; rw [hc.ph, sameControl_rested T hc]
  have hoff : offering T (cycle T e s) = offering T (cycle T f t) := by
    unfold offering; rw [hc.ph, sameControl_rested T hc]
  have a1 := edge_busy h1 h.bs he
  have a2 := edge_busy h2 h.bt hf
  rcases workEdge_cases T e s with ⟨x1, x2⟩ | ⟨x1, x2⟩
  · rcases workEdge_cases T f t with ⟨y1, y2⟩ | ⟨y1, y2⟩
    · left; rw [a1, a2, x2, y2]; exact ⟨rfl, rfl⟩
    · rw [hfin, y1] at x1; cases x1
  · rcases workEdge_cases T f t with ⟨y1, y2⟩ | ⟨y1, y2⟩
    · rw [hfin, y1] at x1; cases x1
    · right
      have b1 : s'.flight = nextFlight T e s := by rw [a1, x2]; rfl
      have b2 : t'.flight = nextFlight T f t := by rw [a2, y2]; rfl
      have c1 : s'.toArch = s.toArch := by rw [a1, x2]; rfl
      have c2 : t'.toArch = t.toArch := by rw [a2, y2]; rfl
      have hj : (nextFlight T e s).phase = (nextFlight T f t).phase ∧ (nextFlight T e s).job = (nextFlight T f t).job := by
        unfold nextFlight transferFlight
        rw [hoff, hq]
        cases offering T (cycle T f t) with
        | none => exact ⟨hc.ph, hc.jb⟩
        | some i => cases f.cipReqReady <;> simp [hc.ph, hc.jb]
      have k1 := nextFlight_kept T e s
      have k2 := nextFlight_kept T f t
      refine ⟨by rw [c1]; exact h.bs, by rw [c2]; exact h.bt, ?_, by rw [b1, b2]; exact hj.1,
        by rw [b1, b2]; exact hj.2, ?_, ?_⟩
      · rw [shape_next c1 b1, shape_next c2 b2, h.sh]
      · rw [b1, b2, k1.2.2.2.1, k2.2.2.2.1, h.ag]
      · rw [b1, b2, k1.2.2.2.2, k2.2.2.2.2]; exact (sameControl_receive h hv).tm

/-! ## The cycle in which the rest is over -/

theorem nextFlight_await {T : Timing} {e : EdgeIn} {s : State} {i : Fin 4} (hp : s.flight.phase = .await i)
    (hv : e.cipRspValid = false) :
    nextFlight T e s = { s.flight with waited := s.flight.waited + 1, age := s.flight.age + 1 } := by
  unfold nextFlight
  rw [cycle_wait T hp hv]
  unfold transferFlight offering
  simp only [State.setFlight, hp]

theorem cycle_not_await {T : Timing} {e : EdgeIn} {s : State}
    (h : (∀ i, s.flight.phase ≠ .await i) ∨ e.cipRspValid = true) : ∀ i, (cycle T e s).flight.phase ≠ .await i := by
  intro i hi
  obtain ⟨h1, h2⟩ := cycle_await hi
  rcases h with h | h
  · exact h i h1
  · rw [h2] at h; cases h

/-- Once the rest is over and no response is awaited, an edge with `cip_req_ready = 1` takes the next request or completes
the command. -/
theorem ready_edge {T : Timing} {e : EdgeIn} {s t : State} (he : edge T e s = .next t) (hb : s.busy = true)
    (hr : e.rstN = true) (hready : e.cipReqReady = true) (hrest : rested T (cycle T e s) = true)
    (hna : ∀ i, (cycle T e s).flight.phase ≠ .await i) :
    (t.busy = false ∧ s.flight.requestsLeft (4 * (shape s).steps) = 0) ∨
    (t.busy = true ∧ shape t = shape s ∧ (∃ i, t.flight.phase = .await i) ∧ t.flight.waited = 0 ∧
      t.flight.times = (receiveFlight e s).times ∧
      t.flight.requestsLeft (4 * (shape s).steps) + 1 = s.flight.requestsLeft (4 * (shape s).steps)) := by
  have ht := edge_busy he hb hr
  rcases cycle_settled hrest with ⟨i, hi⟩ | ⟨i, hi⟩ | hi
  · right
    have hoff := offering_eq_some.mpr ⟨hi, hrest⟩
    rcases workEdge_cases T e s with ⟨h, -⟩ | ⟨-, h⟩
    · rw [(finishing_iff.mp h).1] at hi; cases hi
    have hq := requestsLeft_nextFlight T e s
    rw [hoff, hready] at hq
    have hf : t.flight = nextFlight T e s := by rw [ht, h]; rfl
    have ha : t.toArch = s.toArch := by rw [ht, h]; rfl
    have hn : nextFlight T e s =
        { (cycle T e s).flight with phase := .await i, waited := 0, age := (cycle T e s).flight.age + 1 } := by
      unfold nextFlight transferFlight
      rw [hoff]
      exact if_pos hready
    rw [hf]
    exact ⟨by rw [ha]; exact hb, shape_next ha hf, ⟨i, by rw [hn]⟩, by rw [hn], (nextFlight_kept T e s).2.2.2.2, hq⟩
  · exact absurd hi (hna i)
  · left
    rcases workEdge_cases T e s with ⟨-, h⟩ | ⟨h, -⟩
    · refine ⟨by rw [ht, h]; rfl, ?_⟩
      rw [← requestsLeft_cycle T e s]
      simp [Flight.requestsLeft, hi]
    · rw [finishing_iff.mpr ⟨hi, hrest⟩] at h; cases h

end Sys2Proof.Machine
end

