-- ==== Sys2Proof/Tests/Slice0.lean ====
section
/-! SUPPORT. Tests of one operation or one step, their values from spec/95_test_vectors.md, and a witness for the
hypotheses of every obligation that has some. -/

namespace Sys2Proof.Tests

open Sys2Proof Sys2Proof.Machine

/-- A configured engine with `count` pending bytes, `PB[k] = 0x61 + k`. -/
def engine (mode : Mode) (count : BitVec 5) : State :=
  { State.reset with mode := mode, pb := Vector.ofFn fun k => BitVec.ofNat 8 (0x61 + k.val), pbCount := count }

/-- The state after one command word, if there is one. -/
def after (w : Word32) (d : Word64) (s : State) : Option State :=
  match execute w d s with
  | .next t => some t
  | .fault _ => none
  | .refused _ => none

/-- `status` after one command word. -/
def statusAfter (w : Word32) (d : Word64) (s : State) : Option Word32 := (after w d s).map statusPort

/-- Ib of spec/95_test_vectors.md: byte j holds j. -/
def ib : Word256 := 0x1f1e1d1c1b1a191817161514131211100f0e0d0c0b0a09080706050403020100#256

/-! ## Well-formedness and decoding -/

theorem test_wellFormed_write_9_refused : (Instr.write 9 0).wellFormed = false := by decide

theorem test_wellFormed_write_8 : (Instr.write 8 0).wellFormed = true := by decide

theorem test_decode_construct : decode 0b00000000000000000000_0001_0000_0001#32 0 = .ok (.construct 1) := by decide

theorem test_decode_write : decode 0b00000000000000000000_0000_0011_0010#32 0x636261 = .ok (.write 3 0x636261) := by
  decide

theorem test_decode_sum : decode 0b00000000000000000000_0000_0000_0011#32 7 = .ok .sum := by decide

theorem test_decode_reset : decode 0b00000000000000000000_0000_0000_0100#32 7 = .ok .reset := by decide

theorem test_decode_illegal :
    [0x11, 0x92, 0x102, 0x13, 0x1003, 0x80000004, 0x0, 0x5, 0xf].all (fun w => legalWord (BitVec.ofNat 32 w) = false) =
      true := by decide +kernel

theorem test_decodeTableWord_96_bits : decodeTableWord 96 0x636261_00000032 = some (.write 3 0x636261) := by decide

/-! ## The commands, one step each (95_test_vectors.md §3.10 and §4) -/

theorem test_construct_status : statusAfter 0x101 0 State.reset = some 0x1002 := by decide +kernel

theorem test_construct_missing_set : statusAfter 0x501 0 State.reset = some 0x8 := by decide +kernel

theorem test_write_appends :
    (after 0x32 0x636261 (engine .empty 0)).map (fun t => (statusPort t, t.pending)) =
      some (0xc4, [0x61, 0x62, 0x63]) := by decide +kernel

theorem test_write_absorbs :
    (after 0x32 0xccbbaa (engine .accumulating 30)).map (fun t => (t.pending, t.l, byteOf t.sigma 31)) =
      some ([0xcc], 0x100, 0xbb) := by decide +kernel

theorem test_sum_status : statusAfter 0x3 0 (engine .accumulating 3) = some 0x8c4 := by decide +kernel

theorem test_sum_not_configured : statusAfter 0x3 0 State.reset = some 0x10 := by decide +kernel

theorem test_reset_status : statusAfter 0x4 0 (engine .accumulating 11) = some 0x2 := by decide +kernel

theorem test_reset_keeps_digest :
    (after 0x4 0 { engine .accumulating 11 with digest := 5, digestValid := true }).map
      (fun t => (t.digest, t.digestValid)) = some (5, false) := by decide +kernel

theorem test_illegal_before_not_configured : statusAfter 0x92 0 State.reset = some 0x20 := by decide +kernel

theorem test_step_placed_command :
    (match step (State.reset.withFetchWord 32 0x101) with
      | .next t => some (t.mode, t.sboxSel)
      | .fault _ => none
      | .refused _ => none) = some (Mode.empty, 1) := by decide +kernel

/-! ## The units (95_test_vectors.md §3.1 to §3.7) -/

theorem test_linA_ones : linA (BitVec.allOnes 256) =
    0x0000000000000000ffffffffffffffffffffffffffffffffffffffffffffffff#256 := by decide +kernel

theorem test_permP_ib : permP ib = 0x1f170f071e160e061d150d051c140c041b130b031a120a021911090118100800#256 := by
  decide +kernel

theorem test_keyDerive_ib_ones : (keyDerive ib (BitVec.allOnes 256))[3] =
    0xf7e7081ff718f7e1f7e7f71df7e708e3f718f71bf71808e5f7180819f7e7f7e7#256 := by decide +kernel

theorem test_psi_74_ib : psiIter 74 ib = 0x1818181808080504161612120e0e02021b1a0c0c0908070605040e0e12121b1a#256 := by
  decide +kernel

theorem test_psiInv_one : psiInv 1 = 0x10001#256 := by decide +kernel

theorem test_encryptReference : encryptReference 1 ib 0x0706050403020100 = 0xe15f70d8e31baa10#64 := by decide +kernel

theorem test_step_ib_ones : stepWith (encryptReference 0) ib (BitVec.allOnes 256) =
    0xd4b19780b7ecd2a2b0f4fdf81230e4f6169c122ff920659e5a9848eb69d218ab#256 := by decide +kernel

theorem test_tailBlock_fox : tailBlock [0x68, 0x65, 0x20, 0x6c, 0x61, 0x7a, 0x79, 0x20, 0x64, 0x6f, 0x67] =
    0x676f6420797a616c206568#256 := by decide +kernel

theorem test_digest_cryptopro : digestWith (encryptReference 1) [0x61, 0x62, 0x63] =
    0x2cd42ff986293b167e994381ed59747414dd24953677762d39d718bf6d0585b2#256 := by decide +kernel

theorem test_assemble_write : assemble "write 6, 0x0000747365676964 ; digest" =
    some [(0x62#32, 0x0000747365676964#64)] := by decide +kernel

/-! ## Witnesses: encoding and the step -/

theorem witness_DecodeOfEncode : (Instr.write 8 0xffffffffffffffff).wellFormed = true := by decide

theorem witness_EncodeOfDecode : decode 0x82 5 = .ok (.write 8 5) := by decide

theorem decode_error_has_no_command {w : Word32} {d : Word64} {e : DecodeError} (h : decode w d = .error e) :
    ∀ i, decode w d ≠ .ok i := by
  intro i hi
  rw [h] at hi
  cases hi

/-- An illegal word is next; and one word for each way of being illegal, R87's boundaries 5, 15 and N = 9 among them. -/
theorem witness_IllegalCommandRecordsOnlyErr :
    (∃ s : State, s.busy = false ∧ s.host = [.command 0x92 0] ∧ ∀ i, decode 0x92 0 ≠ .ok i) ∧
    fieldOp 0x0 = 0 ∧ 5 ≤ (fieldOp 0x5).toNat ∧ 5 ≤ (fieldOp 0xf).toNat ∧ fieldRsvd 0x1003 ≠ 0 ∧
    (fieldOp 0x103 ≠ 1 ∧ fieldSel 0x103 ≠ 0) ∧ (fieldOp 0x13 ≠ 2 ∧ fieldN 0x13 ≠ 0) ∧
    (fieldOp 0x92 = 2 ∧ 8 < (fieldN 0x92).toNat) :=
  ⟨⟨{ State.reset with host := [.command 0x92 0] }, rfl, rfl,
    decode_error_has_no_command (e := .byteCountTooLarge) (by decide)⟩, by decide⟩

theorem witness_StepRunsDecodedCommand :
    (∃ s : State, s.busy = false ∧ s.host = [.command 0x4 0] ∧ decode 0x4 0 = .ok .reset) ∧
    (∃ s : State, s.busy = true ∧ decode s.flight.word s.flight.data = .ok .sum) :=
  ⟨⟨{ State.reset with host := [.command 0x4 0] }, by decide⟩,
    ⟨{ State.reset with busy := true, flight := { Flight.none with word := 3 } }, by decide⟩⟩

theorem witness_PlacedCommandRunsNext : decodeTableWord 32 0x4 = some .reset ∧
    decodeTableWord 96 0xffffffffffffffff_00000082 = some (.write 8 0xffffffffffffffff) := by decide

theorem witness_PortReadsChangeNothing :
    (∃ s : State, s.busy = false ∧ s.host = [.readStatus]) ∧
    (∃ s : State, s.busy = false ∧ s.host = [.readDigest] ∧ s.digestValid = true) ∧
    (∃ s : State, s.busy = false ∧ s.host = [.readDigest] ∧ s.digestValid = false) :=
  ⟨⟨{ State.reset with host := [.readStatus] }, by decide⟩,
    ⟨{ State.reset with host := [.readDigest], digestValid := true }, by decide⟩,
    ⟨{ State.reset with host := [.readDigest] }, by decide⟩⟩

/-! ## Witnesses: the commands -/

theorem witness_ConstructBindsAndInitialises :
    State.reset.mode = .unconfigured ∧ (0 : BitVec 4).toNat < 2 ∧ (1 : BitVec 4).toNat < 2 := by decide

/-- PB_COUNT = 31 with N = 0, and 24 with N = 7. -/
theorem witness_WriteAppendsBelowABlock :
    (engine .empty 31).mode ≠ .unconfigured ∧ (0 : BitVec 4).toNat ≤ 8 ∧
      (engine .empty 31).pbCount.toNat + (0 : BitVec 4).toNat < 32 ∧
      (engine .empty 24).pbCount.toNat + (7 : BitVec 4).toNat < 32 := by decide

/-- PB_COUNT = 31 with N = 1 and with N = 8. -/
theorem witness_WriteAbsorbsAFullBlock :
    (engine .accumulating 31).mode ≠ .unconfigured ∧ (8 : BitVec 4).toNat ≤ 8 ∧
      32 ≤ (engine .accumulating 31).pbCount.toNat + (1 : BitVec 4).toNat ∧
      32 ≤ (engine .accumulating 31).pbCount.toNat + (8 : BitVec 4).toNat := by decide

theorem witness_WriteIgnoresBitsAboveItsBytes : (8 : BitVec 4).toNat ≤ 8 ∧
    (∀ k < 8 * (2 : BitVec 4).toNat, (0x636261 : Word64).getLsbD k = (0x6261 : Word64).getLsbD k) ∧
      (0x636261 : Word64) ≠ 0x6261 := by decide

theorem witness_SumLatchesTheFinalisation :
    (engine .empty 0).mode ≠ .unconfigured ∧ (engine .accumulating 31).mode ≠ .unconfigured := by decide

theorem witness_ResetReturnsToEmpty : (engine .accumulating 31).mode ≠ .unconfigured := by decide

theorem witness_ErrorPriority :
    (∀ i, decode 0x92 0 ≠ .ok i) ∧
    (decode 0x3 0 = .ok .sum ∧ State.reset.mode = .unconfigured ∧ ∀ sel, Instr.sum ≠ .construct sel) ∧
    (decode 0xf01 0 = .ok (.construct 15) ∧ (engine .empty 0).mode ≠ .unconfigured) ∧
    (decode 0x201 0 = .ok (.construct 2) ∧ State.reset.mode = .unconfigured ∧ 2 ≤ (2 : BitVec 4).toNat) :=
  ⟨decode_error_has_no_command (e := .byteCountTooLarge) (by decide),
    ⟨by decide, by decide, fun _ h => (by cases h)⟩, ⟨by decide, by decide⟩, ⟨by decide, by decide, by decide⟩⟩

theorem execute_ok {w : Word32} {d : Word64} {i : Instr} {s : State} (hd : decode w d = .ok i)
    (hc : commandError i s = none) : execute w d s = .next (bodyOf i s) := by
  unfold execute
  rw [hd]
  exact exec_of_ok hc

/-- A failed command, and a successful one of each kind. -/
theorem witness_ModeTransitions :
    execute 0x3 0 State.reset = .next (State.reset.raise .notConfigured) ∧
    execute 0x1 0 State.reset = .next (bodyOf (.construct 0) State.reset) ∧
    execute 0x2 0 (engine .empty 0) = .next (bodyOf (.write 0 0) (engine .empty 0)) ∧
    execute 0x3 0 (engine .empty 0) = .next (bodyOf .sum (engine .empty 0)) ∧
    execute 0x4 0 (engine .empty 0) = .next (bodyOf .reset (engine .empty 0)) :=
  ⟨rfl, execute_ok (by decide) (by decide), execute_ok (by decide) (by decide), execute_ok (by decide) (by decide),
    execute_ok (by decide) (by decide)⟩

theorem witness_OnlyPowerOnUnbinds :
    ∃ s : State, step s = .next { s with host := [] } ∧ s.mode ≠ .unconfigured ∧ s.busy = false ∧
      (∀ rest, s.host ≠ .powerOnReset :: rest) ∧ ∀ w d rest, s.host ≠ .commandAbandoned w d :: rest :=
  ⟨{ engine .empty 0 with host := [.readStatus] }, rfl, by decide, rfl, fun _ h => (by cases h),
    fun _ _ _ h => (by cases h)⟩

theorem witness_RegisterWriters :
    (commandError (.construct 1) State.reset = none ∧ commandError (.write 8 0) (engine .accumulating 24) = none ∧
      commandError (.write 7 0) (engine .accumulating 24) = none ∧ commandError .sum (engine .empty 0) = none ∧
      commandError .reset (engine .empty 0) = none) ∧
    commandError .sum State.reset = some .notConfigured ∧
    ∃ s : State, s.busy = false ∧ s.host = [.powerOnReset] ∧ ∃ t, step s = .next t :=
  ⟨by decide, by decide, { engine .accumulating 9 with host := [.powerOnReset] }, rfl, rfl, _, rfl⟩

/-! ## Witnesses: the units -/

theorem witness_PsiLanes : ∀ i < 16, i ≠ 0 → laneOf 1 i = 0 := by decide +kernel

theorem witness_PsiLinearInvertibleBitwise : 15 < 16 ∧
    (∀ i < 16, (laneOf 0 i).getLsbD 15 = (laneOf 0x7fff i).getLsbD 15) ∧ (0 : Word256) ≠ 0x7fff := by decide +kernel

theorem witness_ChecksumAddWraps : [1, 2, 3].Perm [(2 : Word256), 1, 3] := by decide +kernel

/-- Tails of 1 and 31 bytes; and two states that differ above PB_COUNT only. -/
theorem witness_TailBlockPadsTheHighEnd :
    (1 ≤ (List.replicate 1 (0xff : Byte)).length ∧ (List.replicate 31 (0xff : Byte)).length ≤ 31) ∧
    ((engine .empty 3).pbCount = ({ engine .empty 3 with pb := (engine .empty 3).pb.set 3 0 } : State).pbCount ∧
      ∀ k < 32, k < (engine .empty 3).pbCount.toNat →
        (engine .empty 3).pb[k]? = ({ engine .empty 3 with pb := (engine .empty 3).pb.set 3 0 } : State).pb[k]?) := by
  decide +kernel

theorem witness_ByteConversionsRoundTrip : (List.replicate 32 (0x80 : Byte)).length = 32 := by decide

theorem witness_StatusWordLayout :
    State.reset.busy = false ∧ ({ State.reset with busy := true } : State).busy = true ∧
      ({ State.reset with host := [.readStatus] } : State).host = [.readStatus] := by decide

/-! ## Witnesses: the message -/

/-- An engine without a message tracks the empty message. -/
theorem tracks_nothing : Tracks [] (engine .empty 0) :=
  ⟨by decide, by decide, by decide, by decide, by decide⟩

/-- PB_COUNT = 3 and nothing absorbed tracks a message of three bytes. -/
theorem tracks_three : Tracks [0x61, 0x62, 0x63] (engine .accumulating 3) :=
  ⟨by decide, by decide +kernel, by decide, by decide, by decide⟩

theorem witness_RegistersTrackTheMessage :
    ∃ t, ((engine .accumulating 3).mode ≠ .unconfigured → Tracks [0x61, 0x62, 0x63] (engine .accumulating 3)) ∧
      exec (.write 8 0) (engine .accumulating 3) = .next t ∧ t.mode ≠ .unconfigured :=
  ⟨_, fun _ => tracks_three, exec_of_ok (by decide), by decide⟩

theorem witness_SumGivesTheDigestOfTheMessage :
    (engine .accumulating 3).mode ≠ .unconfigured ∧ Tracks [0x61, 0x62, 0x63] (engine .accumulating 3) :=
  ⟨by decide, tracks_three⟩

theorem witness_SessionDigest : State.reset.mode = .unconfigured ∧ (1 : BitVec 4).toNat < 2 ∧
    ∀ w ∈ [((8 : BitVec 4), (0 : Word64)), (0, 7)], w.1.toNat ≤ 8 := ⟨rfl, by decide, by simp⟩

theorem witness_ChunkingInvariance :
    (engine .empty 0).mode ≠ .unconfigured ∧ Tracks [] (engine .empty 0) ∧
    (∀ w ∈ [((3 : BitVec 4), (0x636261 : Word64))], w.1.toNat ≤ 8) ∧
    (∀ v ∈ [((1 : BitVec 4), (0x61 : Word64)), (0, 9), (2, 0x6362)], v.1.toNat ≤ 8) ∧
    carried [(3, 0x636261)] = carried [(1, 0x61), (0, 9), (2, 0x6362)] :=
  ⟨by decide, tracks_nothing, by simp, by simp, by decide +kernel⟩

/-- The two states differ above PB_COUNT, in a DIGEST that is not valid, and in the hidden state. -/
theorem witness_UnreadStateStaysUnread :
    ∃ t : State, Indistinguishable (engine .accumulating 3) t ∧ t ≠ engine .accumulating 3 ∧
      (engine .accumulating 3).busy = false :=
  ⟨{ engine .accumulating 3 with
      pb := (engine .accumulating 3).pb.set 3 0, digest := 7, flight := { Flight.none with m := 1 } },
    ⟨rfl, rfl, rfl, rfl, rfl, rfl, by decide +kernel, rfl, rfl, rfl, fun h => (by cases h)⟩,
    fun h => by
      have : (7 : Word256) = 0 := congrArg (fun s : State => s.digest) h
      revert this
      decide,
    rfl⟩

theorem witness_ResetEquivalentToFresh :
    (engine .accumulating 3).mode ≠ .unconfigured ∧ (engine .accumulating 3).sboxSel.toNat < 2 ∧
      State.reset.mode = .unconfigured ∧ (engine .accumulating 3).busy = State.reset.busy := by decide

theorem witness_SumIsTransparent :
    (∃ t, exec .sum (engine .accumulating 3) = .next t) ∧ (∃ t, exec .sum State.reset = .next t) ∧
      [Instr.write 8 0, .sum] = [.write 8 0] ++ [.sum] :=
  ⟨⟨_, exec_of_ok (by decide)⟩, ⟨_, exec_of_error (e := .notConfigured) (by decide)⟩, rfl⟩

theorem witness_SumAndResetAreIdempotent :
    (∃ t, (engine .accumulating 3).mode ≠ .unconfigured ∧ exec .sum (engine .accumulating 3) = .next t ∧
      ∀ i ∈ [Instr.construct 0, .sum], i = .sum ∨ commandError i t ≠ none) ∧
    (∃ t, (engine .accumulating 3).mode ≠ .unconfigured ∧ exec .reset (engine .accumulating 3) = .next t) := by
  refine ⟨⟨_, by decide, exec_of_ok (by decide), fun i hi => ?_⟩, _, by decide, exec_of_ok (by decide)⟩
  rcases List.mem_cons.mp hi with rfl | hi
  · exact Or.inr (by decide)
  · exact Or.inl (List.mem_singleton.mp hi)

/-- A state that meets the invariant with a message pending, and SUM as its next command. -/
def beforeSum : State := { engine .accumulating 3 with host := [.command 0x3 0] }

theorem beforeSum_step : step beforeSum = execute 0x3 0 (beforeSum.accept []) := rfl

theorem witness_StepKeepsTheInvariant : beforeSum.Inv ∧ ∃ t, step beforeSum = .next t := by
  refine ⟨⟨?_, fun _ => by decide, ?_, fun _ => by decide, ?_⟩, bodyOf .sum (beforeSum.accept []), ?_⟩
  · intro h; cases h
  · intro h; cases h
  · intro h; cases h
  · rw [beforeSum_step]
    exact execute_ok (by decide) (by decide)

/-! ## Witnesses: edges -/

/-- An edge on which everything is quiet but what the arguments say. -/
def quiet (rstN cmdValid : Bool) (w : Word32) : EdgeIn :=
  { rstN := rstN, cmdValid := cmdValid, cmdWord := w, cmdData := 0, cipReqReady := false, cipRspValid := false
    cipRspBlock := 0, readsDigest := false }

/-- The block that never rests. -/
def atOnce : Timing := fun _ _ => 0

/-- The state after one edge, if there is one. -/
def afterEdge (T : Timing) (e : EdgeIn) (s : State) : Option State :=
  match edge T e s with
  | .next t => some t
  | .fault _ => none
  | .refused _ => none

/-- LAT_CMD = 1 (70_reset_and_hazards.md R299): CONSTRUCT, accepted, completes at the very next edge. -/
theorem test_construct_in_one_cycle :
    ((afterEdge atOnce (quiet true true 0x101) State.reset).bind (afterEdge atOnce (quiet true false 0))).map
      (fun t => (t.busy, t.mode, t.sboxSel)) = some (false, .empty, 1) := by decide +kernel

/-- A block that rests one cycle is still busy there, with nothing written (R62). -/
theorem test_construct_rests :
    ((afterEdge (fun _ _ => 1) (quiet true true 0x101) State.reset).bind
      (afterEdge (fun _ _ => 1) (quiet true false 0))).map (fun t => (t.busy, t.mode, t.sboxSel)) =
      some (true, .unconfigured, 0) := by decide +kernel

/-- SUM has its first request on the port in its first cycle, and not in the cycle of its acceptance (R60, R114). -/
theorem test_sum_offers_in_first_cycle :
    (cipherOffer atOnce (quiet true true 3) (engine .empty 0)).isSome = false ∧
    (afterEdge atOnce (quiet true true 3) (engine .empty 0)).map
      (fun s => (cipherOffer atOnce (quiet true false 0) s).isSome) = some true := by decide +kernel

/-- A command in progress: SUM of an empty message, its second request offered or awaited. -/
def running (phase : Phase) : State :=
  { engine .empty 0 with
    busy := true
    flight := { Flight.none with word := 3, phase := phase, job := .length, k := keyDerive 0 0 } }

/-- A reset edge on an idle block and on a command in progress. -/
theorem witness_PowerOnResetEdge :
    (quiet false true 3).rstN = false ∧ breaksHold (quiet false true 3) (running (.offer 1)) = false ∧
      (quiet false true 3).readsDigest = false ∧
      ∃ t', edge atOnce (quiet false false 0) State.reset.powerOn = .next t' := ⟨rfl, rfl, rfl, _, rfl⟩

theorem witness_ResetAbandonsACommand :
    ∃ t v, (quiet false false 0).rstN = false ∧ (running (.offer 1)).draws = (engine .accumulating 9).draws ∧
      edge atOnce (quiet false false 0) (running (.offer 1)) = .next t ∧
      edge atOnce (quiet false false 0) (engine .accumulating 9) = .next v := ⟨_, _, rfl, rfl, rfl, rfl⟩

theorem witness_AcceptingEdgeLatchesTheCommand :
    (∃ t, State.reset.busy = false ∧ edge atOnce (quiet true true 4) State.reset = .next t) ∧
    (∃ t, edge atOnce (quiet true false 0) State.reset = .next t) := ⟨⟨_, rfl, rfl⟩, _, rfl⟩

theorem witness_NoWriteVisibleBeforeCompletion :
    ∃ t, (running (.offer 1)).busy = true ∧ edge atOnce (quiet true false 0) (running (.offer 1)) = .next t ∧
      t.busy = true := ⟨_, rfl, rfl, rfl⟩

/-- A SUM accepted by an empty engine: it runs two Steps, and it has a run to its completion. -/
theorem accepted_sum_runs :
    ∃ s₁ es t, edge atOnce (quiet true true 3) (engine .empty 0) = .next s₁ ∧ CommandRun atOnce es s₁ t ∧
      ResponseDelays (1 ≤ ·) atOnce es s₁ := by
  obtain ⟨es, t, h⟩ := commandRun_exists atOnce { acceptEdge (quiet true true 3) (engine .empty 0) with held := none } rfl
  exact ⟨_, es, t, rfl, h, responseDelays_one atOnce es _⟩

theorem witness_PortRunRefinesAtomicCommand :
    ∃ s₁ es t, (engine .empty 0).busy = false ∧ (quiet true true 3).rstN = true ∧
      (quiet true true 3).cmdValid = true ∧ edge atOnce (quiet true true 3) (engine .empty 0) = .next s₁ ∧
      CommandRun atOnce es s₁ t := by
  obtain ⟨s₁, es, t, ha, h, -⟩ := accepted_sum_runs
  exact ⟨s₁, es, t, rfl, rfl, rfl, ha, h⟩

/-- The request is offered; the edges leave it or take it. -/
theorem witness_CipherRequestHeldUntilTaken :
    ∃ r t u, cipherOffer atOnce (quiet true false 0) (running (.offer 1)) = some r ∧
      edge atOnce (quiet true false 0) (running (.offer 1)) = .next t ∧
      edge atOnce { quiet true false 0 with cipReqReady := true } (running (.offer 1)) = .next u :=
  ⟨_, _, _, rfl, rfl, rfl⟩

theorem witness_StrayResponseIgnored :
    cipherOutstanding (running (.offer 1)) = none ∧ cipherOutstanding State.reset = none := ⟨rfl, rfl⟩

theorem witness_RequestsCarryDerivedKeys :
    KeysRight (running (.offer 1)) ∧ (∃ t, edge atOnce (quiet true false 0) (running (.offer 1)) = .next t) ∧
      ∃ r, cipherOffer atOnce (quiet true false 0) (running (.offer 1)) = some r := ⟨rfl, ⟨_, rfl⟩, _, rfl⟩

theorem witness_NoRequestWhileUnconfigured :
    ∃ s t : State, StepsOnlyConfigured s ∧ s.busy = true ∧ s.mode = .unconfigured ∧
      edge atOnce (quiet true false 0) s = .next t :=
  ⟨{ State.reset with busy := true }, _, fun _ _ => Or.inl rfl, rfl, rfl, rfl⟩

theorem witness_RequestsPerCommand : decode 0x3 0 = .ok .sum ∧
    commandError .sum (engine .empty 0) = none ∧ (engine .empty 0).pbCount = 0 ∧
    ∃ s₁ es t, edge atOnce (quiet true true 3) (engine .empty 0) = .next s₁ ∧ CommandRun atOnce es s₁ t := by
  obtain ⟨s₁, es, t, ha, h, -⟩ := accepted_sum_runs
  exact ⟨by decide, by decide, by decide, s₁, es, t, ha, h⟩

/-- An edge of a command in progress that is not productive, and one after an acceptance. -/
theorem witness_ProductiveEdgesBound :
    (∃ t, (running (.offer 1)).busy = true ∧ edge atOnce (quiet true false 0) (running (.offer 1)) = .next t ∧
      t.busy = true) ∧
    Productive atOnce (quiet true false 0) (running (.offer 1)) = false ∧
    (∃ s₁, (engine .empty 0).busy = false ∧ edge atOnce (quiet true true 3) (engine .empty 0) = .next s₁ ∧
      ∀ e ∈ [quiet true false 0], e.rstN = true) :=
  ⟨⟨_, rfl, rfl, rfl⟩, rfl, _, rfl, rfl, by simp [quiet]⟩

/-- A SUM that completes at the first edge, and the idle block after it. -/
def finishingSum : Nat → State
  | 0 => running .done
  | n + 1 => { (running .done).complete with draws := n + 1 }

/-- An accepted command; and an endless sequence of edges that meets every premise, from a command in progress. -/
theorem witness_EveryAcceptedCommandCanComplete :
    (∃ s₁, (engine .empty 0).busy = false ∧ edge atOnce (quiet true true 3) (engine .empty 0) = .next s₁) ∧
    ∃ (e : Nat → EdgeIn) (st : Nat → State), (st 0).busy = true ∧
      (∀ n, (e n).rstN = true ∧ edge atOnce (e n) (st n) = .next (st (n + 1))) ∧
      (∀ n, cipherOffer atOnce (e n) (st n) ≠ none → ∃ m, n ≤ m ∧ (e m).cipReqReady = true) ∧
      (∀ n, cipherOutstanding (st n) ≠ none → ∃ m, n ≤ m ∧ (e m).cipRspValid = true) := by
  refine ⟨⟨_, rfl, rfl⟩, fun _ => quiet true false 0, finishingSum, rfl, ?_, ?_, ?_⟩ <;> intro n <;> cases n
  · exact ⟨rfl, rfl⟩
  · exact ⟨rfl, rfl⟩
  · exact fun h => absurd rfl h
  · exact fun h => absurd rfl h
  · exact fun h => absurd rfl h
  · exact fun h => absurd rfl h

/-- LAT_CIPHER = 2 and the least number of cycles for a SUM of two Steps, 4·2·2 + 1; and one cycle for an illegal word. -/
theorem witness_EveryLatencyHasARun :
    (1 ≤ 2 ∧ (engine .empty 0).busy = false ∧ (quiet true true 3).rstN = true ∧ (quiet true true 3).cmdValid = true ∧
      breaksHold (quiet true true 3) (engine .empty 0) = false ∧ (quiet true true 3).readsDigest = false ∧
      4 * (shapeOf 3 0 (engine .empty 0)).steps * 2 + 1 = 17) ∧
    4 * (shapeOf 5 0 (engine .empty 0)).steps * 2 + 1 = 1 := by decide +kernel

theorem witness_LatencyLowerBound :
    decode (quiet true true 3).cmdWord (quiet true true 3).cmdData = .ok .sum ∧
    commandError .sum (engine .empty 0) = none ∧ stepCount .sum (engine .empty 0) = 2 ∧
    ∃ s₁ es t, edge atOnce (quiet true true 3) (engine .empty 0) = .next s₁ ∧ CommandRun atOnce es s₁ t ∧
      ResponseDelays (1 ≤ ·) atOnce es s₁ := ⟨by decide, by decide, by decide, accepted_sum_runs⟩

/-- Two states with different chaining values and two edges with different answers; and two commands of one shape, the
messages and the accumulators different, under equal handshakes. -/
theorem witness_TimingIndependentOfData :
    (∃ s t s' t' : State, ∃ e f : EdgeIn, s.busy = true ∧ e.sameHandshake f = true ∧ s.control = t.control ∧ s.h ≠ t.h ∧
      edge atOnce e s = .next s' ∧ edge atOnce f t = .next t') ∧
    (∃ (s t s₁ t₁ s₂ t₂ : State), s.h ≠ t.h ∧ edge atOnce (quiet true true 4) s = .next s₁ ∧
      CommandRun atOnce [quiet true false 0] s₁ s₂ ∧ edge atOnce (quiet true true 4) t = .next t₁ ∧
      CommandRun atOnce [quiet true false 0] t₁ t₂ ∧ shapeOf 4 0 s = shapeOf 4 0 t) ∧
    (shapeOf 0x32 0 (engine .empty 29)).outcome = .ok ∧ (shapeOf 0x12 0 (engine .empty 30)).outcome = .ok :=
  ⟨⟨running (.await 1), { running (.await 1) with h := 1 }, _, _,
    { quiet true false 0 with cipRspValid := true, cipRspBlock := 1 },
    { quiet true false 0 with cipRspValid := true, cipRspBlock := 2 }, rfl, rfl, rfl, by decide, rfl, rfl⟩,
    ⟨engine .accumulating 3, { engine .accumulating 9 with h := 1 }, _, _, _, _, by decide, rfl,
      ⟨rfl, rfl, fun _ h => (by cases h), _, rfl, rfl, rfl⟩, rfl,
      ⟨rfl, rfl, fun _ h => (by cases h), _, rfl, rfl, rfl⟩, by decide +kernel⟩, by decide +kernel, by decide +kernel⟩

/-- Each fault happens, and so does an offer that is held without one. -/
theorem witness_ProtocolFaults :
    edge atOnce (quiet true true 3) { running (.offer 1) with held := some (4, 0) } = .fault .heldCommandChanged ∧
    edge atOnce { quiet true false 0 with readsDigest := true } State.reset = .fault .digestReadNotValid ∧
    ∃ t, edge atOnce (quiet true true 3) (running (.offer 1)) = .next t ∧ t.held = some (3, 0) :=
  ⟨rfl, rfl, _, rfl, rfl⟩

end Sys2Proof.Tests
end

