-- ==== Sys2Proof/Proofs/RegisterWriters.lean ====
section
/-! PROOFS. What the body of a command leaves in each register (10_state.md R35): WRITE below a block and at a block, the
registers Drain leaves unchanged, and the step of a power-on reset. -/

namespace Sys2Proof.Machine

/-- A command that raises no error leaves its body's state and no other. -/
theorem eq_bodyOf_of_exec {i : Instr} {s t : State} (hc : commandError i s = none) (h : exec i s = .next t) :
    t = bodyOf i s := by
  rw [exec_of_ok hc] at h
  injection h with h
  exact h.symm

/-- A WRITE that fills no block stores its bytes behind the pending ones (44_accumulators.md R193, R194). -/
theorem writeBody_of_lt {n : BitVec 4} (data : Word64) {s : State} (h : s.pbCount.toNat + n.toNat < 32) :
    writeBody n data s = (s.setPending s.draws (s.append (dataBytes n data))).markWritten := by
  have hbuf : (s.append (dataBytes n data)).length < 32 := by simpa using h
  rw [writeBody, State.drain, State.drainWith_of_lt _ _ _ _ hbuf]

/-- A WRITE that fills a block absorbs it and keeps the surplus pending (44_accumulators.md R194, R196). -/
theorem writeBody_of_le {n : BitVec 4} (data : Word64) {s : State} (h : 32 ≤ s.pbCount.toNat + n.toNat) :
    writeBody n data s =
      ((s.absorb (firstBlock (s.append (dataBytes n data)))).setPending s.draws
        ((s.append (dataBytes n data)).drop 32)).markWritten := by
  have hbuf : 32 ≤ (s.append (dataBytes n data)).length := by simpa using h
  rw [writeBody, State.drain, State.drainWith_of_le _ _ _ _ hbuf, State.absorb]

@[simp] theorem writeBody_mode (n : BitVec 4) (data : Word64) (s : State) :
    (writeBody n data s).mode = .accumulating := rfl
@[simp] theorem writeBody_digestValid (n : BitVec 4) (data : Word64) (s : State) :
    (writeBody n data s).digestValid = false := rfl
@[simp] theorem writeBody_err (n : BitVec 4) (data : Word64) (s : State) : (writeBody n data s).err = .ok := rfl

@[simp] theorem writeBody_sboxSel (n : BitVec 4) (data : Word64) (s : State) :
    (writeBody n data s).sboxSel = s.sboxSel := by
  rcases Nat.lt_or_ge (s.pbCount.toNat + n.toNat) 32 with h | h
  · rw [writeBody_of_lt data h]; rfl
  · rw [writeBody_of_le data h]; rfl

@[simp] theorem writeBody_digest (n : BitVec 4) (data : Word64) (s : State) :
    (writeBody n data s).digest = s.digest := by
  rcases Nat.lt_or_ge (s.pbCount.toNat + n.toNat) 32 with h | h
  · rw [writeBody_of_lt data h]; rfl
  · rw [writeBody_of_le data h]; rfl

/-- The accumulators and the pending bytes after a WRITE that fills no block. -/
theorem writeBody_registers_of_lt {n : BitVec 4} (data : Word64) {s : State} (h : s.pbCount.toNat + n.toNat < 32) :
    (writeBody n data s).h = s.h ∧ (writeBody n data s).sigma = s.sigma ∧ (writeBody n data s).l = s.l ∧
      (writeBody n data s).pending = s.append (dataBytes n data) := by
  rw [writeBody_of_lt data h]
  exact ⟨rfl, rfl, rfl, by rw [State.pending_markWritten, State.pending_setPending _ _ _ (by simpa using h)]⟩

/-- The accumulators and the pending bytes after a WRITE that fills a block and raises no error: it appends at most 8
bytes, so the surplus is less than a block. -/
theorem writeBody_registers_of_le {n : BitVec 4} {data : Word64} {s : State}
    (hc : commandError (.write n data) s = none) (h : 32 ≤ s.pbCount.toNat + n.toNat) :
    (writeBody n data s).h = stepFunction s.sboxSel s.h (firstBlock (s.append (dataBytes n data))) ∧
      (writeBody n data s).sigma = s.sigma + firstBlock (s.append (dataBytes n data)) ∧
      (writeBody n data s).l = s.l + 256 ∧
      (writeBody n data s).pending = (s.append (dataBytes n data)).drop 32 := by
  rw [writeBody_of_le data h]
  exact ⟨rfl, rfl, rfl, by rw [State.pending_markWritten, State.pending_setPending _ _ _ (write_buffer_bounds hc).2]⟩

/-- With no command in progress, the action `powerOnReset` gives the power-on state (70_reset_and_hazards.md R290). -/
theorem step_powerOnReset {s : State} {rest : List HostAction} (hb : s.busy = false)
    (hh : s.host = .powerOnReset :: rest) : step s = .next ({ s with host := rest } : State).powerOn := by
  simp [step, hb, hh]

/-- Settles O19: a successful command leaves its body's state, whose registers are read off command by command (a WRITE by
whether it fills a block); a failed command is `exec_of_error`; the reset is the power-on state. -/
theorem registerWriters : Obligations.RegisterWriters := by
  unfold Obligations.RegisterWriters
  refine ⟨fun i s t hc ht => ?_, fun i s e he => exec_of_error he, fun s t rest hb hh ht => ?_⟩
  · obtain rfl := eq_bodyOf_of_exec hc ht
    cases i with
    | construct sel => exact ⟨rfl, rfl, rfl, rfl, rfl, rfl, rfl, rfl, rfl⟩
    | write n data =>
      refine ⟨rfl, writeBody_sboxSel n data s, writeBody_digest n data s, rfl, rfl, ?_⟩
      split
      case isTrue hfull => exact writeBody_registers_of_le hc hfull
      case isFalse hpart => exact writeBody_registers_of_lt data (Nat.lt_of_not_le hpart)
    | sum => exact ⟨rfl, rfl, rfl, rfl, rfl, rfl, rfl, rfl, rfl, rfl⟩
    | reset => exact ⟨rfl, rfl, rfl, rfl, rfl, rfl, rfl, rfl, rfl⟩
  · rw [step_powerOnReset hb hh] at ht
    injection ht with ht
    subst ht
    exact ⟨rfl, rfl, rfl, rfl, rfl⟩

end Sys2Proof.Machine
end

