-- ==== Sys2Proof/Proofs/WriteBytes.lean ====
section
/-! PROOFS. The bytes a WRITE carries (20_memory.md R52): byte by byte, and that the operand acts through them alone. -/

namespace Sys2Proof.Machine

theorem dataBytes_getElem? {n : BitVec 4} (data : Word64) {k : Nat} (hk : k < n.toNat) :
    (dataBytes n data)[k]? = some (data.extractLsb' (8 * k) 8) := by
  simp [dataBytes, hk]

/-- Operands that agree below bit 8N carry the same N bytes. -/
theorem dataBytes_congr {n : BitVec 4} {data data' : Word64}
    (h : ∀ k < 8 * n.toNat, data.getLsbD k = data'.getLsbD k) : dataBytes n data = dataBytes n data' := by
  refine List.map_congr_left fun k hk => ?_
  have hkn : k < n.toNat := List.mem_range.mp hk
  refine BitVec.eq_of_getLsbD_eq fun j hj => ?_
  have hbit : data.getLsbD (8 * k + j) = data'.getLsbD (8 * k + j) := h _ (by omega)
  simp [BitVec.getLsbD_extractLsb', hbit]

/-- A WRITE uses its operand through the bytes it carries only (45_digest_engine.md R223): its error check reads N and
MODE, and its body appends the bytes. -/
theorem exec_write_congr {n : BitVec 4} {data data' : Word64} (h : dataBytes n data = dataBytes n data') (s : State) :
    exec (.write n data) s = exec (.write n data') s := by
  have herr : commandError (.write n data) s = commandError (.write n data') s := commandError_shape rfl rfl
  have hbody : bodyOf (.write n data) s = bodyOf (.write n data') s := by
    simp only [bodyOf, writeBody, h]
  rw [exec_eq, exec_eq, herr, hbody]

/-- Settles O12: the bytes are read off `dataBytes`, and the bits above byte N−1 are in none of them. -/
theorem writeIgnoresBitsAboveItsBytes : Obligations.WriteIgnoresBitsAboveItsBytes := by
  unfold Obligations.WriteIgnoresBitsAboveItsBytes
  refine ⟨fun n data _ => ⟨dataBytes_length n data, fun k hk => dataBytes_getElem? data hk⟩, by decide, ?_⟩
  exact fun n data data' s h => exec_write_congr (dataBytes_congr h) s

end Sys2Proof.Machine
end

