-- ==== Sys2Proof/Proofs/Encoding.lean ====
section
/-! PROOFS. Match and mask (30_encoding.md R84): the decoder's answers and the rows of the table
are both said of the four fields of the word. -/

namespace Sys2Proof

/-! ## Fields -/

@[simp] theorem fieldOp_and (v w : Word32) : fieldOp (v &&& w) = fieldOp v &&& fieldOp w := BitVec.extractLsb'_and
@[simp] theorem fieldN_and (v w : Word32) : fieldN (v &&& w) = fieldN v &&& fieldN w := BitVec.extractLsb'_and
@[simp] theorem fieldSel_and (v w : Word32) : fieldSel (v &&& w) = fieldSel v &&& fieldSel w := BitVec.extractLsb'_and
@[simp] theorem fieldRsvd_and (v w : Word32) : fieldRsvd (v &&& w) = fieldRsvd v &&& fieldRsvd w :=
  BitVec.extractLsb'_and

theorem fieldN_le (w : Word32) : (fieldN w).toNat ≤ 15 := Nat.le_of_lt_succ (fieldN w).isLt

/-- A word is a packed one when its fields are, RSVD being zero. -/
theorem eq_packWord_iff {w : Word32} {sel n op : BitVec 4} :
    w = packWord sel n op ↔ fieldOp w = op ∧ fieldN w = n ∧ fieldSel w = sel ∧ fieldRsvd w = 0 := by
  constructor
  · rintro rfl
    simp
  · rintro ⟨rfl, rfl, rfl, hrsvd⟩
    exact (packWord_fields hrsvd).symm

/-! ## The decoder's answers -/

/-- The four answers of `decode_cases` are exactly the decoder's. -/
theorem decode_eq_ok_iff {w : Word32} {d : Word64} {i : Instr} :
    decode w d = .ok i ↔
      (∃ sel, i = .construct sel ∧ w = packWord sel 0 1) ∨
      (∃ n, i = .write n d ∧ w = packWord 0 n 2 ∧ n.toNat ≤ 8) ∨
      (i = .sum ∧ w = packWord 0 0 3) ∨ (i = .reset ∧ w = packWord 0 0 4) := by
  refine ⟨decode_cases, ?_⟩
  rintro (⟨sel, rfl, rfl⟩ | ⟨n, rfl, rfl, hn⟩ | ⟨rfl, rfl⟩ | ⟨rfl, rfl⟩)
  · simp [decode]
  · simp [decode, hn]
  · simp [decode]
  · simp [decode]

theorem decode_eq_construct_iff {w : Word32} {d : Word64} :
    decode w d = .ok (.construct (fieldSel w)) ↔ fieldOp w = 1 ∧ fieldN w = 0 ∧ fieldRsvd w = 0 := by
  simp [decode_eq_ok_iff, eq_packWord_iff]

theorem decode_eq_write_iff {w : Word32} {d : Word64} :
    decode w d = .ok (.write (fieldN w) d) ↔
      (fieldOp w = 2 ∧ fieldSel w = 0 ∧ fieldRsvd w = 0) ∧ (fieldN w).toNat ≤ 8 := by
  simp [decode_eq_ok_iff, eq_packWord_iff]

theorem decode_eq_sum_iff {w : Word32} {d : Word64} :
    decode w d = .ok .sum ↔ fieldOp w = 3 ∧ fieldN w = 0 ∧ fieldSel w = 0 ∧ fieldRsvd w = 0 := by
  simp [decode_eq_ok_iff, eq_packWord_iff]

theorem decode_eq_reset_iff {w : Word32} {d : Word64} :
    decode w d = .ok .reset ↔ fieldOp w = 4 ∧ fieldN w = 0 ∧ fieldSel w = 0 ∧ fieldRsvd w = 0 := by
  simp [decode_eq_ok_iff, eq_packWord_iff]

/-- The four forms of a legal word, said of its fields (R84). -/
def LegalFields (w : Word32) : Prop :=
  (fieldOp w = 1 ∧ fieldN w = 0 ∧ fieldRsvd w = 0) ∨
  ((fieldOp w = 2 ∧ fieldSel w = 0 ∧ fieldRsvd w = 0) ∧ (fieldN w).toNat ≤ 8) ∨
  (fieldOp w = 3 ∧ fieldN w = 0 ∧ fieldSel w = 0 ∧ fieldRsvd w = 0) ∨
  (fieldOp w = 4 ∧ fieldN w = 0 ∧ fieldSel w = 0 ∧ fieldRsvd w = 0)

/-- The decoder answers some command exactly for the words of the four forms. -/
theorem exists_decode_iff {w : Word32} {d : Word64} : (∃ i, decode w d = .ok i) ↔ LegalFields w := by
  constructor
  · rintro ⟨i, hi⟩
    rcases decode_cases hi with ⟨sel, -, rfl⟩ | ⟨n, -, rfl, hn⟩ | ⟨-, rfl⟩ | ⟨-, rfl⟩
    · simp [LegalFields]
    · simp [LegalFields, hn]
    · simp [LegalFields]
    · simp [LegalFields]
  · rintro (h | h | h | h)
    · exact ⟨_, decode_eq_construct_iff.mpr h⟩
    · exact ⟨_, decode_eq_write_iff.mpr h⟩
    · exact ⟨_, decode_eq_sum_iff.mpr h⟩
    · exact ⟨_, decode_eq_reset_iff.mpr h⟩

/-! ## The rows of the table -/

/-- Every mask covers OP and RSVD. -/
theorem and_mask_eq_packWord_iff {w m : Word32} {op : BitVec 4} (hop : fieldOp m = .allOnes 4)
    (hrsvd : fieldRsvd m = .allOnes 20) : w &&& m = packWord 0 0 op ↔
      fieldOp w = op ∧ fieldN w &&& fieldN m = 0 ∧ fieldSel w &&& fieldSel m = 0 ∧ fieldRsvd w = 0 := by
  simp only [eq_packWord_iff, fieldOp_and, fieldN_and, fieldSel_and, fieldRsvd_and, hop, hrsvd, BitVec.and_allOnes]

/-- The mask of CONSTRUCT leaves out SEL. -/
theorem matches_construct_iff {w : Word32} :
    w &&& 0xFFFFF0FF#32 = 0x00000001#32 ↔ fieldOp w = 1 ∧ fieldN w = 0 ∧ fieldRsvd w = 0 := by
  have hn : fieldN 0xFFFFF0FF#32 = .allOnes 4 := rfl
  have hsel : fieldSel 0xFFFFF0FF#32 = 0 := rfl
  rw [show 0x00000001#32 = packWord 0 0 1 from rfl, and_mask_eq_packWord_iff rfl rfl, hn, hsel, BitVec.and_allOnes]
  simp

/-- The mask of WRITE leaves out N. -/
theorem matches_write_iff {w : Word32} :
    w &&& 0xFFFFFF0F#32 = 0x00000002#32 ↔ fieldOp w = 2 ∧ fieldSel w = 0 ∧ fieldRsvd w = 0 := by
  have hn : fieldN 0xFFFFFF0F#32 = 0 := rfl
  have hsel : fieldSel 0xFFFFFF0F#32 = .allOnes 4 := rfl
  rw [show 0x00000002#32 = packWord 0 0 2 from rfl, and_mask_eq_packWord_iff rfl rfl, hn, hsel, BitVec.and_allOnes]
  simp

/-- The mask of SUM and of RESET is the whole word. -/
theorem matches_whole_iff {w : Word32} {op : BitVec 4} : w &&& 0xFFFFFFFF#32 = packWord 0 0 op ↔
    fieldOp w = op ∧ fieldN w = 0 ∧ fieldSel w = 0 ∧ fieldRsvd w = 0 := by
  rw [show 0xFFFFFFFF#32 = BitVec.allOnes 32 from rfl, BitVec.and_allOnes, eq_packWord_iff]

theorem matches_sum_iff {w : Word32} : w &&& 0xFFFFFFFF#32 = 0x00000003#32 ↔
    fieldOp w = 3 ∧ fieldN w = 0 ∧ fieldSel w = 0 ∧ fieldRsvd w = 0 := matches_whole_iff (op := 3)

theorem matches_reset_iff {w : Word32} : w &&& 0xFFFFFFFF#32 = 0x00000004#32 ↔
    fieldOp w = 4 ∧ fieldN w = 0 ∧ fieldSel w = 0 ∧ fieldRsvd w = 0 := matches_whole_iff (op := 4)

/-- Every mask covers OP, so a word that matches a row has the row's opcode. -/
theorem fieldOp_eq_of_matches {r : OpcodeRow} {w : Word32} (hr : r ∈ opcodeRows) (h : w &&& r.mask = r.pattern) :
    fieldOp w = fieldOp r.pattern := by
  have hmask : ∀ q ∈ opcodeRows, fieldOp q.mask = .allOnes 4 := by decide
  rw [← h, fieldOp_and, hmask r hr, BitVec.and_allOnes]

/-- No word matches two rows: their opcodes differ. -/
theorem opcodeRows_exclusive (w : Word32) :
    opcodeRows.Pairwise (fun r q => ¬ (w &&& r.mask = r.pattern ∧ w &&& q.mask = q.pattern)) := by
  have hops : opcodeRows.Pairwise (fun r q => fieldOp r.pattern ≠ fieldOp q.pattern) := by decide
  refine hops.imp_of_mem fun hr hq hne => ?_
  rintro ⟨hwr, hwq⟩
  exact hne ((fieldOp_eq_of_matches hr hwr).symm.trans (fieldOp_eq_of_matches hq hwq))

/-- A list of which no two entries pass a test keeps at most one entry under it. -/
theorem length_filter_le_one {α : Type} {p : α → Bool} {l : List α}
    (h : l.Pairwise (fun a b => ¬ (p a = true ∧ p b = true))) : (l.filter p).length ≤ 1 := by
  have hp : ∀ a ∈ l.filter p, p a = true := fun a ha => (List.mem_filter.mp ha).2
  have hex := h.filter p
  generalize l.filter p = k at hp hex
  match k, hex with
  | [], _ => simp
  | [_], _ => simp
  | a :: b :: _, hex => exact absurd ⟨hp a (by simp), hp b (by simp)⟩ (List.rel_of_pairwise_cons hex (by simp))

theorem OpcodeRow.accepts_iff {r : OpcodeRow} {w : Word32} :
    r.accepts w = true ↔ w &&& r.mask = r.pattern ∧ (fieldN w).toNat ≤ r.maxN := by
  simp [OpcodeRow.accepts]

/-- Since the rows exclude each other, "exactly one row" is "some row". -/
theorem legalWord_iff_exists {w : Word32} : legalWord w = true ↔ ∃ r ∈ opcodeRows, r.accepts w = true := by
  have hle : (opcodeRows.filter (·.accepts w)).length ≤ 1 := by
    refine length_filter_le_one ((opcodeRows_exclusive w).imp fun hne => ?_)
    exact fun ⟨hr, hq⟩ => hne ⟨(OpcodeRow.accepts_iff.mp hr).1, (OpcodeRow.accepts_iff.mp hq).1⟩
  rw [← List.length_filter_pos_iff, legalWord, beq_iff_eq]
  omega

/-- The rows accept exactly the words of the four forms. -/
theorem legalWord_iff {w : Word32} : legalWord w = true ↔ LegalFields w := by
  simp only [LegalFields, legalWord_iff_exists, opcodeRows, List.exists_mem_cons_iff, List.not_mem_nil, false_and,
    exists_false, or_false, OpcodeRow.accepts_iff, matches_construct_iff, matches_write_iff, matches_sum_iff,
    matches_reset_iff, fieldN_le, and_true]

/-- Settles O4: each row and the decoder's answer ask the same of the word's fields, and the rows' opcodes differ. -/
theorem matchAndMaskDecide : Obligations.MatchAndMaskDecide := by
  unfold Obligations.MatchAndMaskDecide
  intro w d
  refine ⟨?_, ?_, ?_, ?_, exists_decode_iff.trans legalWord_iff.symm, opcodeRows_exclusive w⟩
  · rw [decode_eq_construct_iff, matches_construct_iff]
  · rw [decode_eq_write_iff, matches_write_iff]
  · rw [decode_eq_sum_iff, matches_sum_iff]
  · rw [decode_eq_reset_iff, matches_reset_iff]

end Sys2Proof
end

