-- ==== Sys2Proof/Proofs/IllegalWords.lean ====
section
/-! PROOFS. Illegal command words (30_encoding.md R87): which they are, and that they record ILLEGAL_CMD and no more. -/

namespace Sys2Proof

theorem op_cases (op : BitVec 4) : op = 0 ∨ op = 1 ∨ op = 2 ∨ op = 3 ∨ op = 4 ∨ 5 ≤ op.toNat := by
  revert op
  decide

/-- A word has none of the four forms exactly in the cases of R87, opcode by opcode. -/
theorem not_legalFields_iff {w : Word32} : ¬ LegalFields w ↔
    (fieldOp w = 0 ∨ 5 ≤ (fieldOp w).toNat ∨ fieldRsvd w ≠ 0 ∨ (fieldOp w ≠ 1 ∧ fieldSel w ≠ 0) ∨
      (fieldOp w ≠ 2 ∧ fieldN w ≠ 0) ∨ (fieldOp w = 2 ∧ 8 < (fieldN w).toNat)) := by
  unfold LegalFields
  rcases op_cases (fieldOp w) with hop | hop | hop | hop | hop | hop
  · simp [hop]
  · simp [hop, imp_iff_not_or, or_comm]
  · simp [hop, imp_iff_not_or, or_comm, or_left_comm]
  · simp [hop, imp_iff_not_or, or_comm, or_left_comm]
  · simp [hop, imp_iff_not_or, or_comm, or_left_comm]
  · have hne : ∀ c : BitVec 4, c.toNat < 5 → fieldOp w ≠ c := by
      rintro c hc rfl
      omega
    simp [hop, hne]

/-- The words without a command are those of no form. -/
theorem forall_decode_ne_iff {w : Word32} {d : Word64} : (∀ i, decode w d ≠ .ok i) ↔ ¬ LegalFields w := by
  rw [← exists_decode_iff (d := d), not_exists]

end Sys2Proof

namespace Sys2Proof.Machine

/-- With no command in progress, the action `command` executes its word in the state that accepted it
(20_memory.md R60, R62). -/
theorem step_command {s : State} {rest : List HostAction} {w : Word32} {d : Word64} (hb : s.busy = false)
    (hh : s.host = .command w d :: rest) : step s = execute w d (s.accept rest) := by
  simp [step, hb, hh]

/-- A word without a command records ILLEGAL_CMD (45_digest_engine.md R221). -/
theorem execute_of_illegal {w : Word32} {d : Word64} (h : ∀ i, decode w d ≠ .ok i) (s : State) :
    execute w d s = .next (s.raise .illegalCmd) := by
  unfold execute
  cases hd : decode w d with
  | ok i => exact absurd hd (h i)
  | error e => rfl

/-- Settles O5: the illegal words are those of no form, the step is `execute_of_illegal` after the acceptance, and the
worked words are illegal by their fields. -/
theorem illegalCommandRecordsOnlyErr : Obligations.IllegalCommandRecordsOnlyErr := by
  unfold Obligations.IllegalCommandRecordsOnlyErr
  refine ⟨fun w d => forall_decode_ne_iff.trans not_legalFields_iff, fun w d s rest hb hh hw => ?_, fun d i => ?_⟩
  · rw [step_command hb hh, execute_of_illegal hw, State.raise]
  · have hill : ∀ w, ¬ LegalFields w → decode w d ≠ .ok i := fun w hw => forall_decode_ne_iff.mpr hw i
    refine ⟨hill _ ?_, hill _ ?_, hill _ ?_, hill _ ?_, hill _ ?_⟩ <;> unfold LegalFields <;> decide

end Sys2Proof.Machine
end

