-- ==== Sys2Proof/Proofs/CipherPort.lean ====
section
/-! PROOFS. The handshake of the block cipher port (40_block_cipher_port.md R114, R118): an offered request stays until it
is taken and is then outstanding, and a response to no request is ignored. -/

namespace Sys2Proof.Machine

/-! ## The request outstanding -/

/-- A command in progress has no request outstanding exactly when it awaits no response. -/
theorem cipherOutstanding_eq_none_iff {s : State} (hb : s.busy = true) :
    cipherOutstanding s = none ↔ ∀ i, s.flight.phase ≠ .await i := by
  rw [← Option.not_isSome_iff_eq_none, outstanding_iff hb, not_exists]

/-- The request whose response a command in progress awaits is the one outstanding. -/
theorem cipherOutstanding_of_await {s : State} {i : Fin 4} (hb : s.busy = true) (hp : s.flight.phase = .await i) :
    cipherOutstanding s = some (request s i) := by
  unfold cipherOutstanding
  rw [if_pos hb, hp]

/-- While a response is awaited and does not come, no request is on the port. -/
theorem cipherOffer_wait (T : Timing) {e : EdgeIn} {s : State} {i : Fin 4} (hp : s.flight.phase = .await i)
    (hv : e.cipRspValid = false) : cipherOffer T e s = none := by
  rw [Option.eq_none_iff_forall_ne_some]
  intro r hr
  obtain ⟨-, -, j, hj, -⟩ := cipherOffer_eq_some.mp hr
  have hoffer : (cycle T e s).flight.phase = .offer j := (offering_eq_some.mp hj).1
  have hawait : (cycle T e s).flight.phase = .await i := by rw [cycle_wait T hp hv]; exact hp
  rw [hawait] at hoffer
  cases hoffer

/-! ## An edge with a request on the port -/

/-- A request is made from SBOX_SEL, the keys and HS alone (R113). -/
theorem request_congr {s t : State} (ha : t.toArch = s.toArch) (hk : t.flight.k = s.flight.k)
    (hh : t.flight.hs = s.flight.hs) (i : Fin 4) : request t i = request s i := by
  unfold request
  rw [ha, hk, hh]

theorem transferFlight_taken {T : Timing} {e : EdgeIn} {c : State} {i : Fin 4} (ho : offering T c = some i)
    (hq : e.cipReqReady = true) :
    transferFlight T e c = { c.flight with phase := .await i, waited := 0, age := c.flight.age + 1 } := by
  unfold transferFlight
  rw [ho]
  exact if_pos hq

theorem transferFlight_held {T : Timing} {e : EdgeIn} {c : State} (hq : e.cipReqReady = false) :
    transferFlight T e c = { c.flight with age := c.flight.age + 1 } := by
  rcases transferFlight_cases T e c with ⟨i, -, hq', -⟩ | ⟨-, h⟩
  · rw [hq] at hq'
    cases hq'
  · exact h

/-- A command with a request on the port does not complete: the edge moves the hidden state alone. -/
theorem edge_of_offering {T : Timing} {e : EdgeIn} {s t : State} {i : Fin 4} (he : edge T e s = .next t)
    (hb : s.busy = true) (hr : e.rstN = true) (ho : offering T (cycle T e s) = some i) :
    t.toArch = (cycle T e s).toArch ∧ t.flight = transferFlight T e (cycle T e s) := by
  have ht := edge_busy he hb hr
  rcases workEdge_cases T e s with ⟨hfin, -⟩ | ⟨-, hw⟩
  · have hdone : (cycle T e s).flight.phase = .done := (finishing_iff.mp hfin).1
    rw [(offering_eq_some.mp ho).1] at hdone
    cases hdone
  · rw [hw] at ht
    rw [ht, cycle_toArch]
    exact ⟨rfl, rfl⟩

/-- A request in a state that has only aged is on the port there too. -/
theorem cipherOffer_of_aged {T : Timing} {e : EdgeIn} {c t : State} {i : Fin 4} {n : Nat} (hr : e.rstN = true)
    (hb : t.busy = true) (ho : offering T c = some i) (ha : t.toArch = c.toArch)
    (hf : t.flight = { c.flight with age := c.flight.age + n }) : cipherOffer T e t = some (request c i) := by
  obtain ⟨hp, hrest⟩ := offering_eq_some.mp ho
  have hpt : t.flight.phase = .offer i := by rw [hf]; exact hp
  have hrt : rested T t = true :=
    rested_later T (shape_congr ha (by rw [hf]) (by rw [hf])) (by rw [hf]) (by rw [hf]; exact Nat.le_add_right _ _) hrest
  refine cipherOffer_eq_some.mpr ⟨hr, hb, i, ?_, ?_⟩ <;> rw [cycle_offer T e hpt]
  · exact offering_eq_some.mpr ⟨hpt, hrt⟩
  · exact (request_congr ha (by rw [hf]) (by rw [hf]) i).symm

/-- Settles O49: the edge moves the hidden state alone; a request not taken has only aged, one taken is awaited. -/
theorem cipherRequestHeldUntilTaken : Obligations.CipherRequestHeldUntilTaken := by
  unfold Obligations.CipherRequestHeldUntilTaken
  intro T e s t r hr hrst he
  obtain ⟨-, hb, i, ho, rfl⟩ := cipherOffer_eq_some.mp hr
  obtain ⟨ha, hf⟩ := edge_of_offering he hb hrst ho
  have hbt : t.busy = true := by rw [ha, cycle_toArch]; exact hb
  constructor
  · intro hq
    rw [transferFlight_held hq] at hf
    have hp : t.flight.phase = .offer i := by rw [hf]; exact (offering_eq_some.mp ho).1
    refine ⟨(cipherOutstanding_eq_none_iff hbt).mpr fun j hj => ?_, fun e' hr' => cipherOffer_of_aged hr' hbt ho ha hf⟩
    rw [hp] at hj
    cases hj
  · intro hq
    rw [transferFlight_taken ho hq] at hf
    have hp : t.flight.phase = .await i := by rw [hf]
    have hreq : request t i = request (cycle T e s) i := request_congr ha (by rw [hf]) (by rw [hf]) i
    exact ⟨(cipherOutstanding_of_await hbt hp).trans (congrArg some hreq), fun e' hv => cipherOffer_wait T hp hv⟩

/-! ## A response to no request -/

/-- With no response awaited, the block's work does not read the response ports. -/
theorem workEdge_stray (T : Timing) (e : EdgeIn) {s : State} (v : Bool) (b : Word64)
    (h : ∀ i, s.flight.phase ≠ .await i) :
    workEdge T { e with cipRspValid := v, cipRspBlock := b } s = workEdge T e s := by
  have hcycle : cycle T { e with cipRspValid := v, cipRspBlock := b } s = cycle T e s := by
    unfold cycle
    rw [receiveFlight_of_not_await _ h, receiveFlight_of_not_await _ h]
  unfold workEdge
  rw [hcycle]
  rfl

/-- Settles O50: of all that an edge does, only the work on a command in progress reads the response ports. -/
theorem strayResponseIgnored : Obligations.StrayResponseIgnored := by
  unfold Obligations.StrayResponseIgnored
  intro T e s v b hnone
  have hmove : edgeMove T { e with cipRspValid := v, cipRspBlock := b } s = edgeMove T e s := by
    unfold edgeMove
    cases hb : s.busy with
    | false => rfl
    | true =>
      rw [workEdge_stray T e v b ((cipherOutstanding_eq_none_iff hb).mp hnone)]
      rfl
  unfold edge
  rw [hmove]
  rfl

end Sys2Proof.Machine
end

