-- ==== Sys2Proof/Proofs/KeyDerivation.lean ====
section
/-! PROOFS. The key_derivation_unit (41_key_derivation.md R131 to R134): A and P are linear bijections, the round
constants, and the key schedule as `P(A^j(H) ⊕ C ⊕ A^2j(M))`, which is affine because A and P are linear. -/

namespace Sys2Proof.Machine

/-! ## The linear word transform A -/

theorem linA_xor (x y : Word256) : linA (x ^^^ y) = linA x ^^^ linA y := by
  apply eq_of_words <;>
    simp only [wordOf_xor, wordOf_linA_zero, wordOf_linA_one, wordOf_linA_two, wordOf_linA_three]
  ac_rfl

@[simp] theorem linA_zero : linA 0 = 0 := by
  apply eq_of_words <;>
    simp only [wordOf_linA_zero, wordOf_linA_one, wordOf_linA_two, wordOf_linA_three, wordOf_zero]
  rfl

/-- w1, w2 and w3 are copied and w0 is recovered as `word_3 ⊕ word_0` (R131). -/
theorem linA_injective : Function.Injective linA := by
  intro x y h
  have h1 : wordOf x 1 = wordOf y 1 := by rw [← wordOf_linA_zero, h, wordOf_linA_zero]
  have h2 : wordOf x 2 = wordOf y 2 := by rw [← wordOf_linA_one, h, wordOf_linA_one]
  have h3 : wordOf x 3 = wordOf y 3 := by rw [← wordOf_linA_two, h, wordOf_linA_two]
  have h01 : wordOf x 0 ^^^ wordOf x 1 = wordOf y 0 ^^^ wordOf y 1 := by
    rw [← wordOf_linA_three, h, wordOf_linA_three]
  have h0 : wordOf x 0 = wordOf y 0 := by
    rw [h1] at h01
    exact (BitVec.xor_left_inj _).mp h01
  exact eq_of_words h0 h1 h2 h3

theorem linA_joinWords (w3 w2 w1 w0 : Word64) :
    linA (joinWords w3 w2 w1 w0) = joinWords (w0 ^^^ w1) w3 w2 w1 := by
  simp only [linA, wordOf_joinWords_zero, wordOf_joinWords_one, wordOf_joinWords_two, wordOf_joinWords_three]

/-- Settles O20: each part is the lemma of its name, and an injective map of a finite type is bijective. -/
theorem linearTransformA : Obligations.LinearTransformA := by
  unfold Obligations.LinearTransformA
  refine ⟨fun x => ⟨wordOf_linA_zero x, wordOf_linA_one x, wordOf_linA_two x, wordOf_linA_three x⟩, linA_xor, linA_zero,
    Finite.injective_iff_bijective.mp linA_injective, ?_⟩
  exact linA_joinWords 4 3 2 1

/-! ## The byte permutation P -/

theorem permP_xor (x y : Word256) : permP (x ^^^ y) = permP x ^^^ permP y := by
  apply byteOf_ext
  intro t ht
  simp only [byteOf_xor, byteOf_permP _ ht]

@[simp] theorem permP_zero : permP 0 = 0 := by
  apply byteOf_ext
  intro t ht
  simp only [byteOf_permP _ ht, byteOf_zero]

/-- φ transposes the 4×8 matrix of bytes (R132). -/
theorem phi_transposes {k i : Nat} (hi : i < 4) : phi (4 * k + i) = 8 * i + k := by
  unfold phi
  omega

/-- Byte `8i + k` of X stands at byte `4k + i` of P(X), so P(X) determines X. -/
theorem permP_injective : Function.Injective permP := by
  intro x y h
  apply byteOf_ext
  intro j hj
  have ht : 4 * (j % 8) + j / 8 < 32 := by omega
  have hphi : phi (4 * (j % 8) + j / 8) = j := by
    rw [phi_transposes (by omega), Nat.div_add_mod]
  rw [← hphi, ← byteOf_permP x ht, h, byteOf_permP y ht]

theorem phi_eq_self_iff {t : Nat} (ht : t < 32) : phi t = t ↔ t = 0 ∨ t = 31 := by
  unfold phi
  omega

/-- Settles O21: P acts on bytes by φ, and φ is a transposition of a matrix that is not square; input byte 1 goes to
byte 4, and from there to byte 16. -/
theorem bytePermutationP : Obligations.BytePermutationP := by
  unfold Obligations.BytePermutationP
  refine ⟨fun x t ht => byteOf_permP x ht, fun k _ i hi => phi_transposes hi, permP_xor, permP_zero,
    Finite.injective_iff_bijective.mp permP_injective, ⟨1#256 <<< 8, ?_⟩, fun t ht => phi_eq_self_iff ht, ?_⟩
  · decide +kernel
  · decide +kernel

/-! ## The round constants -/

/-- Settles O22: the words and the bytes of the one constant that is not 0. -/
theorem roundConstants : Obligations.RoundConstants := by
  unfold Obligations.RoundConstants
  refine ⟨rfl, rfl, rfl, rfl, ?_, ?_⟩
  · decide +kernel
  · decide +kernel

/-! ## The key schedule -/

theorem iterate_linA_xor (n : Nat) (x y : Word256) : linA^[n] (x ^^^ y) = linA^[n] x ^^^ linA^[n] y := by
  induction n generalizing x y with
  | zero => rfl
  | succ n ih => rw [Function.iterate_succ_apply, linA_xor, ih]; rfl

theorem iterate_linA_zero (n : Nat) : linA^[n] 0 = 0 := Function.iterate_fixed linA_zero n

/-- What the round constants have become in U after j turns of the schedule's loop (R134, C1 = C2 = C4 = 0). -/
def keyConstant : Fin 4 → Word256
  | 0 => 0
  | 1 => 0
  | 2 => roundC3
  | 3 => linA roundC3

theorem nextU_two (u : Word256) : nextU 2 u = linA u := BitVec.xor_zero
theorem nextU_three (u : Word256) : nextU 3 u = linA u ^^^ roundC3 := rfl
theorem nextU_four (u : Word256) : nextU 4 u = linA u := BitVec.xor_zero

/-! The keys K2 to K4 unrolled (R134). -/

theorem keyDerive_one_unrolled (h m : Word256) : (keyDerive h m)[1] = permP (linA h ^^^ linA (linA m)) := by
  rw [keyDerive_one, nextU_two, nextV]

theorem keyDerive_two_unrolled (h m : Word256) :
    (keyDerive h m)[2] = permP (linA (linA h) ^^^ roundC3 ^^^ linA (linA (linA (linA m)))) := by
  rw [keyDerive_two, nextU_two, nextU_three, nextV, nextV]

theorem keyDerive_three_unrolled (h m : Word256) : (keyDerive h m)[3] =
    permP (linA (linA (linA h)) ^^^ linA roundC3 ^^^ linA (linA (linA (linA (linA (linA m)))))) := by
  rw [keyDerive_three, nextU_two, nextU_three, nextU_four, linA_xor, nextV, nextV, nextV]

/-- The four keys in one form: the key of index j is `P(A^j(H) ⊕ C ⊕ A^2j(M))`. -/
theorem keyDerive_getElem (h m : Word256) (j : Fin 4) :
    (keyDerive h m)[j] = permP (linA^[j] h ^^^ keyConstant j ^^^ linA^[2 * j] m) := by
  match j with
  | 0 => exact (keyDerive_zero h m).trans (by simp [keyConstant])
  | 1 => exact (keyDerive_one_unrolled h m).trans (by simp [keyConstant])
  | 2 => exact keyDerive_two_unrolled h m
  | 3 => exact keyDerive_three_unrolled h m

/-- The constant of a key alone is its key of (0, 0). -/
theorem keyDerive_zero_zero (j : Fin 4) : (keyDerive 0 0)[j] = permP (keyConstant j) := by
  rw [keyDerive_getElem, iterate_linA_zero, iterate_linA_zero]
  simp

/-- `a ⊕ c ⊕ b` is affine in (a, b) with constant c. -/
theorem xor_const_xor_affine (a a' b b' c : Word256) :
    (a ^^^ a') ^^^ c ^^^ (b ^^^ b') = (a ^^^ c ^^^ b) ^^^ (a' ^^^ c ^^^ b') ^^^ c := by
  calc (a ^^^ a') ^^^ c ^^^ (b ^^^ b')
      = (a ^^^ a') ^^^ c ^^^ (b ^^^ b') ^^^ (c ^^^ c) := by rw [BitVec.xor_self, BitVec.xor_zero]
    _ = (a ^^^ c ^^^ b) ^^^ (a' ^^^ c ^^^ b') ^^^ c := by ac_rfl

/-- KeyDerive is affine over GF(2) in (H, M) (R134). -/
theorem keyDerive_xor (h h' m m' : Word256) (j : Fin 4) : (keyDerive (h ^^^ h') (m ^^^ m'))[j] =
    (keyDerive h m)[j] ^^^ (keyDerive h' m')[j] ^^^ (keyDerive 0 0)[j] := by
  rw [keyDerive_zero_zero, keyDerive_getElem, keyDerive_getElem, keyDerive_getElem, ← permP_xor, ← permP_xor,
    iterate_linA_xor, iterate_linA_xor, xor_const_xor_affine]

/-- Settles O23: the unrolled keys, their affinity by their common form `keyDerive_getElem`, and the operand 1 as the
pair whose keys K2 to K4 are not 0. -/
theorem keySchedule : Obligations.KeySchedule := by
  unfold Obligations.KeySchedule
  refine ⟨fun h m => ⟨keyDerive_zero h m, keyDerive_one_unrolled h m, keyDerive_two_unrolled h m,
    keyDerive_three_unrolled h m⟩, fun x => ?_, ⟨1, ?_⟩, keyDerive_xor, ?_⟩
  · rw [keyDerive_zero, BitVec.xor_self]
    exact permP_zero
  · decide +kernel
  · decide +kernel

end Sys2Proof.Machine
end

