-- ==== Sys2Proof/Proofs/Psi.lean ====
section
/-! PROOFS. One application of ψ (42_psi_shuffle.md R150): the shift with the feedback lane, and the corner cases. -/

namespace Sys2Proof.Machine

/-- Every bit of ψ(Y): below the top lane the bit 16 places up, in the top lane the bit of F. -/
theorem getLsbD_psi (y : Word256) (k : Nat) :
    (psi y).getLsbD k = if k < 240 then y.getLsbD (16 + k) else (psiFeedback y).getLsbD (k - 240) := by
  rw [psi, BitVec.getLsbD_append, BitVec.getLsbD_extractLsb']
  split
  next hlow => rw [decide_eq_true hlow, Bool.true_and]
  next => rfl

/-- ψ as a shift (R150): the bits below 240 come from the shifted operand, those of the top lane from F. -/
theorem psi_eq_shift_or_feedback (y : Word256) :
    psi y = (y >>> 16) ||| ((psiFeedback y).zeroExtend 256 <<< 240) := by
  apply BitVec.eq_of_getLsbD_eq
  intro k hk
  rw [getLsbD_psi]
  rcases Nat.lt_or_ge k 240 with hlow | htop
  · simp [hlow]
  · have hshift : y.getLsbD (16 + k) = false := BitVec.getLsbD_of_ge y _ (by omega)
    simp [Nat.not_lt.mpr htop, hk, hshift]

/-- Of an operand with only lane 0 non-zero, that lane is the feedback: lane 0 is a tap. -/
theorem psiFeedback_of_only_lane_zero {y : Word256} (hy : ∀ i < 16, i ≠ 0 → laneOf y i = 0) :
    psiFeedback y = laneOf y 0 := by
  simp [psiFeedback, hy]

theorem laneOf_allOnes {i : Nat} (hi : i < 16) : laneOf (BitVec.allOnes 256) i = BitVec.allOnes 16 := by
  apply BitVec.eq_of_getLsbD_eq
  intro k hk
  have hbit : 16 * i + k < 256 := by omega
  simp only [getLsbD_laneOf, BitVec.getLsbD_allOnes, hk, hbit, decide_true, Bool.and_self]

/-- Six taps of ones cancel. -/
theorem psiFeedback_allOnes : psiFeedback (BitVec.allOnes 256) = 0 := by
  simp only [psiFeedback, laneOf_allOnes, Nat.reduceLT, BitVec.xor_self, BitVec.zero_xor]
  rfl

/-- ψ fixes 0, being linear. -/
@[simp] theorem psi_zero : psi 0 = 0 := by
  have h : psi (0 ^^^ 0) = psi 0 ^^^ psi 0 := psi_xor 0 0
  rwa [BitVec.xor_self, BitVec.xor_self] at h

/-- Settles O24: the lanes and the corner cases by the two lane lemmas of ψ and the value of F, the shift form by the bits
of ψ, the worked example by evaluation. -/
theorem psiLanes : Obligations.PsiLanes := by
  unfold Obligations.PsiLanes
  refine ⟨fun y => ⟨fun i hi => laneOf_psi y hi, laneOf_psi_top y⟩, psi_eq_shift_or_feedback, psi_zero,
    fun y hy => ⟨?_, fun i hi => ?_⟩, ⟨fun i hi => ?_, ?_⟩, ?_⟩
  · rw [laneOf_psi_top, psiFeedback_of_only_lane_zero hy]
  · rw [laneOf_psi y hi]
    exact hy (i + 1) (by omega) (by omega)
  · rw [laneOf_psi _ hi]
    exact laneOf_allOnes (by omega)
  · rw [laneOf_psi_top, psiFeedback_allOnes]
  · decide +kernel

end Sys2Proof.Machine
end

