-- ==== Sys2Proof/Proofs/StepFunction.lean ====
section
/-! PROOFS. The step_function_pipeline (43_step_function.md): the mixing is linear because ψ^n is (R173), and the cipher
requests of a command are four for each of its Steps (R176), because an edge takes off the requests to come exactly the
one it transfers. -/

namespace Sys2Proof.Machine

/-! ## The mixing -/

theorem psiIter_xor (n : Nat) (x y : Word256) : psiIter n (x ^^^ y) = psiIter n x ^^^ psiIter n y := by
  induction n with
  | zero => rfl
  | succ n ih => rw [psiIter_succ, ih, psi_xor, ← psiIter_succ, ← psiIter_succ]

theorem mixing_linear (h m s : Word256) : mixing h m s = psiIter 61 h ^^^ psiIter 62 m ^^^ psiIter 74 s := by
  have hs : psiIter 62 (psiIter 12 s) = psiIter 74 s := (psiIter_add 62 12 s).symm
  rw [mixing, psiIter_xor, psiIter_psi, psiIter_xor, hs, BitVec.xor_assoc]

/-- Settles O27: the formula is the definition, its linear form the linearity of ψ^n, the worked example an evaluation. -/
theorem mixingIsLinear : Obligations.MixingIsLinear := by
  unfold Obligations.MixingIsLinear
  exact ⟨fun h m s => ⟨rfl, mixing_linear h m s⟩, by decide +kernel⟩

/-! ## The requests of a command -/

/-- The cipher requests still to come: those of the command in progress, none when there is none. -/
def requestsToCome (s : State) : Nat := if s.busy then s.flight.requestsLeft (4 * (shape s).steps) else 0

theorem requestsToCome_of_busy {s : State} (hb : s.busy = true) :
    requestsToCome s = s.flight.requestsLeft (4 * (shape s).steps) := if_pos hb

theorem requestsToCome_of_idle {s : State} (hb : s.busy = false) : requestsToCome s = 0 :=
  if_neg (by rw [hb]; decide)

/-- An edge takes off the requests to come exactly the one it transfers (40_block_cipher_port.md R114); the completing
edge transfers none and leaves none. -/
theorem requestsToCome_edge {T : Timing} {e : EdgeIn} {s t : State} (he : edge T e s = .next t) (hb : s.busy = true)
    (hr : e.rstN = true) :
    (if (cipherOffer T e s).isSome && e.cipReqReady then 1 else 0) + requestsToCome t = requestsToCome s := by
  rw [cipherOffer_isSome hr hb, requestsToCome_of_busy hb]
  cases ht : t.busy with
  | true =>
    obtain ⟨harch, hflight, -⟩ := edge_not_completing he hb hr ht
    rw [requestsToCome_of_busy ht, shape_next harch hflight, hflight, Nat.add_comm]
    exact requestsLeft_nextFlight T e s
  | false =>
    have hdone := (finishing_iff.mp (edge_completing he hb hr ht).1).1
    have hoffer : offering T (cycle T e s) = none := by simp only [offering, hdone]
    rw [requestsToCome_of_idle ht, ← requestsLeft_cycle T e s, hoffer]
    simp [Flight.requestsLeft, hdone]

/-- A run to completion transfers the requests that were to come. -/
theorem transfers_of_commandRun {T : Timing} {es : List EdgeIn} {s t : State} (h : CommandRun T es s t) :
    transfers T es s = requestsToCome s := by
  induction es generalizing s with
  | nil => exact (requestsToCome_of_idle h.1).symm
  | cons e es ih =>
    obtain ⟨hb, hr, -, s', he, hrun⟩ := h
    rw [transfers, he, ← requestsToCome_edge he hb hr, ← ih hrun]

/-- A command just accepted has four requests to come for each of its Steps. -/
theorem requestsToCome_accept {T : Timing} {a : EdgeIn} {s s₁ : State} (he : edge T a s = .next s₁)
    (hb : s.busy = false) (hr : a.rstN = true) (hv : a.cmdValid = true) :
    requestsToCome s₁ = 4 * (shapeOf a.cmdWord a.cmdData s).steps := by
  have ha := edge_accept he hb hr hv
  rw [← shape_accept ha, ha]
  rfl

/-- A WRITE runs a Step when it reaches 32 bytes (R176). -/
theorem stepCount_write (n : BitVec 4) (data : Word64) (s : State) :
    stepCount (.write n data) s = if 32 ≤ s.pbCount.toNat + n.toNat then 1 else 0 := by
  rw [stepCount, State.append_length, dataBytes_length]

/-- SUM runs a third Step when bytes are pending (R176). -/
theorem stepCount_sum (s : State) : stepCount .sum s = if s.pbCount = 0 then 2 else 3 := by
  have hpos : 0 < s.pbCount.toNat ↔ ¬ s.pbCount = 0 := by
    rw [Nat.pos_iff_ne_zero, not_iff_not]
    exact BitVec.toNat_inj (y := 0)
  rw [stepCount, if_congr hpos rfl rfl, ite_not]

/-- Settles O53: the run transfers the requests to come after the acceptance, which are four for each Step, and the Steps
are those of the table. -/
theorem requestsPerCommand : Obligations.RequestsPerCommand := by
  unfold Obligations.RequestsPerCommand
  intro T a es s s₁ t hb hr hv he hrun
  rw [transfers_of_commandRun hrun, requestsToCome_accept he hb hr hv, shapeOf]
  cases decode a.cmdWord a.cmdData with
  | error e => rfl
  | ok i =>
    dsimp only
    rw [mul_ite, mul_zero]
    refine if_congr Iff.rfl ?_ rfl
    cases i with
    | construct sel => rfl
    | write n data => rw [stepCount_write, mul_ite, mul_zero]
    | sum => rw [stepCount_sum, mul_ite]
    | reset => rfl

end Sys2Proof.Machine
end

