-- ==== Sys2Proof/Proofs/Accumulators.lean ====
section
/-! PROOFS. The two accumulator units that work on a block (44_accumulators.md): ChecksumAdd as a sum of blocks (R190) and
the bytes of the tail block (R195). -/

namespace Sys2Proof.Machine

/-- Adding blocks one after the other adds their sum to SIGMA. -/
theorem foldl_checksumAdd (sigma : Word256) (bs : List Word256) : bs.foldl checksumAdd sigma = sigma + bs.sum := by
  induction bs generalizing sigma with
  | nil => exact (BitVec.add_zero sigma).symm
  | cons b bs ih => rw [List.foldl_cons, ih, List.sum_cons, checksumAdd, BitVec.add_assoc]

/-- Settles O28: ChecksumAdd is the addition of `BitVec 256`, and a list of blocks adds its sum, which has no order. -/
theorem checksumAddWraps : Obligations.ChecksumAddWraps := by
  unfold Obligations.ChecksumAddWraps
  refine ⟨BitVec.toNat_add, by decide, BitVec.add_zero, fun sigma bs cs hperm => ?_, by decide, by decide⟩
  rw [foldl_checksumAdd, foldl_checksumAdd, hperm.sum_eq]

/-- The zero bytes at the high end add nothing to the value. -/
theorem tailBlock_eq_leInt (bytes : List Byte) : tailBlock bytes = leInt bytes := by
  rw [tailBlock, leInt, leNat_append, leNat_zeros, Nat.mul_zero, Nat.add_zero, leInt]

theorem byteOf_tailBlock (bytes : List Byte) {j : Nat} (hj : j < 32) : byteOf (tailBlock bytes) j = bytes.getD j 0 := by
  rw [tailBlock_eq_leInt, byteOf_leInt bytes hj]

/-- Up to 31 bytes leave the high byte of the tail block 0. -/
theorem tailBlock_lt {bytes : List Byte} (h : bytes.length ≤ 31) : (tailBlock bytes).toNat < 2 ^ 248 := by
  rw [tailBlock_eq_leInt, leInt, BitVec.toNat_ofNat]
  calc leNat bytes % 2 ^ 256
      _ ≤ leNat bytes := Nat.mod_le _ _
      _ < 256 ^ bytes.length := leNat_lt bytes
      _ ≤ 256 ^ 31 := Nat.pow_le_pow_right (by decide) h
      _ = 2 ^ 248 := by decide

/-- The pending bytes are read from below PB_COUNT only (10_state.md R26). -/
theorem State.pending_eq_of_below {s t : State} (hc : s.pbCount = t.pbCount)
    (hpb : ∀ k < s.pbCount.toNat, s.pb[k]? = t.pb[k]?) : s.pending = t.pending := by
  refine List.ext_getElem? fun k => ?_
  rw [State.pending, State.pending, ← hc, List.getElem?_take, List.getElem?_take]
  split
  · simpa using hpb k ‹_›
  · rfl

/-- Settles O29: the bytes and the bound hold of the value of the pending bytes alone, which the padding does not change;
bytes above PB_COUNT are not pending. -/
theorem tailBlockPadsTheHighEnd : Obligations.TailBlockPadsTheHighEnd := by
  unfold Obligations.TailBlockPadsTheHighEnd
  refine ⟨fun bytes _ hle => ⟨rfl, fun j hj => ?_, tailBlock_lt hle⟩, fun s t hc hpb => ?_, by decide⟩
  · rw [byteOf_tailBlock bytes hj]
    split
    case isTrue => rfl
    case isFalse hout => exact List.getD_eq_default _ _ (Nat.le_of_not_lt hout)
  · rw [State.pending_eq_of_below hc fun k hk => hpb k (hk.trans (pbCount_lt s)) hk]

end Sys2Proof.Machine
end

