-- ==== Sys2Proof/Proofs/MessageTracking.lean ====
section
/-! PROOFS. The registers as functions of the message (44_accumulators.md R198): every command keeps `Tracks`, and so the
split of a message into WRITEs does not matter (R199, 45_digest_engine.md R230). -/

namespace Sys2Proof.Machine

variable {m : List Byte} {s t u : State}

/-- Bytes that complete no block leave the chain as it is. -/
theorem chainOf_append_of_lt (enc : Word256 → Word64 → Word64) {d : List Byte} (h : m.length % 32 + d.length < 32) :
    chainOf enc (m ++ d) = chainOf enc m := by
  obtain ⟨hblocks, -⟩ := message_append_lt m d h
  rw [chainOf, hblocks, chainOf]

/-- Bytes that complete one block fold it into the chain. -/
theorem chainOf_append_of_ge (enc : Word256 → Word64 → Word64) {d : List Byte} (h : 32 ≤ m.length % 32 + d.length)
    (h64 : m.length % 32 + d.length < 64) :
    chainOf enc (m ++ d) = (chainOf enc m).fold enc 256 (firstBlock (messageTail m ++ d)) := by
  obtain ⟨hblocks, -⟩ := message_append_ge m d h h64
  rw [chainOf, hblocks, List.foldl_append, List.foldl_cons, List.foldl_nil, chainOf]

/-- PB_COUNT needs no proof of its own: it is the number of pending bytes. -/
theorem Tracks.of_pending (hp : s.pending = messageTail m) (hl : s.l = BitVec.ofNat 256 (256 * (m.length / 32)))
    (hsum : s.sigma = (chainOf (Config.cipher s.sboxSel) m).sigma)
    (hchain : s.h = (chainOf (Config.cipher s.sboxSel) m).h) : Tracks m s :=
  ⟨by rw [← State.pending_length, hp, messageTail_length], hp, hl, hsum, hchain⟩

/-- Init begins the empty message (R197). -/
theorem tracks_init (s : State) : Tracks [] s.init := .of_pending (by simp [State.pending, messageTail]) rfl rfl rfl

theorem tracks_constructBody (sel : BitVec 4) (s : State) : Tracks [] (constructBody sel s) :=
  .of_pending (tracks_init s).pending rfl rfl rfl

theorem tracks_resetBody (s : State) : Tracks [] (resetBody s) := .of_pending (tracks_init s).pending rfl rfl rfl

theorem tracks_raise (h : Tracks m s) (e : Err) : Tracks m (s.raise e) :=
  ⟨h.count, h.pending, h.length, h.sum, h.chain⟩

theorem tracks_sumBody (h : Tracks m s) : Tracks m (sumBody s) :=
  ⟨h.count, h.pending, h.length, h.sum, h.chain⟩

/-- The working buffer is the message's tail with the new bytes behind it (R193). -/
theorem Tracks.append_eq (h : Tracks m s) (d : List Byte) : s.append d = messageTail m ++ d := by
  rw [State.append, h.pending]

/-- A WRITE that raises no error appends its bytes to the message: either they only lengthen the tail, or one block is
completed and absorbed (R193, R194, R196). -/
theorem tracks_writeBody {n : BitVec 4} {data : Word64} (h : Tracks m s)
    (hc : commandError (.write n data) s = none) : Tracks (m ++ dataBytes n data) (writeBody n data s) := by
  have hlen : (m ++ dataBytes n data).length = m.length + n.toNat := by simp
  have hd : (dataBytes n data).length = n.toNat := dataBytes_length n data
  have hcount := h.count
  have h8 := write_count_le hc
  rcases Nat.lt_or_ge (s.pbCount.toNat + n.toNat) 32 with hpart | hfull
  · obtain ⟨hh, hsigma, hl, hp⟩ := writeBody_registers_of_lt data hpart
    have hlt : m.length % 32 + (dataBytes n data).length < 32 := by omega
    have hchain := chainOf_append_of_lt (Config.cipher s.sboxSel) hlt
    have hblocks : (m ++ dataBytes n data).length / 32 = m.length / 32 := by omega
    refine .of_pending ?_ ?_ ?_ ?_
    · rw [hp, h.append_eq, (message_append_lt m _ hlt).2]
    · rw [hl, h.length, hblocks]
    · rw [hsigma, h.sum, writeBody_sboxSel, hchain]
    · rw [hh, h.chain, writeBody_sboxSel, hchain]
  · obtain ⟨hh, hsigma, hl, hp⟩ := writeBody_registers_of_le hc hfull
    have hge : 32 ≤ m.length % 32 + (dataBytes n data).length := by omega
    have h64 : m.length % 32 + (dataBytes n data).length < 64 := by omega
    have hchain := chainOf_append_of_ge (Config.cipher s.sboxSel) hge h64
    have hblocks : (m ++ dataBytes n data).length / 32 = m.length / 32 + 1 := by omega
    refine .of_pending ?_ ?_ ?_ ?_
    · rw [hp, h.append_eq, (message_append_ge m _ hge h64).2]
    · rw [hl, h.length, hblocks, Nat.mul_succ, BitVec.ofNat_add]
      rfl
    · rw [hsigma, h.append_eq, h.sum, writeBody_sboxSel, hchain, Chain.fold]
    · rw [hh, h.append_eq, h.chain, writeBody_sboxSel, hchain, Chain.fold, stepFunction]

theorem messageAfter_of_error {i : Instr} {e : Err} (hc : commandError i s = some e) : messageAfter i s m = m := by
  rw [messageAfter.eq_def, hc]

/-- A command that raises no error leaves registers that track the message it leaves. CONSTRUCT needs no premise, since it
succeeds on an unconfigured engine. -/
theorem tracks_bodyOf {i : Instr} (h : s.mode ≠ .unconfigured → Tracks m s) (hc : commandError i s = none) :
    Tracks (messageAfter i s m) (bodyOf i s) := by
  obtain ⟨-, hmode⟩ := commandError_eq_none.mp hc
  rw [messageAfter.eq_def, hc]
  cases i with
  | construct sel => exact tracks_constructBody sel s
  | write n data => exact tracks_writeBody (h hmode) hc
  | sum => exact tracks_sumBody (h hmode)
  | reset => exact tracks_resetBody s

/-- L and the pending bytes together count the message's bits, modulo 2^256 (R198). -/
theorem Tracks.bitLength (h : Tracks m s) :
    s.l + BitVec.ofNat 256 (8 * s.pbCount.toNat) = BitVec.ofNat 256 (8 * m.length) := by
  have hbits : 256 * (m.length / 32) + 8 * (m.length % 32) = 8 * m.length := by omega
  rw [h.length, h.count, ← BitVec.ofNat_add, hbits]

/-- Settles O33: a failed command leaves the message and every register it speaks of, a successful one is
`tracks_bodyOf`; the bit length follows from the tracked L and PB_COUNT. -/
theorem registersTrackTheMessage : Obligations.RegistersTrackTheMessage := by
  unfold Obligations.RegistersTrackTheMessage
  intro i s t m hs hexec ht
  have htracks : Tracks (messageAfter i s m) t := by
    rcases exec_cases hexec with ⟨e, hc, rfl⟩ | ⟨hc, rfl⟩
    · rw [messageAfter_of_error hc]
      exact tracks_raise (hs ht) e
    · exact tracks_bodyOf hs hc
  exact ⟨htracks, htracks.bitLength⟩

/-- WRITEs of at most 8 bytes all succeed on a configured engine, and append what they carry to the message. -/
theorem tracks_runAll_writes {ws : List (BitVec 4 × Word64)} (hmode : s.mode ≠ .unconfigured) (h : Tracks m s)
    (hws : ∀ w ∈ ws, w.1.toNat ≤ 8) :
    ∃ t, runAll (writes ws) s = .next t ∧ t.mode ≠ .unconfigured ∧ t.sboxSel = s.sboxSel ∧
      Tracks (m ++ carried ws) t := by
  induction ws generalizing s m with
  | nil => exact ⟨s, rfl, hmode, rfl, by simpa [carried] using h⟩
  | cons w ws ih =>
    obtain ⟨hw, hrest⟩ := List.forall_mem_cons.mp hws
    have hc : commandError (.write w.1 w.2) s = none :=
      commandError_eq_none.mpr ⟨by simpa [Instr.wellFormed] using hw, hmode⟩
    obtain ⟨t, hrun, htmode, htsel, htracks⟩ := ih (s := writeBody w.1 w.2 s) (by simp) (tracks_writeBody h hc) hrest
    refine ⟨t, ?_, htmode, htsel.trans (writeBody_sboxSel w.1 w.2 s), ?_⟩
    · rw [writes, List.map_cons, runAll, exec_of_ok hc]
      exact hrun
    · simpa [carried] using htracks

/-- The message and SBOX_SEL determine the registers of R198. -/
theorem Tracks.registers_eq (ht : Tracks m t) (hu : Tracks m u) (hsel : t.sboxSel = u.sboxSel) :
    t.h = u.h ∧ t.sigma = u.sigma ∧ t.l = u.l ∧ t.pbCount = u.pbCount ∧ t.pending = u.pending :=
  ⟨by rw [ht.chain, hu.chain, hsel], by rw [ht.sum, hu.sum, hsel], by rw [ht.length, hu.length],
    BitVec.eq_of_toNat_eq (by rw [ht.count, hu.count]), by rw [ht.pending, hu.pending]⟩

/-- SUM's digest reads SBOX_SEL and the registers of R198 only (45_digest_engine.md R224). -/
theorem State.sumDigest_congr (hsel : t.sboxSel = u.sboxSel) (hh : t.h = u.h) (hsigma : t.sigma = u.sigma)
    (hl : t.l = u.l) (hcount : t.pbCount = u.pbCount) (hp : t.pending = u.pending) : t.sumDigest = u.sumDigest := by
  simp only [State.sumDigest, hsel, hh, hsigma, hl, hcount, hp]

theorem exec_sum_of_configured (h : s.mode ≠ .unconfigured) : exec .sum s = .next (sumBody s) :=
  exec_of_ok (commandError_eq_none.mpr ⟨rfl, h⟩)

/-- Settles O36: after either sequence the registers track the same message under the same SBOX_SEL, which determine them
and SUM's digest. -/
theorem chunkingInvariance : Obligations.ChunkingInvariance := by
  unfold Obligations.ChunkingInvariance
  intro ws vs s m hmode hs hws hvs hsame
  obtain ⟨t, ht, htmode, htsel, httracks⟩ := tracks_runAll_writes hmode hs hws
  obtain ⟨u, hu, humode, husel, hutracks⟩ := tracks_runAll_writes hmode hs hvs
  rw [hsame] at httracks
  have hsel : t.sboxSel = u.sboxSel := htsel.trans husel.symm
  obtain ⟨hh, hsigma, hl, hcount, hp⟩ := httracks.registers_eq hutracks hsel
  exact ⟨t, u, sumBody t, sumBody u, ht, hu, hh, hsigma, hl, hcount, hp, exec_sum_of_configured htmode,
    exec_sum_of_configured humode, State.sumDigest_congr hsel hh hsigma hl hcount hp⟩

end Sys2Proof.Machine
end

