-- ==== Sys2Proof/Proofs/DigestOfMessage.lean ====
section
/-! PROOFS. The digest as a function of the message (45_digest_engine.md R226): SUM's snapshot goes through the same
Steps as `digestOf` when the registers track the message; and the known answers over the reference cipher (R234). -/

namespace Sys2Proof.Machine

theorem foldl_chainFold_l (enc : Word256 → Word64 → Word64) (bits : Nat) (bs : List Word256) (c : Chain) :
    (bs.foldl (Chain.fold enc bits) c).l = c.l + BitVec.ofNat 256 (bits * bs.length) := by
  induction bs generalizing c with
  | nil => exact (BitVec.add_zero c.l).symm
  | cons b bs ih =>
    rw [List.foldl_cons, ih, Chain.fold, List.length_cons, Nat.mul_succ, Nat.add_comm, BitVec.ofNat_add,
      BitVec.add_assoc]

/-- The chain's L counts the bits of the full blocks (44_accumulators.md R198). -/
theorem chainOf_l (enc : Word256 → Word64 → Word64) (m : List Byte) :
    (chainOf enc m).l = BitVec.ofNat 256 (256 * (m.length / 32)) := by
  rw [chainOf, foldl_chainFold_l, fullBlocks, List.length_map, List.length_range]
  exact BitVec.zero_add _

/-- SUM's finalisation on tracked registers is that of the message: with bytes pending both fold the same tail block
first, with none neither does (R224, R226). -/
theorem Tracks.sumDigest_eq {m : List Byte} {s : State} (h : Tracks m s) : s.sumDigest = digestOf s.sboxSel m := by
  have hlength : s.l = (chainOf (Config.cipher s.sboxSel) m).l := h.length.trans (chainOf_l _ m).symm
  simp only [State.sumDigest, digestOf, digestWith, h.pending, h.count, h.chain, h.sum, hlength]
  split
  case isTrue => simp only [Chain.fold, tailBlock, messageTail_length, stepFunction, lengthAddTail, checksumAdd]
  case isFalse => rfl

/-- Settles O34: a configured SUM latches the digest of `Tracks.sumDigest_eq`; the length folded in is
`Tracks.bitLength`. -/
theorem sumGivesTheDigestOfTheMessage : Obligations.SumGivesTheDigestOfTheMessage := by
  unfold Obligations.SumGivesTheDigestOfTheMessage
  intro s m hmode h
  refine ⟨?_, h.bitLength⟩
  rw [exec_sum_of_configured hmode, sumBody, h.sumDigest_eq, State.latchDigest]

/-- Settles O32: an evaluation of each digest, six Steps at the most. -/
theorem knownAnswers : Obligations.KnownAnswers := by
  unfold Obligations.KnownAnswers
  refine ⟨?_, ?_, ?_, ?_, ?_, ?_⟩ <;> decide +kernel

end Sys2Proof.Machine
end

