-- ==== Sys2Proof/Proofs/CommandLists.lean ====
section
/-! PROOFS. Lists of commands (20_memory.md R63): running one more, and running one list on two states at once. -/

namespace Sys2Proof.Machine

theorem runAll_cons {i : Instr} {is : List Instr} {s t : State} (h : exec i s = .next t) :
    runAll (i :: is) s = runAll is t := by
  rw [runAll, h]

theorem runAll_concat {is : List Instr} {i : Instr} {s t : State} (h : runAll is s = .next t) :
    runAll (is ++ [i]) s = exec i t := by
  induction is generalizing s with
  | nil =>
    injection h with h
    rw [List.nil_append, runAll_cons (exec_eq i s), runAll, ← exec_eq, h]
  | cons j is ih =>
    rw [runAll_cons (exec_eq j s)] at h
    rw [List.cons_append, runAll_cons (exec_eq j s), ih h]

/-- A relation that every command keeps is kept by every list of commands. -/
theorem runAll_related {R : State → State → Prop}
    (hR : ∀ i s t, R s t → ∃ s' t', exec i s = .next s' ∧ exec i t = .next t' ∧ R s' t')
    (is : List Instr) {s t : State} (h : R s t) :
    ∃ s' t', runAll is s = .next s' ∧ runAll is t = .next t' ∧ R s' t' := by
  induction is generalizing s t with
  | nil => exact ⟨s, t, rfl, rfl, h⟩
  | cons i is ih =>
    obtain ⟨s₁, t₁, hs, ht, h₁⟩ := hR i s t h
    rw [runAll_cons hs, runAll_cons ht]
    exact ih h₁

end Sys2Proof.Machine
end

