-- ==== Sys2Proof/Proofs/SumTransparent.lean ====
section
/-! PROOFS. SUM is transparent (45_digest_engine.md R229): states apart in DIGEST, DIGEST_VALID and ERR only stay so
under every command, and the next SUM makes them equal. -/

namespace Sys2Proof.Machine

/-- `s` with other values in DIGEST, DIGEST_VALID and ERR. -/
def State.withDigest (d : Word256) (v : Bool) (e : Err) (s : State) : State :=
  { s with digest := d, digestValid := v, err := e }

/-- `t` is `s` but for DIGEST, DIGEST_VALID and ERR, and but for ERR alone when unconfigured: there no SUM succeeds. -/
structure ApartInDigest (s t : State) : Prop where
  frame : t = s.withDigest t.digest t.digestValid t.err
  unconfigured : s.mode = .unconfigured → t.digest = s.digest ∧ t.digestValid = s.digestValid

theorem writeBody_withDigest (n : BitVec 4) (data : Word64) (d : Word256) (v : Bool) (e : Err) (s : State) :
    writeBody n data (s.withDigest d v e) = (writeBody n data s).withDigest d false .ok := by
  rcases Nat.lt_or_ge (s.pbCount.toNat + n.toNat) 32 with h | h
  · rw [writeBody_of_lt data h, writeBody_of_lt data (s := s.withDigest d v e) h]
    rfl
  · rw [writeBody_of_le data h, writeBody_of_le data (s := s.withDigest d v e) h]
    rfl

theorem apartInDigest_raise {s t : State} (h : ApartInDigest s t) (e : Err) : ApartInDigest (s.raise e) (t.raise e) :=
  ⟨by rw [h.frame]; rfl, h.unconfigured⟩

/-- Unconfigured, the two states are apart in ERR alone, and a recorded error makes them equal. -/
theorem raise_eq_of_unconfigured {s t : State} (h : ApartInDigest s t) (hmode : s.mode = .unconfigured) (e : Err) :
    t.raise e = s.raise e := by
  obtain ⟨hd, hv⟩ := h.unconfigured hmode
  rw [h.frame, hd, hv]
  rfl

/-- The body of a command keeps the two states apart in no more than that, and leaves the same ERR; SUM's makes them
equal. -/
theorem apartInDigest_bodyOf {i : Instr} {s t : State} (h : ApartInDigest s t) :
    ApartInDigest (bodyOf i s) (bodyOf i t) ∧ (bodyOf i t).err = (bodyOf i s).err ∧
      (i = .sum → bodyOf i t = bodyOf i s) := by
  rw [h.frame]
  cases i with
  | construct sel => exact ⟨⟨rfl, nofun⟩, rfl, nofun⟩
  | write n data =>
    rw [bodyOf, bodyOf, writeBody_withDigest]
    exact ⟨⟨rfl, nofun⟩, rfl, nofun⟩
  | sum => exact ⟨⟨rfl, fun _ => ⟨rfl, rfl⟩⟩, rfl, fun _ => rfl⟩
  | reset => exact ⟨⟨rfl, nofun⟩, rfl, nofun⟩

/-- What one command does to two states apart in DIGEST, DIGEST_VALID and ERR only (R229). -/
theorem apartInDigest_exec (i : Instr) (s t : State) (h : ApartInDigest s t) :
    ∃ s' t', exec i s = .next s' ∧ exec i t = .next t' ∧
      ApartInDigest s' t' ∧ t'.err = s'.err ∧ (i = .sum → t' = s') := by
  have hmode : t.mode = s.mode := by rw [h.frame]; rfl
  have hsame : commandError i t = commandError i s := commandError_congr i hmode
  cases hc : commandError i s with
  | none => exact ⟨_, _, exec_of_ok hc, exec_of_ok (hsame.trans hc), apartInDigest_bodyOf h⟩
  | some e =>
    refine ⟨_, _, exec_of_error hc, exec_of_error (hsame.trans hc), apartInDigest_raise h e, rfl, ?_⟩
    rintro rfl
    have hunconf : s.mode = .unconfigured := by
      by_contra hconf
      rw [commandError_eq_none.mpr ⟨rfl, hconf⟩] at hc
      cases hc
    exact raise_eq_of_unconfigured h hunconf e

/-- A SUM leaves a state apart from the one before it in DIGEST, DIGEST_VALID and ERR only. -/
theorem apartInDigest_sum {s t : State} (h : exec .sum s = .next t) : ApartInDigest s t := by
  rcases exec_cases h with ⟨e, -, rfl⟩ | ⟨hc, rfl⟩
  · exact ⟨rfl, fun _ => ⟨rfl, rfl⟩⟩
  · obtain ⟨-, hmode⟩ := commandError_eq_none.mp hc
    exact ⟨rfl, fun h => absurd h hmode⟩

/-- Settles O39: the commands before the last keep the states apart in DIGEST, DIGEST_VALID and ERR only, and the last
one is `apartInDigest_exec`. -/
theorem sumIsTransparent : Obligations.SumIsTransparent := by
  unfold Obligations.SumIsTransparent
  intro s t hsum
  have h := apartInDigest_sum hsum
  refine ⟨h.frame, fun is => ?_⟩
  rcases List.eq_nil_or_concat is with rfl | ⟨before, i, rfl⟩
  · exact ⟨s, t, rfl, rfl, h.frame, fun hne => absurd rfl hne,
      fun before hnil => absurd hnil.symm (List.concat_ne_nil .sum before)⟩
  · obtain ⟨s₁, t₁, hs₁, ht₁, h₁⟩ :=
      runAll_related (fun i s t h =>
        let ⟨s', t', hs, ht, h', _⟩ := apartInDigest_exec i s t h
        ⟨s', t', hs, ht, h'⟩) before h
    obtain ⟨s', t', hs', ht', h', herr, heq⟩ := apartInDigest_exec i s₁ t₁ h₁
    rw [List.concat_eq_append, runAll_concat hs₁, runAll_concat ht₁]
    refine ⟨s', t', hs', ht', h'.frame, fun _ => herr, fun before' hsplit => heq ?_⟩
    exact (List.cons.inj (List.append_inj_right' hsplit rfl)).1

end Sys2Proof.Machine
end

