-- ==== Sys2Proof/Proofs/FreshEngine.lean ====
section
/-! PROOFS. RESET is as good as a fresh engine (45_digest_engine.md R232): both begin alike, and no command tells apart
two states that are `Indistinguishable`. -/

namespace Sys2Proof.Machine

theorem State.pbCount_eq_of_pending {s t : State} (h : s.pending = t.pending) : s.pbCount = t.pbCount :=
  BitVec.eq_of_toNat_eq (by rw [← State.pending_length, h, State.pending_length])

@[simp] theorem writeBody_busy (n : BitVec 4) (data : Word64) (s : State) : (writeBody n data s).busy = s.busy := by
  rcases Nat.lt_or_ge (s.pbCount.toNat + n.toNat) 32 with h | h
  · rw [writeBody_of_lt data h]; rfl
  · rw [writeBody_of_le data h]; rfl

theorem indistinguishable_raise {s t : State} (h : Indistinguishable s t) (e : Err) :
    Indistinguishable (s.raise e) (t.raise e) :=
  { h with err := rfl }

/-- Init clears all that a later command reads but SBOX_SEL, and leaves no byte pending. So two engines begin alike
whatever they held before, by RESET or by CONSTRUCT (R222, R225). -/
theorem indistinguishable_init {s t : State} (mode : Mode) {sel sel' : BitVec 4} (hsel : sel = sel')
    (hbusy : s.busy = t.busy) :
    Indistinguishable { s.init with sboxSel := sel, mode := mode, digestValid := false, err := .ok }
      { t.init with sboxSel := sel', mode := mode, digestValid := false, err := .ok } :=
  { mode := rfl, sboxSel := hsel, h := rfl, sigma := rfl, l := rfl, pbCount := rfl, digestValid := rfl, err := rfl
    busy := hbusy
    pending := (tracks_init s).pending.trans (tracks_init t).pending.symm
    digest := nofun }

/-- A WRITE leaves the same accumulators and pending bytes in both states: its working buffer holds the pending
bytes and none above them (10_state.md R26). -/
theorem writeBody_registers_eq {n : BitVec 4} {data : Word64} {s t : State} (h : Indistinguishable s t)
    (hs : commandError (.write n data) s = none) (ht : commandError (.write n data) t = none) :
    (writeBody n data s).h = (writeBody n data t).h ∧ (writeBody n data s).sigma = (writeBody n data t).sigma ∧
      (writeBody n data s).l = (writeBody n data t).l ∧
      (writeBody n data s).pending = (writeBody n data t).pending := by
  have hbuf : s.append (dataBytes n data) = t.append (dataBytes n data) := by
    rw [State.append, h.pending, State.append]
  rcases Nat.lt_or_ge (s.pbCount.toNat + n.toNat) 32 with hpart | hfull
  · obtain ⟨hh, hsigma, hl, hp⟩ := writeBody_registers_of_lt data hpart
    rw [h.pbCount] at hpart
    obtain ⟨hh', hsigma', hl', hp'⟩ := writeBody_registers_of_lt data hpart
    rw [hh, hh', hsigma, hsigma', hl, hl', hp, hp']
    exact ⟨h.h, h.sigma, h.l, hbuf⟩
  · obtain ⟨hh, hsigma, hl, hp⟩ := writeBody_registers_of_le hs hfull
    rw [h.pbCount] at hfull
    obtain ⟨hh', hsigma', hl', hp'⟩ := writeBody_registers_of_le ht hfull
    rw [hh, hh', hsigma, hsigma', hl, hl', hp, hp', hbuf, h.sboxSel, h.h, h.sigma, h.l]
    exact ⟨rfl, rfl, rfl, rfl⟩

theorem indistinguishable_writeBody {n : BitVec 4} {data : Word64} {s t : State} (h : Indistinguishable s t)
    (hs : commandError (.write n data) s = none) (ht : commandError (.write n data) t = none) :
    Indistinguishable (writeBody n data s) (writeBody n data t) := by
  obtain ⟨hh, hsigma, hl, hp⟩ := writeBody_registers_eq h hs ht
  exact
    { mode := rfl, h := hh, sigma := hsigma, l := hl, pending := hp, digestValid := rfl, err := rfl
      sboxSel := by rw [writeBody_sboxSel, writeBody_sboxSel, h.sboxSel]
      pbCount := State.pbCount_eq_of_pending hp
      busy := by rw [writeBody_busy, writeBody_busy, h.busy]
      digest := nofun }

/-- SUM's digest is of registers that the two states share, so both latch the same one, whatever DIGEST held. -/
theorem indistinguishable_sumBody {s t : State} (h : Indistinguishable s t) :
    Indistinguishable (sumBody s) (sumBody t) :=
  { h with
    digestValid := rfl
    err := rfl
    digest := fun _ => State.sumDigest_congr h.sboxSel h.h h.sigma h.l h.pbCount h.pending }

/-- No command tells the two states apart (R228). -/
theorem indistinguishable_exec (i : Instr) (s t : State) (h : Indistinguishable s t) :
    ∃ s' t', exec i s = .next s' ∧ exec i t = .next t' ∧ Indistinguishable s' t' := by
  have hsame : commandError i t = commandError i s := (commandError_congr i h.mode).symm
  cases hc : commandError i s with
  | some e => exact ⟨_, _, exec_of_error hc, exec_of_error (hsame.trans hc), indistinguishable_raise h e⟩
  | none =>
    refine ⟨_, _, exec_of_ok hc, exec_of_ok (hsame.trans hc), ?_⟩
    cases i with
    | construct sel => exact indistinguishable_init .empty rfl h.busy
    | write n data => exact indistinguishable_writeBody h hc (hsame.trans hc)
    | sum => exact indistinguishable_sumBody h
    | reset => exact indistinguishable_init .empty h.sboxSel h.busy

/-- Settles O38: RESET and CONSTRUCT both succeed, begin alike by `indistinguishable_init`, and no later command tells
the engines apart. -/
theorem resetEquivalentToFresh : Obligations.ResetEquivalentToFresh := by
  unfold Obligations.ResetEquivalentToFresh
  intro s f hs hsel hf hbusy
  have hreset : commandError .reset s = none := commandError_eq_none.mpr ⟨rfl, hs⟩
  have hconstruct : commandError (.construct s.sboxSel) f = none := commandError_eq_none.mpr ⟨rfl, hf, hsel⟩
  have hfresh : Indistinguishable (resetBody s) (constructBody s.sboxSel f) := indistinguishable_init .empty rfl hbusy
  exact ⟨_, _, exec_of_ok hreset, exec_of_ok hconstruct, hfresh,
    fun is => runAll_related indistinguishable_exec is hfresh⟩

end Sys2Proof.Machine
end

