-- ==== Sys2Proof/Proofs/ErrorPriority.lean ====
section
/-! PROOFS. The one error a command word records (60_exceptions.md R262): the decoder's verdict comes before the check of
MODE, and that before the check of SEL. -/

namespace Sys2Proof.Machine

/-- Every command the decoder answers is well-formed: it has tested the byte count of a WRITE (30_encoding.md R85). -/
theorem wellFormed_of_decode {w : Word32} {d : Word64} {i : Instr} (h : decode w d = .ok i) : i.wellFormed = true := by
  rcases decode_cases h with ⟨sel, rfl, -⟩ | ⟨n, rfl, -, hn⟩ | ⟨rfl, -⟩ | ⟨rfl, -⟩
  · rfl
  · exact decide_eq_true hn
  · rfl
  · rfl

/-- In UNCONFIGURED every well-formed command but CONSTRUCT raises NOT_CONFIGURED. -/
theorem commandError_of_unconfigured {i : Instr} {s : State} (hw : i.wellFormed = true) (hm : s.mode = .unconfigured)
    (hi : ∀ sel, i ≠ .construct sel) : commandError i s = some .notConfigured := by
  cases i with
  | construct sel => exact absurd rfl (hi sel)
  | write n data => simp [commandError, hw, hm]
  | sum => simp [commandError, hw, hm]
  | reset => simp [commandError, hw, hm]

/-- A configured engine refuses CONSTRUCT whatever its SEL. -/
theorem commandError_construct_of_configured {sel : BitVec 4} {s : State} (hm : s.mode ≠ .unconfigured) :
    commandError (.construct sel) s = some .alreadyConfigured := by
  simp [commandError, Instr.wellFormed, hm]

/-- Only a CONSTRUCT that fits MODE can raise CONFIG_ERROR: its SEL names no parameter set. -/
theorem commandError_construct_of_missing_set {sel : BitVec 4} {s : State} (hm : s.mode = .unconfigured)
    (hsel : Config.numSboxSets ≤ sel.toNat) : commandError (.construct sel) s = some .configError := by
  simp [commandError, Instr.wellFormed, hm, hsel]

/-- A legal word whose command raises an error records that error and writes nothing else (R261). -/
theorem execute_of_error {w : Word32} {d : Word64} {i : Instr} {s : State} {e : Err} (hd : decode w d = .ok i)
    (hc : commandError i s = some e) : execute w d s = .next (s.raise e) := by
  unfold execute
  rw [hd]
  exact exec_of_error hc

/-- Settles O15: a word without a command is `execute_of_illegal`; a legal word records the error of its command, which
the three lemmas on `commandError` give by MODE first and SEL last. -/
theorem errorPriority : Obligations.ErrorPriority := by
  unfold Obligations.ErrorPriority
  intro w d s
  refine ⟨fun hill => ?_, fun i hd hm hi => ?_, fun sel hd hm => ?_, fun sel hd hm hsel => ?_⟩
  · exact execute_of_illegal hill s
  · exact execute_of_error hd (commandError_of_unconfigured (wellFormed_of_decode hd) hm hi)
  · exact execute_of_error hd (commandError_construct_of_configured hm)
  · exact execute_of_error hd (commandError_construct_of_missing_set hm hsel)

end Sys2Proof.Machine
end

