-- ==== Sys2Proof/Proofs/PowerOnReset.lean ====
section
/-! PROOFS. An edge with `rst_n = 0` (70_reset_and_hazards.md R290): what it makes of the block, that it leaves no command
in progress to send a request, and that a second one finds nothing left to change. -/

namespace Sys2Proof.Machine

/-- An edge with `rst_n = 0` does nothing but reset the block; only the offer on the channel is the host's (log 12). -/
theorem edge_reset {T : Timing} {e : EdgeIn} {s t : State} (h : edge T e s = .next t) (hr : e.rstN = false) :
    t = { s.powerOn with held := heldAfter e s } := by
  have ht := (edge_eq_next.mp h).2.2
  rwa [edgeMove, if_pos hr] at ht

/-- While the host keeps the channel protocol and reads no digest, every edge is answered. -/
theorem exists_edge_next (T : Timing) {e : EdgeIn} {s : State} (hk : breaksHold e s = false)
    (hd : e.readsDigest = false) : ∃ t, edge T e s = .next t :=
  ⟨_, edge_eq_next.mpr ⟨hk, fun h => absurd (hd.symm.trans h) Bool.false_ne_true, rfl⟩⟩

theorem cmdReady_of_reset {e : EdgeIn} (s : State) (hr : e.rstN = false) : cmdReady e s = false := by
  rw [cmdReady, hr, Bool.false_and]

theorem cipherOffer_of_reset (T : Timing) {e : EdgeIn} (s : State) (hr : e.rstN = false) :
    cipherOffer T e s = none := by
  simp [cipherOffer, hr]

/-- With no command in progress no request is on the port, whatever the inputs. -/
theorem cipherOffer_of_idle (T : Timing) (e : EdgeIn) {s : State} (hb : s.busy = false) : cipherOffer T e s = none := by
  simp [cipherOffer, hb]

/-- The second reset edge draws the same free values as the first, since a reset does not move their index (log 4). -/
theorem edge_reset_again {T : Timing} {e e' : EdgeIn} {s t t' : State} (h : edge T e s = .next t)
    (hr : e.rstN = false) (h' : edge T e' t = .next t') (hr' : e'.rstN = false) : t'.toArch = t.toArch := by
  obtain rfl := edge_reset h hr
  obtain rfl := edge_reset h' hr'
  rfl

/-- Settles O43: `edge_reset` gives the registers and the hidden state, `cipherOffer_of_idle` the port after the edge, and
`edge_reset_again` the longer reset. -/
theorem powerOnResetEdge : Obligations.PowerOnResetEdge := by
  unfold Obligations.PowerOnResetEdge
  intro T e s hr hk hd
  obtain ⟨t, ht⟩ := exists_edge_next T hk hd
  have again : ∀ e' t', e'.rstN = false → edge T e' t = .next t' → t'.toArch = t.toArch :=
    fun _ _ hr' ht' => edge_reset_again ht hr ht' hr'
  refine ⟨cmdReady_of_reset s hr, cipherOffer_of_reset T s hr, t, ht, ?_⟩
  obtain rfl := edge_reset ht hr
  exact ⟨rfl, rfl, rfl, rfl, rfl, rfl, rfl, fun e' => cipherOffer_of_idle T e' rfl, again⟩

end Sys2Proof.Machine
end

