-- ==== Sys2Proof/Proofs/Session.lean ====
section
/-! PROOFS. A whole session (45_digest_engine.md R226, R228, R230): CONSTRUCT, WRITEs and SUM; and that a second SUM or
RESET changes nothing (R231, 20_memory.md R58). -/

namespace Sys2Proof.Machine

/-- Settles O35: CONSTRUCT succeeds and tracks the empty message, the WRITEs append what they carry to it, and SUM latches
the digest of the message tracked. -/
theorem sessionDigest : Obligations.SessionDigest := by
  unfold Obligations.SessionDigest
  intro sel ws s hmode hsel hws
  have hconstruct : commandError (.construct sel) s = none := commandError_eq_none.mpr ⟨rfl, hmode, hsel⟩
  obtain ⟨t, hrun, htmode, htsel, htracks⟩ :=
    tracks_runAll_writes (s := constructBody sel s) nofun (tracks_constructBody sel s) hws
  refine ⟨sumBody t, ?_, ?_, rfl, rfl⟩
  · have hwritten : runAll (.construct sel :: writes ws) s = .next t := (runAll_cons (exec_of_ok hconstruct)).trans hrun
    exact (runAll_concat hwritten).trans (exec_sum_of_configured htmode)
  · have hdigest : t.sumDigest = digestOf t.sboxSel ([] ++ carried ws) := htracks.sumDigest_eq
    rwa [htsel] at hdigest

/-! ## SUM and RESET again -/

/-- SUM computes the same digest again: it changed no register that it reads, nor did a failed command (R229, R261). -/
theorem exec_sum_again {s : State} (hmode : s.mode ≠ .unconfigured) (e : Err) :
    exec .sum ((sumBody s).raise e) = .next (sumBody s) :=
  exec_sum_of_configured (s := (sumBody s).raise e) hmode

/-- SUMs and failing commands after a SUM leave its state but for ERR. -/
theorem runAll_after_sum {s : State} (hmode : s.mode ≠ .unconfigured) {is : List Instr}
    (h : ∀ i ∈ is, i = .sum ∨ commandError i (sumBody s) ≠ none) (e : Err) :
    ∃ e', runAll is ((sumBody s).raise e) = .next ((sumBody s).raise e') := by
  induction is generalizing e with
  | nil => exact ⟨e, rfl⟩
  | cons i is ih =>
    obtain ⟨hi, hrest⟩ := List.forall_mem_cons.mp h
    rcases hi with rfl | hfail
    · rw [runAll_cons (exec_sum_again hmode e)]
      exact ih hrest .ok
    · obtain ⟨e₁, hc⟩ := Option.ne_none_iff_exists'.mp hfail
      have hexec : exec i ((sumBody s).raise e) = .next ((sumBody s).raise e₁) :=
        exec_of_error ((commandError_congr i rfl).trans hc)
      rw [runAll_cons hexec]
      exact ih hrest e₁

theorem exec_reset_of_configured {s : State} (h : s.mode ≠ .unconfigured) : exec .reset s = .next (resetBody s) :=
  exec_of_ok (commandError_eq_none.mpr ⟨rfl, h⟩)

/-- Settles O40: between the SUMs only ERR moves (`runAll_after_sum`), and the last SUM restores the state; RESET leaves
what a RESET makes of it. -/
theorem sumAndResetAreIdempotent : Obligations.SumAndResetAreIdempotent := by
  unfold Obligations.SumAndResetAreIdempotent
  refine ⟨fun s t hmode hsum between hbetween => ?_, fun s t hmode hreset => ?_⟩
  · obtain rfl := Host.Outcome.next.inj ((exec_sum_of_configured hmode).symm.trans hsum)
    obtain ⟨e, hrun⟩ := runAll_after_sum hmode hbetween .ok
    exact (runAll_concat hrun).trans (exec_sum_again hmode e)
  · obtain rfl := Host.Outcome.next.inj ((exec_reset_of_configured hmode).symm.trans hreset)
    exact exec_reset_of_configured nofun

end Sys2Proof.Machine
end

