-- ==== Sys2Proof/Proofs/RoundTrip.lean ====
section
/-! PROOFS. The decoder on encoded commands and the encoder on decoded words (30_encoding.md R80 to R87). -/

namespace Sys2Proof

/-- The family RoundTrip for every command (`Laws.RoundTrip`). -/
theorem decode_encode (i : Instr) : Laws.RoundTrip.Statement i := by
  cases i with
  | construct sel => exact Laws.RoundTrip.construct sel
  | write n data => exact Laws.RoundTrip.write n data
  | sum => exact Laws.RoundTrip.sum
  | reset => exact Laws.RoundTrip.reset

/-- Settles O2: the round trip of each command. -/
theorem decodeOfEncode : Obligations.DecodeOfEncode := by
  unfold Obligations.DecodeOfEncode
  exact decode_encode

/-- The decoder keeps the whole word in the command, and of the operand what a WRITE carries. -/
theorem encode_of_decode {w : Word32} {d : Word64} {i : Instr} (h : decode w d = .ok i) :
    (encode i).1 = w ∧ ∀ n data, i = .write n data → data = d ∧ (encode i).2 = d := by
  rcases decode_cases h with ⟨sel, rfl, rfl⟩ | ⟨n, rfl, rfl, -⟩ | ⟨rfl, rfl⟩ | ⟨rfl, rfl⟩
  · exact ⟨rfl, nofun⟩
  · exact ⟨rfl, fun _ _ hi => ⟨(Instr.write.inj hi).2.symm, rfl⟩⟩
  · exact ⟨rfl, nofun⟩
  · exact ⟨rfl, nofun⟩

/-- Settles O3: the decoder answers well-formed commands only, and each encodes to its word. -/
theorem encodeOfDecode : Obligations.EncodeOfDecode := by
  unfold Obligations.EncodeOfDecode
  exact fun w d i h => ⟨Machine.wellFormed_of_decode h, encode_of_decode h⟩

/-- Settles O1: each word is evaluated; the decoder carries the operand along unread. -/
theorem decodeOfWorkedWords : Obligations.DecodeOfWorkedWords := by
  unfold Obligations.DecodeOfWorkedWords
  exact fun d => ⟨rfl, rfl, rfl, rfl, rfl, rfl, rfl, rfl, rfl, rfl, rfl, rfl⟩

end Sys2Proof
end

