-- ==== Sys2Proof/Proofs/Steps.lean ====
section
/-! PROOFS. What a completed command word and a step can leave, said once, and what follows for ERR (10_state.md R29), MODE
(45_digest_engine.md R220), SBOX_SEL and the invariant of the registers. -/

namespace Sys2Proof.Machine

/-! ## A command word -/

/-- A word that raises no error leaves the state of its command's body; any other records its error (R221, R261). -/
theorem execute_outcome (w : Word32) (d : Word64) (s : State) :
    (∃ i, decode w d = .ok i ∧ commandError i s = none ∧ execute w d s = .next (bodyOf i s)) ∨
    ((∀ i, decode w d = .ok i → commandError i s ≠ none) ∧ ∃ e, e ≠ .ok ∧ execute w d s = .next (s.raise e)) := by
  by_cases hd : ∃ i, decode w d = .ok i
  · obtain ⟨i, hi⟩ := hd
    cases hc : commandError i s with
    | none =>
      refine .inl ⟨i, hi, hc, ?_⟩
      unfold execute
      rw [hi]
      exact exec_of_ok hc
    | some e =>
      refine .inr ⟨fun j hj => ?_, e, ?_, execute_of_error hi hc⟩
      · obtain rfl : i = j := Except.ok.inj (hi.symm.trans hj)
        rw [hc]
        exact Option.some_ne_none e
      · rintro rfl
        exact commandError_ne_ok i s hc
  · rw [not_exists] at hd
    exact .inr ⟨fun i hi => absurd hi (hd i), .illegalCmd, nofun, execute_of_illegal hd s⟩

/-- `execute_outcome` for the state that a word leaves. -/
theorem execute_cases {w : Word32} {d : Word64} {s t : State} (h : execute w d s = .next t) :
    (∃ i, decode w d = .ok i ∧ commandError i s = none ∧ t = bodyOf i s) ∨ ∃ e, e ≠ .ok ∧ t = s.raise e := by
  rcases execute_outcome w d s with ⟨i, hd, hc, hx⟩ | ⟨-, e, he, hx⟩
  · exact .inl ⟨i, hd, hc, Host.Outcome.next.inj (h.symm.trans hx)⟩
  · exact .inr ⟨e, he, Host.Outcome.next.inj (h.symm.trans hx)⟩

@[simp] theorem bodyOf_err (i : Instr) (s : State) : (bodyOf i s).err = .ok := by
  cases i <;> rfl

@[simp] theorem bodyOf_busy (i : Instr) (s : State) : (bodyOf i s).busy = s.busy := by
  cases i with
  | construct sel => rfl
  | write n data => exact writeBody_busy n data s
  | sum => rfl
  | reset => rfl

/-- Settles O16: a word without an error leaves its body's state, whose ERR is OK; any other is `raise` of an error. -/
theorem everyCommandCompletesWithItsOutcome : Obligations.EveryCommandCompletesWithItsOutcome := by
  unfold Obligations.EveryCommandCompletesWithItsOutcome
  intro w d s
  rcases execute_outcome w d s with ⟨i, hd, hc, hx⟩ | ⟨hfail, e, he, hx⟩
  · exact ⟨_, hx, bodyOf_busy i s, ⟨fun _ => ⟨i, hd, hc⟩, fun _ => bodyOf_err i s⟩,
      fun herr => absurd (bodyOf_err i s) herr⟩
  · exact ⟨_, hx, rfl, ⟨fun hok => absurd hok he, fun ⟨i, hd, hc⟩ => absurd hc (hfail i hd)⟩, fun _ => rfl⟩

/-- Settles O17: a failing word leaves MODE by `raise`; a successful one met its command's condition on MODE and has the
mode of its body. -/
theorem modeTransitions : Obligations.ModeTransitions := by
  unfold Obligations.ModeTransitions
  intro w d s t h
  rcases execute_cases h with ⟨i, hd, hc, rfl⟩ | ⟨e, he, rfl⟩
  · refine ⟨fun herr => absurd (bodyOf_err i s) herr, fun _ => ⟨i, hd, ?_⟩⟩
    obtain ⟨-, hmode⟩ := commandError_eq_none.mp hc
    cases i with
    | construct sel => exact ⟨hmode.1, rfl⟩
    | write n data => exact ⟨hmode, rfl⟩
    | sum => exact ⟨hmode, rfl⟩
    | reset => exact ⟨hmode, rfl⟩
  · exact ⟨fun _ => rfl, fun hok => absurd hok he⟩

/-! ## A step -/

/-- `u` has the registers of `s`, BUSY aside. -/
def SameRegisters (s u : State) : Prop := ∃ b, u.toArch = { s.toArch with busy := b }

/-- A step executes a command word, resets the block, or moves no register. -/
theorem step_cases {s t : State} (h : step s = .next t) :
    (∃ w d u, SameRegisters s u ∧ execute w d u = .next t) ∨
    (∃ u : State, t = u.powerOn ∧ s.busy = false ∧
      ∃ rest, s.host = .powerOnReset :: rest ∨ ∃ w d, s.host = .commandAbandoned w d :: rest) ∨
    SameRegisters s t := by
  unfold step at h
  cases hb : s.busy with
  | true =>
    rw [hb, if_pos rfl] at h
    exact .inl ⟨_, _, s.land, ⟨_, rfl⟩, h⟩
  | false =>
    rw [hb, if_neg Bool.false_ne_true] at h
    split at h
    next => cases h; exact .inr (.inr ⟨_, rfl⟩)
    next w d rest hh => exact .inl ⟨w, d, s.accept rest, ⟨_, rfl⟩, h⟩
    next w d rest hh => cases h; exact .inr (.inl ⟨_, rfl, rfl, rest, .inr ⟨w, d, hh⟩⟩)
    next rest hh => cases h; exact .inr (.inl ⟨_, rfl, rfl, rest, .inl hh⟩)
    next rest hh => cases h; exact .inr (.inr ⟨_, rfl⟩)
    next rest hh =>
      split at h
      next => cases h; exact .inr (.inr ⟨_, rfl⟩)
      next => cases h
    next => cases h

/-- A command that succeeds on a configured engine keeps the parameter set (R222: CONSTRUCT does not succeed there). -/
theorem bodyOf_keeps_set {i : Instr} {s : State} (hc : commandError i s = none) (hm : s.mode ≠ .unconfigured) :
    (bodyOf i s).mode ≠ .unconfigured ∧ (bodyOf i s).sboxSel = s.sboxSel := by
  cases i with
  | construct sel => rw [commandError_construct_of_configured hm] at hc; cases hc
  | write n data => exact ⟨nofun, writeBody_sboxSel n data s⟩
  | sum => exact ⟨hm, rfl⟩
  | reset => exact ⟨nofun, rfl⟩

theorem SameRegisters.mode_eq {s u : State} (h : SameRegisters s u) : u.mode = s.mode := by
  obtain ⟨b, hb⟩ := h
  rw [hb]

theorem SameRegisters.sboxSel_eq {s u : State} (h : SameRegisters s u) : u.sboxSel = s.sboxSel := by
  obtain ⟨b, hb⟩ := h
  rw [hb]

/-- Settles O18: of the three kinds of step the resets are excluded, and neither a command word on a configured engine nor
a step that moves no register unbinds the set. -/
theorem onlyPowerOnUnbinds : Obligations.OnlyPowerOnUnbinds := by
  unfold Obligations.OnlyPowerOnUnbinds
  intro s t h hm hreset habandoned
  rcases step_cases h with ⟨w, d, u, hu, hx⟩ | ⟨u, -, hb, rest, hh | ⟨w, d, hh⟩⟩ | ht
  · have hum : u.mode ≠ .unconfigured := hu.mode_eq ▸ hm
    rw [← hu.sboxSel_eq]
    rcases execute_cases hx with ⟨i, -, hc, rfl⟩ | ⟨e, -, rfl⟩
    · exact bodyOf_keeps_set hc hum
    · exact ⟨hum, rfl⟩
  · exact absurd hh (hreset hb rest)
  · exact absurd hh (habandoned hb w d rest)
  · exact ⟨ht.mode_eq ▸ hm, ht.sboxSel_eq⟩

/-! ## The invariant of the registers -/

/-- The invariant speaks of registers, and not of BUSY. -/
theorem inv_of_sameRegisters {s u : State} (h : SameRegisters s u) (hs : s.Inv) : u.Inv := by
  obtain ⟨a, f, o, g, n⟩ := u
  obtain ⟨b, rfl⟩ := h
  exact ⟨hs.unbound, hs.bound, hs.cleared, hs.wholeBlocks, hs.digestCurrent⟩

/-- A failed command writes ERR alone, of which the invariant does not speak. -/
theorem inv_raise {s : State} (h : s.Inv) (e : Err) : (s.raise e).Inv :=
  ⟨h.unbound, h.bound, h.cleared, h.wholeBlocks, h.digestCurrent⟩

theorem inv_powerOn (s : State) : s.powerOn.Inv :=
  { unbound := fun _ => ⟨rfl, rfl, rfl⟩, bound := fun h => absurd rfl h, cleared := nofun
    wholeBlocks := fun h => absurd rfl h, digestCurrent := nofun }

/-- One more block's bits leave L a multiple of 256, modulo 2^256 too (44_accumulators.md R191). -/
theorem add_block_bits_mod {l : Word256} (h : l.toNat % 256 = 0) : (l + 256).toNat % 256 = 0 := by
  rw [BitVec.toNat_add, show (256 : Word256).toNat = 256 from rfl]
  omega

theorem writeBody_wholeBlocks {n : BitVec 4} {data : Word64} {s : State} (h : s.l.toNat % 256 = 0) :
    (writeBody n data s).l.toNat % 256 = 0 := by
  rcases Nat.lt_or_ge (s.pbCount.toNat + n.toNat) 32 with hpart | hfull
  · rw [writeBody_of_lt data hpart]
    exact h
  · rw [writeBody_of_le data hfull]
    exact add_block_bits_mod h

/-- A command that succeeds leaves the invariant: CONSTRUCT has checked SEL, a WRITE invalidates DIGEST, SUM latches the
digest of registers that it leaves unchanged. -/
theorem inv_bodyOf {i : Instr} {s : State} (h : s.Inv) (hc : commandError i s = none) : (bodyOf i s).Inv := by
  obtain ⟨-, hmode⟩ := commandError_eq_none.mp hc
  cases i with
  | construct sel =>
    exact { unbound := nofun, bound := fun _ => hmode.2, cleared := fun _ => ⟨rfl, rfl, rfl, rfl⟩
            wholeBlocks := fun _ => rfl, digestCurrent := nofun }
  | write n data =>
    exact { unbound := nofun, bound := fun _ => (writeBody_sboxSel n data s).symm ▸ h.bound hmode, cleared := nofun
            wholeBlocks := fun _ => writeBody_wholeBlocks (h.wholeBlocks hmode), digestCurrent := nofun }
  | sum =>
    exact { unbound := fun hm => absurd hm hmode, bound := h.bound, cleared := h.cleared
            wholeBlocks := h.wholeBlocks, digestCurrent := fun _ => rfl }
  | reset =>
    exact { unbound := nofun, bound := fun _ => h.bound hmode, cleared := fun _ => ⟨rfl, rfl, rfl, rfl⟩
            wholeBlocks := fun _ => rfl, digestCurrent := nofun }

/-- Settles O42: each of the three kinds of step keeps the invariant. -/
theorem stepKeepsTheInvariant : Obligations.StepKeepsTheInvariant := by
  unfold Obligations.StepKeepsTheInvariant
  intro s t hs h
  rcases step_cases h with ⟨w, d, u, hu, hx⟩ | ⟨u, rfl, -⟩ | ht
  · have hui : u.Inv := inv_of_sameRegisters hu hs
    rcases execute_cases hx with ⟨i, -, hc, rfl⟩ | ⟨e, -, rfl⟩
    · exact inv_bodyOf hui hc
    · exact inv_raise hui e
  · exact inv_powerOn u
  · exact inv_of_sameRegisters ht hs

/-- Settles O41: MODE is UNCONFIGURED at reset, with the values that go with it. -/
theorem resetMeetsTheInvariant : Obligations.ResetMeetsTheInvariant := by
  unfold Obligations.ResetMeetsTheInvariant
  exact { unbound := fun _ => ⟨rfl, rfl, rfl⟩, bound := fun h => absurd rfl h, cleared := nofun
          wholeBlocks := fun h => absurd rfl h, digestCurrent := nofun }

end Sys2Proof.Machine
end

