-- ==== Sys2Proof/Proofs/CommandResults.lean ====
section
/-! PROOFS. What a step runs (45_digest_engine.md R221) and what each command leaves when it succeeds (R222 to R225). -/

namespace Sys2Proof.Machine

/-! ## What a step runs -/

theorem execute_of_decode {w : Word32} {d : Word64} {i : Instr} (hd : decode w d = .ok i) (s : State) :
    execute w d s = exec i s := by
  unfold execute
  rw [hd]

/-- With a command in progress, a step executes the latched word (log 9). -/
theorem step_of_busy {s : State} (hb : s.busy = true) : step s = execute s.flight.word s.flight.data s.land := by
  rw [step, if_pos hb, completeInFlight]

/-- Settles O6: the acceptance or the landing of the command, and then the command that its word decodes to. -/
theorem stepRunsDecodedCommand : Obligations.StepRunsDecodedCommand := by
  unfold Obligations.StepRunsDecodedCommand
  refine ⟨fun w d s rest i hb hh hd => ?_, fun s i hb hd => ?_⟩
  · rw [step_command hb hh, execute_of_decode hd, State.accept]
  · rw [step_of_busy hb, execute_of_decode hd, State.land]

theorem decode_of_decodeTableWord {nbits w : Nat} {i : Instr} (h : decodeTableWord nbits w = some i) :
    decode (tableWord nbits w) (tableData nbits w) = .ok i := by
  unfold decodeTableWord at h
  split at h
  next j hj => rw [hj, Option.some.inj h]
  next => cases h

/-- Settles O7: the placed command is the head of the host's list in an idle state. -/
theorem placedCommandRunsNext : Obligations.PlacedCommandRunsNext := by
  unfold Obligations.PlacedCommandRunsNext
  intro s nbits w i h
  rw [step_command (s := s.withFetchWord nbits w) rfl rfl, execute_of_decode (decode_of_decodeTableWord h)]
  rfl

/-! ## Reads of the ports -/

theorem step_readStatus {s : State} {rest : List HostAction} (hb : s.busy = false) (hh : s.host = .readStatus :: rest) :
    step s = .next { s with host := rest } := by
  simp [step, hb, hh]

/-- A read of `digest` goes by `digestRead` (70_reset_and_hazards.md R297). -/
theorem step_readDigest {s : State} {rest : List HostAction} (hb : s.busy = false) (hh : s.host = .readDigest :: rest) :
    step s = if s.digestReadable then .next { s with host := rest } else .fault .digestReadNotValid := by
  cases hr : s.digestReadable <;> simp [step, hb, hh, digestRead, hr]

theorem digestReadable_of_idle {s : State} (hb : s.busy = false) : s.digestReadable = s.digestValid := by
  simp [State.digestReadable, hb]

/-- Settles O8: a read only takes the host's list on; in an idle state `digest` is readable exactly when valid. -/
theorem portReadsChangeNothing : Obligations.PortReadsChangeNothing := by
  unfold Obligations.PortReadsChangeNothing
  intro s rest hb
  refine ⟨step_readStatus hb, fun hh hv => ⟨?_, ?_⟩, fun hh hv => ?_⟩
  · rw [step_readDigest hb hh, digestReadable_of_idle hb, if_pos hv]
  · rw [digestRead, digestReadable_of_idle hb, if_pos hv]
  · rw [step_readDigest hb hh, digestReadable_of_idle hb, hv, if_neg Bool.false_ne_true]

/-! ## The four commands -/

/-- Settles O9: the body of a CONSTRUCT that raises no error. -/
theorem constructBindsAndInitialises : Obligations.ConstructBindsAndInitialises := by
  unfold Obligations.ConstructBindsAndInitialises
  intro sel s hm hsel
  exact exec_of_ok (commandError_eq_none.mpr ⟨rfl, hm, hsel⟩)

theorem commandError_write_of_configured {n : BitVec 4} (data : Word64) {s : State} (hm : s.mode ≠ .unconfigured)
    (hn : n.toNat ≤ 8) : commandError (.write n data) s = none :=
  commandError_eq_none.mpr ⟨decide_eq_true hn, hm⟩

/-- Settles O10: below a block the body stores the appended bytes and marks the state as written. -/
theorem writeAppendsBelowABlock : Obligations.WriteAppendsBelowABlock := by
  unfold Obligations.WriteAppendsBelowABlock
  intro n data s hm hn hpart
  obtain ⟨-, -, -, hp⟩ := writeBody_registers_of_lt data hpart
  refine ⟨writeBody n data s, exec_of_ok (commandError_write_of_configured data hm hn), ?_, hp, ?_⟩
  · rw [← State.pending_length, hp, State.append_length, dataBytes_length]
  · rw [writeBody_of_lt data hpart]
    rfl

/-- Settles O11: at a block the body absorbs it, keeps the surplus and marks the state as written. -/
theorem writeAbsorbsAFullBlock : Obligations.WriteAbsorbsAFullBlock := by
  unfold Obligations.WriteAbsorbsAFullBlock
  intro n data s hm hn hfull b
  have hc : commandError (.write n data) s = none := commandError_write_of_configured data hm hn
  obtain ⟨-, -, -, hp⟩ := writeBody_registers_of_le hc hfull
  refine ⟨writeBody n data s, exec_of_ok hc, ?_, hp, ?_⟩
  · rw [← State.pending_length, hp, List.length_drop, State.append_length, dataBytes_length]
  · rw [writeBody_of_le data hfull]
    rfl

/-- Settles O13: SUM latches `sumDigest`, which is the statement's finalisation with and without bytes pending. -/
theorem sumLatchesTheFinalisation : Obligations.SumLatchesTheFinalisation := by
  unfold Obligations.SumLatchesTheFinalisation
  intro s hm
  rw [exec_sum_of_configured hm, sumBody, State.latchDigest]
  by_cases hc : 0 < s.pbCount.toNat
  · simp only [State.sumDigest, if_pos hc, tailBlock, State.pending_length, lengthAddTail, checksumAdd]
  · simp only [State.sumDigest, if_neg hc]

/-- Settles O14: the body of a RESET that raises no error. -/
theorem resetReturnsToEmpty : Obligations.ResetReturnsToEmpty := by
  unfold Obligations.ResetReturnsToEmpty
  exact fun s hm => exec_reset_of_configured hm

/-! ## What no command reads -/

theorem statusPort_of_idle {s : State} (hb : s.busy = false) :
    statusPort s = 0#16 ++ statusFields s ++ BitVec.ofBool false := by
  rw [statusPort, hb, if_neg Bool.false_ne_true]

/-- A host that may read sees no difference (R235). -/
theorem observe_eq {s t : State} (h : Indistinguishable s t) (hb : s.busy = false) : observe s = observe t := by
  have hbt : t.busy = false := h.busy ▸ hb
  unfold observe
  rw [statusPort_of_idle hb, statusPort_of_idle hbt, digestReadable_of_idle hb, digestReadable_of_idle hbt]
  congr 1
  · rw [statusFields, statusFields, h.sboxSel, h.digestValid, h.pbCount, h.err, h.mode]
  · cases hv : s.digestValid with
    | true => rw [← h.digestValid, hv, h.digest hv]
    | false => rw [← h.digestValid, hv]; rfl

/-- No command word tells the two states apart (10_state.md R26, R28, R33). -/
theorem indistinguishable_execute (w : Word32) (d : Word64) {s t : State} (h : Indistinguishable s t) :
    ∃ s' t', execute w d s = .next s' ∧ execute w d t = .next t' ∧ Indistinguishable s' t' := by
  by_cases hd : ∃ i, decode w d = .ok i
  · obtain ⟨i, hi⟩ := hd
    rw [execute_of_decode hi, execute_of_decode hi]
    exact indistinguishable_exec i s t h
  · rw [not_exists] at hd
    exact ⟨_, _, execute_of_illegal hd s, execute_of_illegal hd t, indistinguishable_raise h .illegalCmd⟩

theorem execute_busy {w : Word32} {d : Word64} {s t : State} (h : execute w d s = .next t) : t.busy = s.busy := by
  rcases execute_cases h with ⟨i, -, -, rfl⟩ | ⟨e, -, rfl⟩
  · exact bodyOf_busy i s
  · rfl

/-- Settles O37: no word tells the states apart, BUSY stays 0, and idle states that are not told apart show the same. -/
theorem unreadStateStaysUnread : Obligations.UnreadStateStaysUnread := by
  unfold Obligations.UnreadStateStaysUnread
  intro w d s t h
  obtain ⟨s', t', hs, ht, h'⟩ := indistinguishable_execute w d h
  exact ⟨s', t', hs, ht, h', fun hb => observe_eq h' ((execute_busy hs).trans hb)⟩

end Sys2Proof.Machine
end

