-- ==== Sys2Proof/Proofs/Views.lean ====
section
/-! PROOFS. The properties of ψ (42_psi_shuffle.md R153), the words of S (43_step_function.md R172), the byte conversions
(00_scope.md R8) and the status word (10_state.md R31). -/

namespace Sys2Proof.Machine

/-! ## ψ -/

/-- ψ⁻¹ takes the lanes down again; in lane 0 the taps of F cancel all of F but lane 0. -/
theorem psiInv_psi (y : Word256) : psiInv (psi y) = y := by
  obtain ⟨hup, hzero⟩ := laneOf_psiInv (psi y)
  apply laneOf_ext
  intro i hi
  cases i with
  | zero =>
    rw [hzero, laneOf_psi_top, laneOf_psi y (by decide), laneOf_psi y (by decide), laneOf_psi y (by decide),
      laneOf_psi y (by decide), laneOf_psi y (by decide), psiFeedback]
    generalize laneOf y 1 = y1, laneOf y 2 = y2, laneOf y 3 = y3, laneOf y 12 = y12, laneOf y 15 = y15
    calc laneOf y 0 ^^^ y1 ^^^ y2 ^^^ y3 ^^^ y12 ^^^ y15 ^^^ y1 ^^^ y2 ^^^ y3 ^^^ y12 ^^^ y15
        = laneOf y 0 ^^^ (y1 ^^^ y1) ^^^ (y2 ^^^ y2) ^^^ (y3 ^^^ y3) ^^^ (y12 ^^^ y12) ^^^ (y15 ^^^ y15) := by ac_rfl
      _ = laneOf y 0 := by simp only [BitVec.xor_self, BitVec.xor_zero]
  | succ i => rw [hup i (by omega), laneOf_psi y (by omega)]

/-- A left inverse on a finite type is a right inverse. -/
theorem psi_psiInv (y : Word256) : psi (psiInv y) = y := by
  have hleft : Function.LeftInverse psiInv psi := psiInv_psi
  exact hleft.rightInverse_of_surjective (Finite.surjective_of_injective hleft.injective) y

/-- Bit b of every lane of ψ(Y) is made of bits b of lanes of Y. -/
theorem psi_bitwise {b : Nat} {x y : Word256} (h : ∀ i < 16, (laneOf x i).getLsbD b = (laneOf y i).getLsbD b) {i : Nat}
    (hi : i < 16) : (laneOf (psi x) i).getLsbD b = (laneOf (psi y) i).getLsbD b := by
  rcases Nat.lt_or_ge i 15 with hlow | htop
  · rw [laneOf_psi x hlow, laneOf_psi y hlow]
    exact h (i + 1) (by omega)
  · obtain rfl : i = 15 := by omega
    simp only [laneOf_psi_top, psiFeedback, BitVec.getLsbD_xor, h, Nat.reduceLT]

/-- Settles O25: each part is the lemma of its name. -/
theorem psiLinearInvertibleBitwise : Obligations.PsiLinearInvertibleBitwise := by
  unfold Obligations.PsiLinearInvertibleBitwise
  exact ⟨psiIter_xor, fun y => ⟨psiInv_psi y, psi_psiInv y⟩, fun b x y _ h i hi => psi_bitwise h hi⟩

/-! ## The words of S -/

/-- Settles O26: word by word. -/
theorem encryptionPairsWordsWithKeys : Obligations.EncryptionPairsWordsWithKeys := by
  unfold Obligations.EncryptionPairsWordsWithKeys
  intro enc k h i
  match i with
  | 0 => exact wordOf_joinWords_zero _ _ _ _
  | 1 => exact wordOf_joinWords_one _ _ _ _
  | 2 => exact wordOf_joinWords_two _ _ _ _
  | 3 => exact wordOf_joinWords_three _ _ _ _

/-! ## Bytes -/

theorem leBytes32_getD (v : Word256) {j : Nat} (hj : j < 32) : (leBytes32 v).getD j 0 = byteOf v j := by
  simp [leBytes32, hj]

theorem leInt_leBytes32 (v : Word256) : leInt (leBytes32 v) = v := by
  apply byteOf_ext
  intro j hj
  rw [byteOf_leInt _ hj, leBytes32_getD v hj]

/-- Byte j from the top is byte 31 − j. -/
theorem beBytes32_eq_reverse (v : Word256) : beBytes32 v = (leBytes32 v).reverse := by
  apply List.ext_getElem
  · simp [beBytes32, leBytes32]
  · intro j hj _
    have hj : j < 32 := by simpa [beBytes32] using hj
    have hbits : 248 - 8 * j = 8 * (31 - j) := by omega
    simp [beBytes32, leBytes32, byteOf, hbits]

theorem leBytes32_leInt {bs : List Byte} (h : bs.length = 32) : leBytes32 (leInt bs) = bs := by
  apply List.ext_getElem
  · simp [leBytes32, h]
  · intro j _ hj
    have hj32 : j < 32 := h ▸ hj
    simp [leBytes32, byteOf_leInt bs hj32, hj]

/-- Settles O30: the two conversions are inverse, byte by byte. -/
theorem byteConversionsRoundTrip : Obligations.ByteConversionsRoundTrip := by
  unfold Obligations.ByteConversionsRoundTrip
  exact ⟨fun v => ⟨leInt_leBytes32 v, beBytes32_eq_reverse v⟩,
    fun bs h => ⟨leBytes32_leInt h, fun j hj => byteOf_leInt bs hj⟩⟩

end Sys2Proof.Machine
end

