-- ==== Sys2Proof/Proofs/StatusWord.lean ====
section
/-! PROOFS. The layout of the status word (10_state.md R31, 70_reset_and_hazards.md R296). -/

namespace Sys2Proof.Machine

/-- Bits 15:1 of `status`. -/
def statusMiddle (s : State) : BitVec 15 := if s.busy then Config.busyStatus s.draws else statusFields s

theorem statusPort_eq (s : State) : statusPort s = 0#16 ++ statusMiddle s ++ BitVec.ofBool s.busy := rfl

theorem statusPort_busy (s : State) : (statusPort s).extractLsb' 0 1 = BitVec.ofBool s.busy :=
  BitVec.extractLsb'_append_eq_right

theorem statusPort_reserved (s : State) : (statusPort s).extractLsb' 16 16 = 0 := by
  rw [statusPort_eq, BitVec.extractLsb'_append_eq_of_le (by decide)]
  exact BitVec.extractLsb'_append_eq_left

/-- A field of `status` lies one place above its place in bits 15:1. -/
theorem statusPort_field (s : State) {start len : Nat} (h : start + len ≤ 15) :
    (statusPort s).extractLsb' (start + 1) len = (statusMiddle s).extractLsb' start len := by
  rw [statusPort_eq, BitVec.extractLsb'_append_eq_of_le (by omega), Nat.add_sub_cancel,
    BitVec.extractLsb'_append_eq_of_add_le h]

/-! The fields of bits 15:1, from the lowest up. -/

theorem statusFields_mode (s : State) : (statusFields s).extractLsb' 0 2 = s.mode.code :=
  BitVec.extractLsb'_append_eq_right

theorem statusFields_err (s : State) : (statusFields s).extractLsb' 2 3 = s.err.code := by
  rw [statusFields, BitVec.extractLsb'_append_eq_of_le (by decide)]
  exact BitVec.extractLsb'_append_eq_right

theorem statusFields_pbCount (s : State) : (statusFields s).extractLsb' 5 5 = s.pbCount := by
  rw [statusFields, BitVec.extractLsb'_append_eq_of_le (by decide), BitVec.extractLsb'_append_eq_of_le (by decide)]
  exact BitVec.extractLsb'_append_eq_right

theorem statusFields_digestValid (s : State) : (statusFields s).extractLsb' 10 1 = BitVec.ofBool s.digestValid := by
  rw [statusFields, BitVec.extractLsb'_append_eq_of_le (by decide), BitVec.extractLsb'_append_eq_of_le (by decide),
    BitVec.extractLsb'_append_eq_of_le (by decide)]
  exact BitVec.extractLsb'_append_eq_right

theorem statusFields_sboxSel (s : State) : (statusFields s).extractLsb' 11 4 = s.sboxSel := by
  rw [statusFields, BitVec.extractLsb'_append_eq_of_le (by decide), BitVec.extractLsb'_append_eq_of_le (by decide),
    BitVec.extractLsb'_append_eq_of_le (by decide)]
  exact BitVec.extractLsb'_append_eq_left

/-- Settles O31: the fields of bits 15:1 one place up; a read of `status` is `step_readStatus`. -/
theorem statusWordLayout : Obligations.StatusWordLayout := by
  unfold Obligations.StatusWordLayout
  refine ⟨fun s => ⟨statusPort_busy s, statusPort_reserved s, fun hb => ?_, fun hb => ?_⟩,
    fun s rest hb hh => step_readStatus hb hh⟩
  · have hmiddle : statusMiddle s = statusFields s := by rw [statusMiddle, hb, if_neg Bool.false_ne_true]
    have field : ∀ start len, start + len ≤ 15 →
        (statusPort s).extractLsb' (start + 1) len = (statusFields s).extractLsb' start len :=
      fun start len h => hmiddle ▸ statusPort_field s h
    exact ⟨(field 0 2 (by decide)).trans (statusFields_mode s), (field 2 3 (by decide)).trans (statusFields_err s),
      (field 5 5 (by decide)).trans (statusFields_pbCount s),
      (field 10 1 (by decide)).trans (statusFields_digestValid s),
      (field 11 4 (by decide)).trans (statusFields_sboxSel s)⟩
  · have hmiddle : statusMiddle s = Config.busyStatus s.draws := by rw [statusMiddle, hb, if_pos rfl]
    rw [statusPort_field s (start := 0) (by decide), hmiddle, BitVec.extractLsb'_eq_self]

/-- Settles O45: an evaluation. -/
theorem resetStateHasPowerOnValues : Obligations.ResetStateHasPowerOnValues := by
  unfold Obligations.ResetStateHasPowerOnValues
  exact ⟨rfl, rfl, rfl, rfl, rfl, rfl, rfl⟩

end Sys2Proof.Machine
end

