-- ==== Sys2Proof/Proofs/Port.lean ====
section
/-! PROOFS. The edges of a command at the ports: its acceptance (20_memory.md R60, R61), the edges of its work (R62), its
completion as one atomic transition (45_digest_engine.md R221), the reset that abandons it (70_reset_and_hazards.md R292),
and the two protocol faults (60_exceptions.md R265). -/

namespace Sys2Proof.Machine

/-! ## Reset, acceptance, and the edges before completion -/

/-- A reset reads of the state only the free-value index and the host's own part (log 4). -/
theorem powerOn_toArch_congr {s u : State} (h : s.draws = u.draws) : s.powerOn.toArch = u.powerOn.toArch := by
  rw [State.powerOn, State.powerOn, h]

/-- Settles O44: both edges are resets with the same free-value index. -/
theorem resetAbandonsACommand : Obligations.ResetAbandonsACommand := by
  unfold Obligations.ResetAbandonsACommand
  intro T e s u t v hr hdraws ht hv
  obtain rfl := edge_reset ht hr
  obtain rfl := edge_reset hv hr
  exact ⟨powerOn_toArch_congr hdraws, rfl⟩

/-- At an edge without an offer an idle block only draws a free value. -/
theorem edge_idle {T : Timing} {e : EdgeIn} {s t : State} (h : edge T e s = .next t) (hb : s.busy = false)
    (hr : e.rstN = true) (hv : e.cmdValid = false) :
    t = { s with draws := s.draws + 1, held := heldAfter e s } := by
  have ht := (edge_eq_next.mp h).2.2
  simpa [edgeMove, hb, hr, hv] using ht

/-- Settles O46: `edge_accept` and `edge_idle`. -/
theorem acceptingEdgeLatchesTheCommand : Obligations.AcceptingEdgeLatchesTheCommand := by
  unfold Obligations.AcceptingEdgeLatchesTheCommand
  refine fun T e s t hb hr h => ⟨fun hv => ?_, fun hv => ?_⟩
  · obtain rfl := edge_accept h hb hr hv
    exact ⟨rfl, rfl, rfl, rfl⟩
  · obtain rfl := edge_idle h hb hr hv
    rfl

/-- Settles O47: an edge that does not complete the command moves the hidden state alone. -/
theorem noWriteVisibleBeforeCompletion : Obligations.NoWriteVisibleBeforeCompletion := by
  unfold Obligations.NoWriteVisibleBeforeCompletion
  exact fun T e s t hb hr h ht => (edge_not_completing h hb hr ht).1

/-! ## A run is one atomic transition -/

/-- Settles O48: a command just accepted has not begun its work, so the run leaves what `execute` gives in the state that
BUSY has left (`commandRun_execute`), which has the registers and the free-value index of the state before. -/
theorem portRunRefinesAtomicCommand : Obligations.PortRunRefinesAtomicCommand := by
  unfold Obligations.PortRunRefinesAtomicCommand
  intro T a es s s₁ t hb hr hv ha hrun
  obtain rfl := edge_accept ha hb hr hv
  obtain ⟨u, hu, htu⟩ := commandRun_execute hrun rfl (.inl rfl)
  have harch : { s.toArch with busy := false } = s.toArch := by rw [← hb]
  obtain ⟨u₁, u₂, h₁, h₂, h₁₂⟩ := execute_arch_congr (w := a.cmdWord) (d := a.cmdData)
    (s := { acceptEdge a s with held := heldAfter a s }.land) (t := { s with draws := s.draws + 1 }) harch rfl
  obtain rfl := Host.Outcome.next.inj (hu.symm.trans h₁)
  exact ⟨u₂, h₂, htu.trans h₁₂⟩

/-! ## The invariants of a command in progress -/

/-- What an edge can do to the hidden state: begin anew (a reset, an acceptance, a completion), leave it (an idle block), or
do the work of the command in progress. -/
theorem edge_flight_cases {T : Timing} {e : EdgeIn} {s t : State} (h : edge T e s = .next t) :
    t.flight.phase = .start ∨ (s.busy = false ∧ t.toArch = s.toArch ∧ t.flight = s.flight) ∨
      (s.busy = true ∧ t.toArch = s.toArch ∧ t.flight = nextFlight T e s) := by
  cases hr : e.rstN with
  | false =>
    obtain rfl := edge_reset h hr
    exact .inl rfl
  | true =>
    cases hb : s.busy with
    | true =>
      have ht := edge_busy h hb hr
      rcases workEdge_cases T e s with ⟨-, hw⟩ | ⟨-, hw⟩
      · rw [ht, hw]
        exact .inl rfl
      · rw [ht, hw]
        exact .inr (.inr ⟨rfl, rfl, rfl⟩)
    | false =>
      cases hv : e.cmdValid with
      | true =>
        obtain rfl := edge_accept h hb hr hv
        exact .inl rfl
      | false =>
        obtain rfl := edge_idle h hb hr hv
        exact .inr (.inl ⟨rfl, rfl, rfl⟩)

theorem flightKeysRight_of_start {f : Flight} (h : f.phase = .start) : FlightKeysRight f := by
  rw [FlightKeysRight, h]
  trivial

/-- The keys are right when a request is offered. -/
theorem keys_of_offer {f : Flight} {i : Fin 4} (h : FlightKeysRight f) (hp : f.phase = .offer i) :
    f.k = keyDerive f.hs f.m := by
  rw [FlightKeysRight, hp] at h
  exact h

/-- Settles O51: nothing is asked of a command that begins, and the work on it keeps the key unit right; the request
offered is made from SBOX_SEL, the keys and HS late in the cycle. -/
theorem requestsCarryDerivedKeys : Obligations.RequestsCarryDerivedKeys := by
  unfold Obligations.RequestsCarryDerivedKeys
  refine ⟨fun T e s t hk h => ?_, fun T e s r hk hr => ?_⟩
  · rw [keysRight_iff] at hk ⊢
    rcases edge_flight_cases h with hp | ⟨-, -, hf⟩ | ⟨-, -, hf⟩
    · exact flightKeysRight_of_start hp
    · exact hf ▸ hk
    · exact hf ▸ keysRight_nextFlight T e s hk
  · obtain ⟨-, -, i, ho, rfl⟩ := cipherOffer_eq_some.mp hr
    have hp := (offering_eq_some.mp ho).1
    have hkeys := keys_of_offer (keysRight_cycle T e s hk) hp
    refine ⟨cycle_toArch T e s, i, hp, ?_⟩
    rw [request, hkeys, cycle_toArch]

/-- No Step is in progress: the command has not begun its work or has none left. -/
def NoStep (f : Flight) : Prop := f.phase = .start ∨ f.phase = .done

/-- In UNCONFIGURED only CONSTRUCT can succeed, which runs no Step (43_step_function.md R176). -/
theorem shape_steps_of_unconfigured {s : State} (hm : s.mode = .unconfigured) : (shape s).steps = 0 := by
  rw [shape, shapeOf]
  cases decode s.flight.word s.flight.data with
  | error e => rfl
  | ok i =>
    dsimp only
    split
    next hc =>
      obtain ⟨-, hmode⟩ := commandError_eq_none.mp hc
      cases i with
      | construct sel => rfl
      | write n data => exact absurd hm hmode
      | sum => exact absurd hm hmode
      | reset => rfl
    next => rfl

theorem noStep_own {s : State} (hm : s.mode = .unconfigured) (h : NoStep s.flight) : NoStep (ownFlight s) := by
  rcases h with hp | hp
  · have hown : ownFlight s = beginWork s := by rw [ownFlight, hp]
    rcases beginWork_phase s with ⟨hdone, -⟩ | ⟨-, hsteps, -⟩
    · exact .inr (hown ▸ hdone)
    · exact absurd (shape_steps_of_unconfigured hm) hsteps
  · have hown : ownFlight s = s.flight := by rw [ownFlight, hp]
    exact .inr (hown ▸ hp)

theorem NoStep.not_await {f : Flight} (h : NoStep f) (i : Fin 4) : f.phase ≠ .await i := by
  rcases h with h | h <;> rw [h] <;> nofun

theorem NoStep.not_offer {f : Flight} (h : NoStep f) (i : Fin 4) : f.phase ≠ .offer i := by
  rcases h with h | h <;> rw [h] <;> nofun

theorem noStep_cycle {T : Timing} {e : EdgeIn} {s : State} (hm : s.mode = .unconfigured) (h : NoStep s.flight) :
    NoStep (cycle T e s).flight := by
  have hreceive : receiveFlight e s = s.flight := receiveFlight_of_not_await e h.not_await
  have hcycle : (cycle T e s).mode = .unconfigured ∧ NoStep (cycle T e s).flight :=
    cycle_induct (P := fun u => u.mode = .unconfigured ∧ NoStep u.flight)
      (fun u hu => ⟨hu.1, noStep_own hu.1 hu.2⟩) ⟨hm, hreceive.symm ▸ h⟩
  exact hcycle.2

theorem noStep_nextFlight {T : Timing} {e : EdgeIn} {s : State} (hm : s.mode = .unconfigured) (h : NoStep s.flight) :
    NoStep (nextFlight T e s) := by
  have hcycle : NoStep (cycle T e s).flight := noStep_cycle hm h
  rw [nextFlight]
  rcases transferFlight_cases T e (cycle T e s) with ⟨i, ho, -, -⟩ | ⟨-, ht⟩
  · exact absurd (offering_eq_some.mp ho).1 (hcycle.not_offer i)
  · rw [ht]
    exact hcycle

/-- Settles O52: work on a command in UNCONFIGURED begins no Step, and without a Step no request is offered or awaited. -/
theorem noRequestWhileUnconfigured : Obligations.NoRequestWhileUnconfigured := by
  unfold Obligations.NoRequestWhileUnconfigured
  refine ⟨fun T e s t hs h hbt hmt => ?_, fun s hb hbusy => absurd (hb.symm.trans hbusy) Bool.false_ne_true,
    fun T e s hs hm => ⟨?_, ?_⟩⟩
  · rcases edge_flight_cases h with hp | ⟨hb, ha, -⟩ | ⟨hb, ha, hf⟩
    · exact .inl hp
    · rw [ha, hb] at hbt
      cases hbt
    · have hm : s.mode = .unconfigured := by rw [← ha]; exact hmt
      rw [hf]
      exact noStep_nextFlight hm (hs hb hm)
  · rw [Option.eq_none_iff_forall_ne_some]
    intro r hr
    obtain ⟨-, hb, i, ho, -⟩ := cipherOffer_eq_some.mp hr
    exact (noStep_cycle hm (hs hb hm)).not_offer i (offering_eq_some.mp ho).1
  · cases hb : s.busy with
    | false => rw [cipherOutstanding, hb, if_neg Bool.false_ne_true]
    | true => exact (cipherOutstanding_eq_none_iff hb).mpr (NoStep.not_await (hs hb hm))

/-! ## The two faults -/

theorem breaksHold_iff {e : EdgeIn} {s : State} : breaksHold e s = true ↔
    ∃ w d, s.held = some (w, d) ∧ e.cmdValid = true ∧ (w ≠ e.cmdWord ∨ d ≠ e.cmdData) := by
  unfold breaksHold
  cases s.held with
  | none => simp
  | some o =>
    obtain ⟨w, d⟩ := o
    simp [imp_iff_not_or]

theorem digestReadable_eq_false_iff {s : State} :
    s.digestReadable = false ↔ s.digestValid = false ∨ s.busy = true := by
  rw [State.digestReadable, Bool.and_eq_false_iff, Bool.not_eq_false', or_comm]

/-- The fault of an edge, if it has one: the hold is judged first (log 12). -/
theorem edge_eq_fault_iff {T : Timing} {e : EdgeIn} {s : State} :
    (edge T e s = .fault .heldCommandChanged ↔ breaksHold e s = true) ∧
    (edge T e s = .fault .digestReadNotValid ↔
      breaksHold e s = false ∧ e.readsDigest = true ∧ s.digestReadable = false) := by
  cases hhold : breaksHold e s with
  | true => simp [edge, hhold]
  | false =>
    by_cases hread : e.readsDigest = true ∧ s.digestReadable = false
    · simp [edge, hhold, hread]
    · have hallowed : (e.readsDigest && !s.digestReadable) = false := by simpa using hread
      simp [edge, hhold, hallowed, hread]

/-- An offer stays on the channel when it is valid and not ready (R60). -/
theorem heldAfter_eq_some_iff {e : EdgeIn} {s : State} :
    heldAfter e s = some (e.cmdWord, e.cmdData) ↔ e.cmdValid = true ∧ cmdReady e s = false := by
  simp [heldAfter]

/-- Settles O59: the two faults by their conditions, and the offer remembered by `heldAfter`. -/
theorem protocolFaults : Obligations.ProtocolFaults := by
  unfold Obligations.ProtocolFaults
  intro T e s
  obtain ⟨hhold, hdigest⟩ := edge_eq_fault_iff (T := T) (e := e) (s := s)
  refine ⟨hhold.trans breaksHold_iff, ?_, fun t h => ?_⟩
  · rw [hdigest, digestReadable_eq_false_iff]
  · obtain ⟨-, -, rfl⟩ := edge_eq_next.mp h
    exact heldAfter_eq_some_iff

end Sys2Proof.Machine
end

