-- ==== Sys2Proof/Proofs/Time.lean ====
section
/-! PROOFS. The time of a command (70_reset_and_hazards.md R299, R301): its productive edges are bounded, its cycles are not
fewer than its requests need, and they depend on its control state alone. -/

namespace Sys2Proof.Machine

/-! ## Productive edges -/

theorem shapeOf_of_ok {w : Word32} {d : Word64} {i : Instr} {s : State} (hd : decode w d = .ok i)
    (hc : commandError i s = none) :
    (shapeOf w d s).steps = stepCount i s ∧ (shapeOf w d s).outcome = .ok := by
  simp [shapeOf, hd, hc]

theorem shapeOf_of_failed {w : Word32} {d : Word64} {s : State} (h : ∀ i, decode w d = .ok i → commandError i s ≠ none) :
    (shapeOf w d s).steps = 0 ∧ (shapeOf w d s).outcome ≠ .ok := by
  rw [shapeOf]
  cases hd : decode w d with
  | error e => exact ⟨rfl, nofun⟩
  | ok i =>
    obtain ⟨e, hc⟩ := Option.ne_none_iff_exists'.mp (h i hd)
    have he : e ≠ .ok := by
      rintro rfl
      exact commandError_ne_ok i s hc
    simp [hc, he]

theorem stepCount_le (i : Instr) (s : State) : stepCount i s ≤ 3 := by
  cases i with
  | construct sel => exact Nat.zero_le 3
  | write n data =>
    rw [stepCount_write]
    split <;> decide
  | sum =>
    rw [stepCount_sum]
    split <;> decide
  | reset => exact Nat.zero_le 3

/-- No command runs more than three Steps (43_step_function.md R176). -/
theorem shapeOf_steps_le (w : Word32) (d : Word64) (s : State) : (shapeOf w d s).steps ≤ 3 := by
  rcases execute_outcome w d s with ⟨i, hd, hc, -⟩ | ⟨hfail, -⟩
  · rw [(shapeOf_of_ok hd hc).1]
    exact stepCount_le i s
  · rw [(shapeOf_of_failed hfail).1]
    exact Nat.zero_le 3

/-- The hidden state of a command just accepted, BUSY, and its shape. -/
theorem accepted {T : Timing} {a : EdgeIn} {s s₁ : State} (he : edge T a s = .next s₁) (hb : s.busy = false)
    (hr : a.rstN = true) (hv : a.cmdValid = true) :
    s₁.busy = true ∧ shape s₁ = shapeOf a.cmdWord a.cmdData s ∧ s₁.flight.phase = .start ∧ s₁.flight.job = .block ∧
      s₁.flight.age = 0 ∧ s₁.flight.times = [] := by
  have hs := edge_accept he hb hr hv
  refine ⟨?_, shape_accept hs, ?_, ?_, ?_, ?_⟩ <;> rw [hs] <;> rfl

/-- An accepted command needs at most 2·4·3 + 1 productive edges. -/
theorem workLeft_accept {T : Timing} {a : EdgeIn} {s s₁ : State} (he : edge T a s = .next s₁) (hb : s.busy = false)
    (hr : a.rstN = true) (hv : a.cmdValid = true) : workLeft s₁ ≤ 25 := by
  obtain ⟨hbusy, hshape, hphase, -⟩ := accepted he hb hr hv
  have hnone : cipherOutstanding s₁ = none :=
    (cipherOutstanding_eq_none_iff hbusy).mpr fun i => by rw [hphase]; nofun
  have hsteps := shapeOf_steps_le a.cmdWord a.cmdData s
  simp only [workLeft, hshape, Flight.requestsLeft, hphase, hnone, Option.isSome_none, Bool.false_eq_true, if_false]
  omega

theorem productiveCount_of_idle (T : Timing) (es : List EdgeIn) {s : State} (hb : s.busy = false) :
    productiveCount T es s = 0 := by
  cases es with
  | nil => rfl
  | cons e es => rw [productiveCount, hb, if_neg Bool.false_ne_true]

/-- The productive edges up to the completion are no more than the command needs: each brings it nearer, and the last is
the completion. -/
theorem productiveCount_le_workLeft {T : Timing} {es : List EdgeIn} {s : State} (hb : s.busy = true)
    (hr : ∀ e ∈ es, e.rstN = true) : productiveCount T es s ≤ workLeft s := by
  induction es generalizing s with
  | nil => exact Nat.zero_le _
  | cons e es ih =>
    obtain ⟨hre, hres⟩ := List.forall_mem_cons.mp hr
    have hpos := workLeft_pos s
    have hone : (if Productive T e s then 1 else 0) ≤ 1 := by split <;> decide
    rw [productiveCount, if_pos hb]
    cases he : edge T e s with
    | next s' =>
      dsimp only
      cases hb' : s'.busy with
      | false =>
        rw [productiveCount_of_idle T es hb']
        omega
      | true =>
        obtain ⟨ha, hf, hn⟩ := edge_not_completing he hb hre hb'
        have hnearer := workLeft_next hb hre ha hf hn
        have hrest := ih hb' hres
        omega
    | fault f => dsimp only; omega
    | refused r => dsimp only; omega

/-- Settles O54: `workLeft` is the measure, `unproductive_cases` the other edges, and 25 the measure of a command just
accepted. -/
theorem productiveEdgesBound : Obligations.ProductiveEdgesBound := by
  unfold Obligations.ProductiveEdgesBound
  refine ⟨fun T e s t hb hr he ht => ?_, fun T e s hb hr hp => unproductive_cases hb hr hp,
    fun T a es s s₁ hb hr hv ha hes => ?_⟩
  · obtain ⟨ha, hf, hn⟩ := edge_not_completing he hb hr ht
    exact workLeft_next hb hr ha hf hn
  · obtain ⟨hbusy, -⟩ := accepted ha hb hr hv
    exact (productiveCount_le_workLeft hbusy hes).trans (workLeft_accept ha hb hr hv)

/-! ## The lower bound -/

/-- An edge's work takes off at most one of the edges that the requests to come need; the completing edge leaves none. -/
theorem edgesNeeded_edge {T : Timing} {lat : Nat} {e : EdgeIn} {s t : State} (he : edge T e s = .next t)
    (hb : s.busy = true) (hr : e.rstN = true)
    (hl : cipherOutstanding s ≠ none → e.cipRspValid = true → lat ≤ s.flight.waited + 1) :
    edgesNeeded lat s ≤ (if t.busy then edgesNeeded lat t else 0) + 1 := by
  cases ht : t.busy with
  | true =>
    obtain ⟨ha, hf, -⟩ := edge_not_completing he hb hr ht
    exact edgesNeeded_next hb ha hf hl
  | false =>
    have hdone := (finishing_iff.mp (edge_completing he hb hr ht).1).1
    have hwait := waitNeeded_cycle (T := T) hb hl
    have hwait0 : (cycle T e s).flight.waitNeeded lat = 0 := waitNeeded_of_not_await lat fun i => by rw [hdone]; nofun
    have hrequests : s.flight.requestsLeft (4 * (shape s).steps) = 0 := by
      rw [← requestsLeft_cycle T e s, Flight.requestsLeft, hdone]
    rw [edgesNeeded, hrequests, Nat.zero_mul, Nat.zero_add, if_neg Bool.false_ne_true]
    omega

theorem edgesNeeded_le_length {T : Timing} {lat : Nat} {es : List EdgeIn} {s t : State} (h : CommandRun T es s t)
    (hl : ResponseDelays (lat ≤ ·) T es s) : (if s.busy then edgesNeeded lat s else 0) ≤ es.length := by
  induction es generalizing s with
  | nil =>
    rw [h.1, if_neg Bool.false_ne_true]
    exact Nat.zero_le _
  | cons e es ih =>
    obtain ⟨hb, hr, -, s', he, hrun⟩ := h
    obtain ⟨hdelay, hdelays⟩ := hl
    have hedge := edgesNeeded_edge he hb hr hdelay
    have hrest := ih hrun (hdelays s' he)
    rw [hb, if_pos rfl, List.length_cons]
    omega

theorem CommandRun.length_pos {T : Timing} {es : List EdgeIn} {s t : State} (h : CommandRun T es s t)
    (hb : s.busy = true) : 1 ≤ es.length := by
  cases es with
  | nil => exact absurd (hb.symm.trans h.1) (by decide)
  | cons e es => exact Nat.le_add_left 1 es.length

/-- A run from an idle block has no edge. -/
theorem CommandRun.eq_nil {T : Timing} {es : List EdgeIn} {s t : State} (h : CommandRun T es s t)
    (hb : s.busy = false) : es = [] := by
  cases es with
  | nil => rfl
  | cons e es => exact absurd (hb.symm.trans h.1) (by decide)

/-- Settles O56: a command just accepted needs LAT_CIPHER edges for each of its requests, and a run has what it needs. -/
theorem latencyLowerBound : Obligations.LatencyLowerBound := by
  unfold Obligations.LatencyLowerBound
  intro T lat a es s s₁ t i _ hb hr hv ha hrun hdelays hd hc
  obtain ⟨hbusy, hshape, hphase, -⟩ := accepted ha hb hr hv
  have hneeded : edgesNeeded lat s₁ = 4 * stepCount i s * lat := by
    simp only [edgesNeeded, hshape, (shapeOf_of_ok hd hc).1, Flight.requestsLeft, Flight.waitNeeded, hphase,
      Nat.add_zero]
  have hle := edgesNeeded_le_length hrun hdelays
  rw [hbusy, if_pos rfl, hneeded] at hle
  exact ⟨hrun.length_pos hbusy, hle⟩

/-! ## What the time depends on -/

theorem control_of_idle {s : State} (hb : s.busy = false) : s.control = none := by
  rw [State.control, hb, if_neg Bool.false_ne_true]

theorem sameHandshake_iff {e f : EdgeIn} : e.sameHandshake f = true ↔
    e.rstN = f.rstN ∧ e.cipReqReady = f.cipReqReady ∧ e.cipRspValid = f.cipRspValid := by
  simp [EdgeIn.sameHandshake, and_assoc]

/-- Equal control states stay equal under equal handshakes. -/
theorem control_edge {T : Timing} {e f : EdgeIn} {s t s' t' : State} (hb : s.busy = true)
    (hef : e.sameHandshake f = true) (hst : s.control = t.control) (he : edge T e s = .next s')
    (hf : edge T f t = .next t') : s'.control = t'.control := by
  obtain ⟨hrst, hready, hvalid⟩ := sameHandshake_iff.mp hef
  cases hr : e.rstN with
  | false =>
    obtain rfl := edge_reset he hr
    obtain rfl := edge_reset hf (hrst ▸ hr)
    rfl
  | true =>
    rcases sameControl_edge T (sameControl_iff.mpr ⟨hb, hst⟩) hr (hrst ▸ hr) hready hvalid he hf with ⟨hs, ht⟩ | hsame
    · rw [control_of_idle hs, control_of_idle ht]
    · exact (sameControl_iff.mp hsame).2

/-- Runs from equal control states under equal handshakes take equally many cycles. -/
theorem commandRun_length_eq {T : Timing} {es fs : List EdgeIn} {s t s' t' : State} (hst : SameControl s t)
    (hs : CommandRun T es s s') (ht : CommandRun T fs t t')
    (hef : ∀ (k : Nat) (e f : EdgeIn), es[k]? = some e → fs[k]? = some f → e.sameHandshake f = true) :
    es.length = fs.length := by
  induction es generalizing fs s t with
  | nil => exact absurd (hst.bs.symm.trans hs.1) (by decide)
  | cons e es ih =>
    cases fs with
    | nil => exact absurd (hst.bt.symm.trans ht.1) (by decide)
    | cons f fs =>
      obtain ⟨-, hre, -, s₁, he, hs₁⟩ := hs
      obtain ⟨-, hrf, -, t₁, hf, ht₁⟩ := ht
      obtain ⟨-, hready, hvalid⟩ := sameHandshake_iff.mp (hef 0 e f rfl rfl)
      rw [List.length_cons, List.length_cons]
      rcases sameControl_edge T hst hre hrf hready hvalid he hf with ⟨hsb, htb⟩ | hsame
      · rw [hs₁.eq_nil hsb, ht₁.eq_nil htb]
      · rw [ih hsame hs₁ ht₁ fun k e' f' he' hf' => hef (k + 1) e' f' he' hf']

/-- The operand of a WRITE is no part of the shape (30_encoding.md R82). -/
theorem shapeOf_data (w : Word32) (d d' : Word64) (s : State) : shapeOf w d s = shapeOf w d' s := by
  rw [shapeOf, shapeOf]
  rcases decode_data w d d' with ⟨e, hd, hd'⟩ | ⟨i, j, hd, hd', hij⟩
  · rw [hd, hd']
  · have herr : commandError i s = commandError j s := commandError_shape hij rfl
    have hsteps : stepCount i s = stepCount j s := by
      rcases sameShape_cases hij with ⟨sel, rfl, rfl⟩ | ⟨n, _, _, rfl, rfl⟩ | ⟨rfl, rfl⟩ | ⟨rfl, rfl⟩
      · rfl
      · rw [stepCount_write, stepCount_write]
      · rfl
      · rfl
    simp only [hd, hd', herr, hsteps]

/-- The Steps of a word without an error, by its opcode (43_step_function.md R176). -/
theorem shapeOf_steps_of_ok {w : Word32} {d : Word64} {s : State} (h : (shapeOf w d s).outcome = .ok) :
    (fieldOp w = 1 ∨ fieldOp w = 4 → (shapeOf w d s).steps = 0) ∧
    (fieldOp w = 2 → (shapeOf w d s).steps = if 32 ≤ s.pbCount.toNat + (fieldN w).toNat then 1 else 0) ∧
    (fieldOp w = 3 → (shapeOf w d s).steps = if s.pbCount = 0 then 2 else 3) := by
  rcases execute_outcome w d s with ⟨i, hd, hc, -⟩ | ⟨hfail, -⟩
  · rw [(shapeOf_of_ok hd hc).1]
    rcases decode_cases hd with ⟨sel, rfl, rfl⟩ | ⟨n, rfl, rfl, -⟩ | ⟨rfl, rfl⟩ | ⟨rfl, rfl⟩ <;>
      rw [fieldOp_packWord]
    · exact ⟨fun _ => rfl, nofun, nofun⟩
    · rw [fieldN_packWord]
      exact ⟨nofun, fun _ => stepCount_write n d s, nofun⟩
    · exact ⟨nofun, nofun, fun _ => stepCount_sum s⟩
    · exact ⟨fun _ => rfl, nofun, nofun⟩
  · exact absurd h (shapeOf_of_failed hfail).2

theorem shapeOf_steps_of_not_ok {w : Word32} {d : Word64} {s : State} (h : (shapeOf w d s).outcome ≠ .ok) :
    (shapeOf w d s).steps = 0 := by
  rcases execute_outcome w d s with ⟨i, hd, hc, -⟩ | ⟨hfail, -⟩
  · exact absurd (shapeOf_of_ok hd hc).2 h
  · exact (shapeOf_of_failed hfail).1

/-- Settles O58: `control_edge` edge by edge, `commandRun_length_eq` for the runs, two commands of one shape being accepted
into equal control states, and the shape read off the decoder's answer. -/
theorem timingIndependentOfData : Obligations.TimingIndependentOfData := by
  unfold Obligations.TimingIndependentOfData
  refine ⟨fun T e f s t s' t' hb hef hst he hf => control_edge hb hef hst he hf, ?_, fun w d d' s => ?_⟩
  · intro T a b es fs s t s₁ t₁ s₂ t₂ hs ha hav hae hrun ht hbr hbv hbe hrun' hshape hef
    obtain ⟨bs, shs, phs, jbs, ags, tms⟩ := accepted hae hs ha hav
    obtain ⟨bt, sht, pht, jbt, agt, tmt⟩ := accepted hbe ht hbr hbv
    have hsame : SameControl s₁ t₁ :=
      { bs := bs, bt := bt, sh := shs.trans (hshape.trans sht.symm), ph := phs.trans pht.symm, jb := jbs.trans jbt.symm
        ag := ags.trans agt.symm, tm := tms.trans tmt.symm }
    exact commandRun_length_eq hsame hrun hrun' hef
  · exact ⟨shapeOf_data w d d' s, rfl, shapeOf_steps_of_not_ok, fun h => (shapeOf_steps_of_ok h).1,
      fun h => (shapeOf_steps_of_ok h).2.1, fun h => (shapeOf_steps_of_ok h).2.2, fun hop => if_neg hop⟩

end Sys2Proof.Machine
end

