-- ==== Sys2Proof/Proofs/Completion.lean ====
section
/-! PROOFS. A command completes (70_reset_and_hazards.md R299): on every endless sequence of edges on which the cipher takes
its requests and answers them (40_block_cipher_port.md R117). -/

namespace Sys2Proof.Machine

/-- An endless sequence of edges with `rst_n = 1` on which the command in progress never completes. -/
structure NeverCompletes (T : Timing) (e : Nat → EdgeIn) (st : Nat → State) : Prop where
  rstN : ∀ n, (e n).rstN = true
  edge : ∀ n, edge T (e n) (st n) = .next (st (n + 1))
  busy : ∀ n, (st n).busy = true

namespace NeverCompletes

variable {T : Timing} {e : Nat → EdgeIn} {st : Nat → State}

theorem next (h : NeverCompletes T e st) (n : Nat) :
    (st (n + 1)).toArch = (st n).toArch ∧ (st (n + 1)).flight = nextFlight T (e n) (st n) ∧
      finishing T (cycle T (e n) (st n)) = false :=
  edge_not_completing (h.edge n) (h.busy n) (h.rstN n) (h.busy (n + 1))

theorem workLeft_step (h : NeverCompletes T e st) (n : Nat) :
    workLeft (st (n + 1)) + (if Productive T (e n) (st n) then 1 else 0) ≤ workLeft (st n) := by
  obtain ⟨ha, hf, hn⟩ := h.next n
  exact workLeft_next (h.busy n) (h.rstN n) ha hf hn

/-! ### While no edge is productive -/

/-- The age goes on and the rest stays the same. -/
theorem age_of_unproductive (h : NeverCompletes T e st) {n : Nat}
    (hun : ∀ m, n ≤ m → Productive T (e m) (st m) = false) (k : Nat) :
    (st (n + k)).flight.age = (st n).flight.age + k ∧ (st (n + k)).flight.times = (st n).flight.times ∧
      shape (st (n + k)) = shape (st n) := by
  induction k with
  | zero => exact ⟨rfl, rfl, rfl⟩
  | succ k ih =>
    obtain ⟨hage, htimes, hshape⟩ := ih
    obtain ⟨ha, hf, -⟩ := h.next (n + k)
    obtain ⟨htimes', hage'⟩ := unproductive_times (h.busy (n + k)) (hun (n + k) (by omega))
    rw [← Nat.add_assoc, shape_next ha hf, hf, hage', htimes', hage, htimes, hshape]
    exact ⟨rfl, rfl, rfl⟩

/-- So at some edge the rest is over. -/
theorem rested_of_unproductive (h : NeverCompletes T e st) {n : Nat}
    (hun : ∀ m, n ≤ m → Productive T (e m) (st m) = false) :
    ∃ m, n ≤ m ∧ rested T (cycle T (e m) (st m)) = true := by
  obtain ⟨hage, htimes, hshape⟩ := h.age_of_unproductive hun (restLeft T (st n))
  obtain ⟨m, hnm, hm⟩ : ∃ m, n ≤ m ∧ m = n + restLeft T (st n) := ⟨_, Nat.le_add_right _ _, rfl⟩
  rw [← hm] at hage htimes hshape
  have hrested : rested T (st m) = true := by
    rw [rested, hage, htimes, hshape, restLeft]
    exact decide_eq_true (by omega)
  obtain ⟨-, -, -, -, hnexttimes⟩ := nextFlight_kept T (e m) (st m)
  obtain ⟨hsametimes, -⟩ := unproductive_times (T := T) (h.busy m) (hun m hnm)
  obtain ⟨-, -, -, hsameage⟩ := receiveFlight_kept (e m) (st m)
  refine ⟨m, hnm, ?_⟩
  rw [rested_cycle]
  exact rested_later T (shape_receive _ _) (hnexttimes.symm.trans hsametimes) (Nat.le_of_eq hsameage.symm) hrested

/-- A request on the port stays there (40_block_cipher_port.md R114). -/
theorem offered_of_unproductive (h : NeverCompletes T e st) {n : Nat}
    (hun : ∀ m, n ≤ m → Productive T (e m) (st m) = false) (hoffer : cipherOffer T (e n) (st n) ≠ none) {m : Nat}
    (hnm : n ≤ m) : cipherOffer T (e m) (st m) ≠ none ∧ (e m).cipReqReady = false := by
  have notTaken : ∀ m, n ≤ m → cipherOffer T (e m) (st m) ≠ none → (e m).cipReqReady = false := by
    intro m hnm hm
    have hpm := hun m hnm
    simp only [Productive, Option.isSome_iff_ne_none.mpr hm, Bool.true_and, Bool.or_eq_false_iff] at hpm
    exact hpm.1.1
  induction m, hnm using Nat.le_induction with
  | base => exact ⟨hoffer, notTaken n (le_refl n) hoffer⟩
  | succ m hnm ih =>
    obtain ⟨hm, hready⟩ := ih
    obtain ⟨r, hr⟩ := Option.ne_none_iff_exists'.mp hm
    obtain ⟨hheld, -⟩ := cipherRequestHeldUntilTaken T (e m) (st m) (st (m + 1)) r hr (h.rstN m) (h.edge m)
    have hnext : cipherOffer T (e (m + 1)) (st (m + 1)) ≠ none := by
      rw [(hheld hready).2 (e (m + 1)) (h.rstN (m + 1))]
      exact Option.some_ne_none r
    exact ⟨hnext, notTaken (m + 1) (by omega) hnext⟩

/-- A request taken stays outstanding (R115). -/
theorem outstanding_of_unproductive (h : NeverCompletes T e st) {n : Nat}
    (hun : ∀ m, n ≤ m → Productive T (e m) (st m) = false) (hout : cipherOutstanding (st n) ≠ none) {m : Nat}
    (hnm : n ≤ m) : cipherOutstanding (st m) ≠ none ∧ (e m).cipRspValid = false := by
  have notAnswered : ∀ m, n ≤ m → cipherOutstanding (st m) ≠ none → (e m).cipRspValid = false := by
    intro m hnm hm
    have hpm := hun m hnm
    simp only [Productive, Option.isSome_iff_ne_none.mpr hm, Bool.true_and, Bool.or_eq_false_iff] at hpm
    exact hpm.1.2
  induction m, hnm using Nat.le_induction with
  | base => exact ⟨hout, notAnswered n (le_refl n) hout⟩
  | succ m hnm ih =>
    obtain ⟨hm, hvalid⟩ := ih
    obtain ⟨i, hi⟩ := (outstanding_iff (h.busy m)).mp (Option.isSome_iff_ne_none.mpr hm)
    obtain ⟨-, hf, -⟩ := h.next m
    have hphase : (st (m + 1)).flight.phase = .await i := by
      rw [hf, nextFlight_await hi hvalid]
      exact hi
    have hnext : cipherOutstanding (st (m + 1)) ≠ none :=
      Option.isSome_iff_ne_none.mp ((outstanding_iff (h.busy (m + 1))).mpr ⟨i, hphase⟩)
    exact ⟨hnext, notAnswered (m + 1) (by omega) hnext⟩

/-! ### The cipher answering -/

/-- If the cipher takes every request and answers it, a productive edge comes again and again: without one the rest would
end, and then a request would stay on the port, or outstanding, for ever. -/
theorem exists_productive (h : NeverCompletes T e st)
    (htakes : ∀ n, cipherOffer T (e n) (st n) ≠ none → ∃ m, n ≤ m ∧ (e m).cipReqReady = true)
    (hanswers : ∀ n, cipherOutstanding (st n) ≠ none → ∃ m, n ≤ m ∧ (e m).cipRspValid = true) (n : Nat) :
    ∃ m, n ≤ m ∧ Productive T (e m) (st m) = true := by
  by_contra hnone
  have hun : ∀ m, n ≤ m → Productive T (e m) (st m) = false := by
    intro m hm
    rw [Bool.eq_false_iff]
    exact fun hp => hnone ⟨m, hm, hp⟩
  obtain ⟨m, hnm, hrested⟩ := h.rested_of_unproductive hun
  have hunm : ∀ k, m ≤ k → Productive T (e k) (st k) = false := fun k hk => hun k (hnm.trans hk)
  rcases unproductive_cases (h.busy m) (h.rstN m) (hun m hnm) with hrest | ⟨hoffer, -⟩ | ⟨hout, -⟩
  · rw [hrested] at hrest
    cases hrest
  · obtain ⟨k, hk, hready⟩ := htakes m hoffer
    exact Bool.false_ne_true ((h.offered_of_unproductive hunm hoffer hk).2.symm.trans hready)
  · obtain ⟨k, hk, hvalid⟩ := hanswers m hout
    exact Bool.false_ne_true ((h.outstanding_of_unproductive hunm hout hk).2.symm.trans hvalid)

/-- Productive edges without end would use up `workLeft`. -/
theorem absurd_of_fair (h : NeverCompletes T e st)
    (htakes : ∀ n, cipherOffer T (e n) (st n) ≠ none → ∃ m, n ≤ m ∧ (e m).cipReqReady = true)
    (hanswers : ∀ n, cipherOutstanding (st n) ≠ none → ∃ m, n ≤ m ∧ (e m).cipRspValid = true) : False := by
  have hanti : Antitone fun n => workLeft (st n) :=
    antitone_nat_of_succ_le fun n => le_trans (Nat.le_add_right _ _) (h.workLeft_step n)
  have hbound : ∀ k n, ¬ workLeft (st n) ≤ k := by
    intro k
    induction k with
    | zero =>
      intro n hn
      have hpos := workLeft_pos (st n)
      omega
    | succ k ih =>
      intro n hn
      obtain ⟨m, hnm, hp⟩ := h.exists_productive htakes hanswers n
      have hdown : workLeft (st m) ≤ workLeft (st n) := hanti hnm
      have hstep := h.workLeft_step m
      rw [hp, if_pos rfl] at hstep
      exact ih (m + 1) (by omega)
  exact hbound _ 0 (le_refl _)

end NeverCompletes

/-- Settles O55: a fast cipher gives the run (`commandRun_exists`), and a command that never completed would contradict
`NeverCompletes.absurd_of_fair`. -/
theorem everyAcceptedCommandCanComplete : Obligations.EveryAcceptedCommandCanComplete := by
  unfold Obligations.EveryAcceptedCommandCanComplete
  refine ⟨fun T a s s₁ hb hr hv ha => ?_, fun T e st hedges htakes hanswers => ?_⟩
  · obtain ⟨hbusy, -⟩ := accepted ha hb hr hv
    obtain ⟨es, t, hrun⟩ := commandRun_exists T s₁ hbusy
    exact ⟨es, t, hrun, hrun.length_pos hbusy⟩
  · by_contra hnever
    have hbusy : ∀ n, (st n).busy = true := by
      intro n
      rw [← Bool.not_eq_false]
      exact fun hn => hnever ⟨n, hn⟩
    have hendless : NeverCompletes T e st := ⟨fun n => (hedges n).1, fun n => (hedges n).2, hbusy⟩
    exact hendless.absurd_of_fair htakes hanswers

end Sys2Proof.Machine
end

