-- ==== Sys2Proof/Proofs/Latency.lean ====
section
/-! PROOFS. Every LAT_CMD has a run (70_reset_and_hazards.md R299, R300): the block rests before its first request or its
completion and never again, and the cipher takes each request at once and answers it after exactly LAT_CIPHER cycles. -/

namespace Sys2Proof.Machine

/-- The block that rests `rest` cycles after the acceptance and not at all after a response. -/
def restFirst (rest : Nat) : Timing := fun _ times => if times = [] then rest else 0

/-- The edge on which a request is taken at once and answered exactly `lat` cycles later. -/
def pacedEdge (lat : Nat) (s : State) : EdgeIn := { fastEdge s with cipRspValid := decide (s.flight.waited + 1 = lat) }

/-- A run of exactly `n` edges completes the command in progress, every response coming after `lat` cycles. -/
def HasPacedRun (T : Timing) (lat n : Nat) (s : State) : Prop :=
  ∃ es t, CommandRun T es s t ∧ ResponseDelays (· = lat) T es s ∧ es.length = n

theorem pacedEdge_exists_next (T : Timing) (lat : Nat) (s : State) : ∃ t, edge T (pacedEdge lat s) s = .next t := by
  refine exists_edge_next T ?_ rfl
  rw [breaksHold]
  cases s.held <;> rfl

theorem cipherAnswers_pacedEdge (lat : Nat) (s : State) : CipherAnswers (pacedEdge lat s) s := by
  intro r hr _
  simp only [pacedEdge, fastEdge, hr]

/-- A paced edge is the first of a run, before a run from the state after it. -/
theorem hasPacedRun_cons {T : Timing} {lat n : Nat} {s t : State} (hb : s.busy = true)
    (he : edge T (pacedEdge lat s) s = .next t) (h : HasPacedRun T lat n t) : HasPacedRun T lat (n + 1) s := by
  obtain ⟨es, u, hrun, hdelays, hlen⟩ := h
  refine ⟨pacedEdge lat s :: es, u, ⟨hb, rfl, cipherAnswers_pacedEdge lat s, t, he, hrun⟩,
    ⟨fun _ hv => of_decide_eq_true hv, fun t' he' => ?_⟩, congrArg (· + 1) hlen⟩
  obtain rfl := Host.Outcome.next.inj (he.symm.trans he')
  exact hdelays

theorem hasPacedRun_of_idle (T : Timing) (lat : Nat) {s : State} (hb : s.busy = false) : HasPacedRun T lat 0 s :=
  ⟨[], s, ⟨hb, rfl⟩, trivial, rfl⟩

/-- Once the rest is over, the paced edge completes the command, or takes a request that is then answered `lat` cycles
later. -/
theorem hasPacedRun_of_rested {T : Timing} {lat : Nat} {s : State} (hb : s.busy = true)
    (hrest : rested T (cycle T (pacedEdge lat s) s) = true)
    (hna : ∀ i, (cycle T (pacedEdge lat s) s).flight.phase ≠ .await i)
    (hanswered : ∀ (t : State) (i : Fin 4), t.busy = true → t.flight.phase = .await i → t.flight.waited = 0 →
      requestsToCome t + 1 = requestsToCome s → HasPacedRun T lat (lat + requestsToCome t * lat) t) :
    HasPacedRun T lat (1 + requestsToCome s * lat) s := by
  obtain ⟨t, he⟩ := pacedEdge_exists_next T lat s
  rcases ready_edge he hb rfl rfl hrest hna with ⟨hbt, hnone⟩ | ⟨hbt, hshape, ⟨i, hi⟩, hw, -, hleft⟩
  · have hcount : 1 + requestsToCome s * lat = 0 + 1 := by rw [requestsToCome_of_busy hb, hnone, Nat.zero_mul]
    rw [hcount]
    exact hasPacedRun_cons hb he (hasPacedRun_of_idle T lat hbt)
  · rw [← hshape] at hleft
    have hcome : requestsToCome t + 1 = requestsToCome s := by
      rw [requestsToCome_of_busy hbt, hleft, hshape, requestsToCome_of_busy hb]
    have hcount : 1 + requestsToCome s * lat = lat + requestsToCome t * lat + 1 := by
      rw [← hcome, Nat.add_mul]
      omega
    rw [hcount]
    exact hasPacedRun_cons hb he (hanswered t i hbt hi hw hcome)

/-- Once the cipher has answered, the block does not rest. -/
theorem rested_cycle_of_response {rest : Nat} {e : EdgeIn} {s : State} {i : Fin 4} (hp : s.flight.phase = .await i)
    (hv : e.cipRspValid = true) : rested (restFirst rest) (cycle (restFirst rest) e s) = true := by
  obtain ⟨-, htimes, hage⟩ := takeResponse_kept s.flight i e.cipRspBlock
  rw [rested_cycle, receiveFlight_response hp hv, rested]
  simp [htimes, hage, restFirst]

/-- While the response is not due, the paced edge waits. -/
theorem pacedEdge_wait {T : Timing} {lat : Nat} {s t : State} {i : Fin 4} (hb : s.busy = true)
    (hp : s.flight.phase = .await i) (hw : s.flight.waited + 1 ≠ lat) (he : edge T (pacedEdge lat s) s = .next t) :
    t.busy = true ∧ t.flight.phase = .await i ∧ t.flight.waited = s.flight.waited + 1 ∧
      requestsToCome t = requestsToCome s := by
  have hv : (pacedEdge lat s).cipRspValid = false := decide_eq_false hw
  cases hbt : t.busy with
  | false =>
    have hdone := (finishing_iff.mp (edge_completing he hb rfl hbt).1).1
    rw [cycle_wait T hp hv, State.setFlight_flight, hp] at hdone
    cases hdone
  | true =>
    obtain ⟨-, hf, -⟩ := edge_not_completing he hb rfl hbt
    rw [nextFlight_await hp hv] at hf
    have hcome := requestsToCome_edge he hb rfl
    rw [cipherOffer_wait T hp hv] at hcome
    exact ⟨rfl, by rw [hf]; exact hp, by rw [hf], by simpa using hcome⟩

/-- From a request outstanding on, if the request after the next response has its run, so has this one. -/
theorem hasPacedRun_of_await_of_next {rest lat : Nat} {s : State} {i : Fin 4} {wait : Nat} (hb : s.busy = true)
    (hp : s.flight.phase = .await i) (hw : s.flight.waited + wait + 1 = lat)
    (hnext : ∀ (t : State) (j : Fin 4), t.busy = true → t.flight.phase = .await j → t.flight.waited = 0 →
      requestsToCome t + 1 = requestsToCome s → HasPacedRun (restFirst rest) lat (lat + requestsToCome t * lat) t) :
    HasPacedRun (restFirst rest) lat (wait + 1 + requestsToCome s * lat) s := by
  induction wait generalizing s with
  | zero =>
    have hv : (pacedEdge lat s).cipRspValid = true := decide_eq_true hw
    rw [Nat.zero_add]
    exact hasPacedRun_of_rested hb (rested_cycle_of_response hp hv) (cycle_not_await (.inr hv)) hnext
  | succ wait ih =>
    obtain ⟨t, he⟩ := pacedEdge_exists_next (restFirst rest) lat s
    obtain ⟨hbt, hpt, hwt, hcome⟩ := pacedEdge_wait hb hp (by omega) he
    rw [← hcome] at hnext ⊢
    have hrun := ih hbt hpt (by omega) hnext
    have hcount : wait + 1 + 1 + requestsToCome t * lat = wait + 1 + requestsToCome t * lat + 1 := by omega
    rw [hcount]
    exact hasPacedRun_cons hb he hrun

/-- From a request outstanding on, its response takes what is left of its `lat` cycles, and each request to come takes
`lat`. -/
theorem hasPacedRun_of_await {rest lat : Nat} {s : State} {i : Fin 4} {wait : Nat} (hb : s.busy = true)
    (hp : s.flight.phase = .await i) (hw : s.flight.waited + wait + 1 = lat) :
    HasPacedRun (restFirst rest) lat (wait + 1 + requestsToCome s * lat) s := by
  obtain ⟨r, hr⟩ : ∃ r, requestsToCome s = r := ⟨_, rfl⟩
  induction r generalizing s i wait with
  | zero => exact hasPacedRun_of_await_of_next hb hp hw fun t j _ _ _ ht => by omega
  | succ r ih =>
    refine hasPacedRun_of_await_of_next hb hp hw fun t j hbt hpt hwt ht => ?_
    have hrun := ih (wait := lat - 1) hbt hpt (by omega) (by omega)
    rwa [Nat.sub_add_cancel (by omega)] at hrun

/-! ## The rest before the first request -/

/-- While the block rests, the paced edge only lets time pass and own moves be made. -/
theorem pacedEdge_rest {T : Timing} {lat : Nat} {s t : State} (hb : s.busy = true)
    (hna : ∀ i, s.flight.phase ≠ .await i) (hrest : rested T (cycle T (pacedEdge lat s) s) = false)
    (he : edge T (pacedEdge lat s) s = .next t) :
    t.busy = true ∧ (∀ i, t.flight.phase ≠ .await i) ∧ t.flight.times = s.flight.times ∧
      t.flight.age = s.flight.age + 1 ∧ requestsToCome t = requestsToCome s := by
  have hoffer : offering T (cycle T (pacedEdge lat s) s) = none := by
    rw [Option.eq_none_iff_forall_ne_some]
    intro i hi
    exact Bool.false_ne_true (hrest.symm.trans (offering_eq_some.mp hi).2)
  cases hbt : t.busy with
  | false =>
    have hrested := (finishing_iff.mp (edge_completing he hb rfl hbt).1).2
    exact absurd (hrest.symm.trans hrested) Bool.false_ne_true
  | true =>
    obtain ⟨-, hf, -⟩ := edge_not_completing he hb rfl hbt
    obtain ⟨-, -, -, hage, htimes⟩ := nextFlight_kept T (pacedEdge lat s) s
    rw [receiveFlight_of_not_await _ hna] at htimes
    have hnext : (nextFlight T (pacedEdge lat s) s).phase = (cycle T (pacedEdge lat s) s).flight.phase := by
      rw [nextFlight, transferFlight, hoffer]
    have hcome := requestsToCome_edge he hb rfl
    rw [cipherOffer_isSome rfl hb, hoffer] at hcome
    refine ⟨rfl, fun i => ?_, by rw [hf, htimes], by rw [hf, hage], by simpa using hcome⟩
    rw [hf, hnext]
    exact cycle_not_await (.inl hna) i

/-- The rest of a command to which no response has come is over at age `rest`. -/
theorem rested_restFirst {rest : Nat} {e : EdgeIn} {s : State} (hna : ∀ i, s.flight.phase ≠ .await i)
    (htimes : s.flight.times = []) :
    rested (restFirst rest) (cycle (restFirst rest) e s) = decide (rest ≤ s.flight.age) := by
  rw [rested_cycle, receiveFlight_of_not_await e hna, rested]
  simp [htimes, restFirst]

/-- From the acceptance on, the block rests, and then each request takes `lat` cycles. -/
theorem hasPacedRun_of_resting {rest lat left : Nat} {s : State} (hlat : 1 ≤ lat) (hb : s.busy = true)
    (hna : ∀ i, s.flight.phase ≠ .await i) (htimes : s.flight.times = []) (hage : s.flight.age + left = rest) :
    HasPacedRun (restFirst rest) lat (left + 1 + requestsToCome s * lat) s := by
  induction left generalizing s with
  | zero =>
    have hrest : rested (restFirst rest) (cycle (restFirst rest) (pacedEdge lat s) s) = true := by
      rw [rested_restFirst hna htimes]
      exact decide_eq_true (by omega)
    rw [Nat.zero_add]
    refine hasPacedRun_of_rested hb hrest (cycle_not_await (.inl hna)) fun t i hbt hpt hwt _ => ?_
    have hrun := hasPacedRun_of_await (rest := rest) (lat := lat) (wait := lat - 1) hbt hpt (by omega)
    rwa [Nat.sub_add_cancel hlat] at hrun
  | succ left ih =>
    obtain ⟨t, he⟩ := pacedEdge_exists_next (restFirst rest) lat s
    have hrest : rested (restFirst rest) (cycle (restFirst rest) (pacedEdge lat s) s) = false := by
      rw [rested_restFirst hna htimes]
      exact decide_eq_false (by omega)
    obtain ⟨hbt, hnat, htimest, haget, hcome⟩ := pacedEdge_rest hb hna hrest he
    have hrun := ih hbt hnat (htimest.trans htimes) (by omega)
    have hcount : left + 1 + 1 + requestsToCome s * lat = left + 1 + requestsToCome t * lat + 1 := by rw [hcome]; omega
    rw [hcount]
    exact hasPacedRun_cons hb he hrun

/-- Settles O57: the block that rests for the cycles that the requests leave over. -/
theorem everyLatencyHasARun : Obligations.EveryLatencyHasARun := by
  unfold Obligations.EveryLatencyHasARun
  intro lat n a s hlat hb hr hv hhold hread hn
  obtain ⟨rest, hrest⟩ := Nat.exists_eq_add_of_le' hn
  obtain ⟨s₁, ha⟩ := exists_edge_next (restFirst rest) hhold hread
  obtain ⟨hbusy, -, hphase, -, hage, htimes⟩ := accepted ha hb hr hv
  obtain ⟨es, t, hrun, hdelays, hlen⟩ := hasPacedRun_of_resting (rest := rest) (left := rest) hlat hbusy
    (fun i => by rw [hphase]; nofun) htimes (by rw [hage, Nat.zero_add])
  exact ⟨restFirst rest, s₁, es, t, ha, hrun, hdelays, by rw [hlen, requestsToCome_accept ha hb hr hv]; omega⟩

end Sys2Proof.Machine
end

