-- ==== Sys2Proof/Proofs/Assembler.lean ====
section
/-! PROOFS. The assembler's `write.bytes` (30_encoding.md R91): the text in chunks of 8 bytes, each carried by one WRITE. -/

namespace Sys2Proof.Machine

/-- The last, shorter chunk of a text, if there is one. -/
def lastChunk (bytes : List Byte) : List (List Byte) :=
  if bytes.length % 8 = 0 then [] else [bytes.drop (8 * (bytes.length / 8))]

/-- A text in chunks of 8 bytes, the last one shorter. -/
def chunks (bytes : List Byte) : List (List Byte) :=
  ((List.range (bytes.length / 8)).map fun k => (bytes.drop (8 * k)).take 8) ++ lastChunk bytes

/-- The byte count and the operand of the WRITE of a chunk. -/
def chunkPair (c : List Byte) : BitVec 4 × Word64 := (BitVec.ofNat 4 c.length, chunkOperand c)

theorem writeAll_eq (bytes : List Byte) : writeAll bytes = writes ((chunks bytes).map chunkPair) := by
  rw [writeAll, writes, chunks, lastChunk, List.map_map, List.map_append, List.map_map]
  split <;> rfl

theorem length_le_of_mem_chunks {bytes c : List Byte} (h : c ∈ chunks bytes) : c.length ≤ 8 := by
  rcases List.mem_append.mp h with hfull | hlast
  · obtain ⟨k, -, rfl⟩ := List.mem_map.mp hfull
    exact List.length_take_le 8 _
  · rw [lastChunk] at hlast
    split at hlast
    next => cases hlast
    next =>
      rw [List.mem_singleton.mp hlast, List.length_drop]
      omega

/-- The chunks joined are the text: the full ones are its first `8·⌊|m|/8⌋` bytes (`chunks_flat`). -/
theorem chunks_flatten (bytes : List Byte) : (chunks bytes).flatten = bytes := by
  have hfull : 8 * (bytes.length / 8) ≤ bytes.length := Nat.mul_div_le _ _
  have hlast : (lastChunk bytes).flatten = bytes.drop (8 * (bytes.length / 8)) := by
    rw [lastChunk]
    split
    next hmod => rw [List.drop_of_length_le (by omega), List.flatten_nil]
    next => rw [List.flatten_singleton]
  rw [chunks, List.flatten_append, ← List.flatMap_def, chunks_flat bytes _ hfull, hlast, List.take_append_drop]

/-- A WRITE carries its chunk (`dataBytes_chunk`). -/
theorem carried_chunkPair {cs : List (List Byte)} (h : ∀ c ∈ cs, c.length ≤ 8) :
    carried (cs.map chunkPair) = cs.flatten := by
  induction cs with
  | nil => rfl
  | cons c cs ih =>
    obtain ⟨hc, hcs⟩ := List.forall_mem_cons.mp h
    rw [List.map_cons, carried, List.flatMap_cons, chunkPair, dataBytes_chunk c hc, List.flatten_cons, ← ih hcs, carried]

theorem chunkPair_count_le {c : List Byte} (h : c.length ≤ 8) : (chunkPair c).1.toNat ≤ 8 :=
  (Nat.mod_le _ _).trans h

/-- ⌈|m|/8⌉ chunks. -/
theorem chunks_length (bytes : List Byte) : (chunks bytes).length = (bytes.length + 7) / 8 := by
  rw [chunks, lastChunk, List.length_append, List.length_map, List.length_range]
  split
  next => rw [List.length_nil]; omega
  next => rw [List.length_singleton]; omega

/-- Settles O60: the WRITEs of the chunks; the worked lines are evaluated. -/
theorem assemblerCarriesTheBytes : Obligations.AssemblerCarriesTheBytes := by
  unfold Obligations.AssemblerCarriesTheBytes
  refine ⟨fun bytes => ⟨(chunks bytes).map chunkPair, writeAll_eq bytes, ?_, fun w hw => ?_, ?_⟩, ?_, ?_, ?_⟩
  · rw [carried_chunkPair fun c hc => length_le_of_mem_chunks hc, chunks_flatten]
  · obtain ⟨c, hc, rfl⟩ := List.mem_map.mp hw
    exact chunkPair_count_le (length_le_of_mem_chunks hc)
  · rw [List.length_map, chunks_length]
  · decide +kernel
  · decide +kernel
  · decide +kernel

end Sys2Proof.Machine
end
